-- ==== Sys2Proof/Word.lean ====
section
/-! DEFINITION. The two word types of the block: bytes of data, and 32-bit words of the register bus. -/

namespace Sys2Proof

/-- A byte: 8 bits, unsigned (00_scope.md R8). -/
abbrev Byte := BitVec 8

/-- A register or command word: 32 bits (00_scope.md R7, 30_encoding.md R70). -/
abbrev Word := BitVec 32

end Sys2Proof
end

