-- ==== Sys2Proof/Syntax.lean ====
section
/-! DEFINITION. The commands, one constructor per row of the opcode table (30_encoding.md R74). -/

namespace Sys2Proof

/-- A command. READ_FULL and IGNORE carry LEN, their byte count (30_encoding.md R73). -/
inductive Instr where
  | refill
  | readByte
  | readStuffed
  | unread
  | readFull (n : Nat)
  | ignore (n : Nat)
  | init
  deriving DecidableEq, Repr

end Sys2Proof
end

