-- ==== Sys2Proof/WellFormed.lean ====
section
/-! DEFINITION. Which commands have an encoding. -/

namespace Sys2Proof

/-- A byte count fits LEN, 24 bits; "a value outside that range is an assembly error" (30_encoding.md R73, R79). -/
def lenFits (n : Nat) : Bool := decide (n < 2 ^ 24)

/-- The commands that have an encoding. -/
def Instr.wf : Instr → Bool
  | .refill => true
  | .readByte => true
  | .readStuffed => true
  | .unread => true
  | .readFull n => lenFits n
  | .ignore n => lenFits n
  | .init => true

end Sys2Proof
end

