-- ==== Sys2Proof/Decode.lean ====
section
/-! DEFINITION. Decoding a command word, total, rejecting by name, and the encoder (30_encoding.md). -/

namespace Sys2Proof

/-- OP, bits [3:0] (30_encoding.md R71). -/
def opField (w : Word) : BitVec 4 := w.extractLsb' 0 4

/-- RSV, bits [7:4] (30_encoding.md R72). -/
def rsvField (w : Word) : BitVec 4 := w.extractLsb' 4 4

/-- LEN, bits [31:8], an unsigned byte count, not scaled (30_encoding.md R73). -/
def lenField (w : Word) : Nat := (w.extractLsb' 8 24).toNat

/-- Why a word is no command (30_encoding.md R76). -/
inductive Illegal where
  /-- RSV is not 0 (R72). -/
  | reservedBits (rsv : BitVec 4)
  /-- OP is 0x0 or 0x7 to 0xE (R77). -/
  | reservedOp (op : BitVec 4)
  /-- LEN is not 0 in a command that takes no length (R73). -/
  | unusedLength (len : Nat)
  deriving DecidableEq, Repr

/-- A command without a length operand: LEN must be 0 (30_encoding.md R73). -/
def noLength (w : Word) (i : Instr) : Except Illegal Instr :=
  if lenField w = 0 then .ok i else .error (.unusedLength (lenField w))

/-- Decoding, total on every word (30_encoding.md R75). -/
def decode (w : Word) : Except Illegal Instr :=
  if rsvField w ≠ 0 then .error (.reservedBits (rsvField w))
  else match (opField w).toNat with
    | 0x1 => noLength w .refill
    | 0x2 => noLength w .readByte
    | 0x3 => noLength w .readStuffed
    | 0x4 => noLength w .unread
    | 0x5 => .ok (.readFull (lenField w))
    | 0x6 => .ok (.ignore (lenField w))
    | 0xF => noLength w .init
    | _ => .error (.reservedOp (opField w))

/-- OP of each command (30_encoding.md R74). -/
def opcode : Instr → BitVec 4
  | .refill => 0x1
  | .readByte => 0x2
  | .readStuffed => 0x3
  | .unread => 0x4
  | .readFull _ => 0x5
  | .ignore _ => 0x6
  | .init => 0xF

/-- LEN of each command (30_encoding.md R74). -/
def lenOperand : Instr → Nat
  | .refill => 0
  | .readByte => 0
  | .readStuffed => 0
  | .unread => 0
  | .readFull n => n
  | .ignore n => n
  | .init => 0

/-- The word of a command: LEN, RSV = 0, OP from the high bits down (30_encoding.md R70). -/
def encode (i : Instr) : Word :=
  (BitVec.ofNat 24 (lenOperand i)) ++ (0 : BitVec 4) ++ (opcode i)

/-- The mask of the bits the opcode table fixes for a command (30_encoding.md R74). -/
def fixedMask : Instr → Word
  | .refill => 0xFFFFFFFF
  | .readByte => 0xFFFFFFFF
  | .readStuffed => 0xFFFFFFFF
  | .unread => 0xFFFFFFFF
  | .readFull _ => 0x000000FF
  | .ignore _ => 0x000000FF
  | .init => 0xFFFFFFFF

/-- The value of those bits (30_encoding.md R74). -/
def fixedMatch : Instr → Word
  | .refill => 0x00000001
  | .readByte => 0x00000002
  | .readStuffed => 0x00000003
  | .unread => 0x00000004
  | .readFull _ => 0x00000005
  | .ignore _ => 0x00000006
  | .init => 0x0000000F

/-- The 32-bit word whose low `nbits` bits are those of `w` and whose others are 0 (log 19). -/
def tableWord (nbits w : Nat) : Word := BitVec.ofNat 32 (w % 2 ^ nbits)

/-- The command the decoder reads from an instruction numbered as the opcode table numbers it.
Every command is one 32-bit word (30_encoding.md R78), so there is no other length. -/
def decodeTableWord (nbits w : Nat) : Option Instr :=
  if nbits ≤ 32 then (decode (tableWord nbits w)).toOption else none

/-- The register word whose byte lanes are these, byte 0 in bits [7:0] (20_memory.md R52). -/
def wordOfLanes (b0 b1 b2 b3 : Byte) : Word := b3 ++ b2 ++ b1 ++ b0

end Sys2Proof
end

