-- ==== Sys2Proof/Config.lean ====
section
/-! DEFINITION. What one implementation fixes (the spec's OPEN parameters) and the values the spec leaves free. -/

namespace Sys2Proof

/-- The OPEN parameters of 00_scope.md R7 and 10_state.md R34, R44. A machine carries its own (log 1). -/
structure Config where
  /-- `BUF_CAP`: bytes of storage. -/
  bufCap : Nat
  /-- `ACC_W`: width of each of the accumulator's two bit-fields. -/
  accW : Nat
  /-- `ACC_NMAX`: the largest value `acc.n` can take. -/
  accNMax : Nat
  /-- `JBSD_BASE`: address of the register window. -/
  base : Nat
  /-- `JBSD_WINDOW`: size of the register window in bytes. -/
  window : Nat
  deriving DecidableEq, Repr

/-- The constraints the spec puts on its parameters (00_scope.md R7, 10_state.md R44), and a base
address that is a multiple of 4 (DESIGN CHOICE, log 12). -/
abbrev Config.Valid (c : Config) : Prop :=
  3 ≤ c.bufCap ∧ c.bufCap ≤ 2 ^ 31 ∧ 8 ≤ c.accW ∧ 0x28 ≤ c.window ∧ c.base % 4 = 0

/-- The parameters `State.reset` has (DESIGN CHOICE, log 1): `BUF_CAP` is the one 95_test_vectors.md uses. -/
def Config.standard : Config :=
  { bufCap := 4, accW := 32, accNMax := 32, base := 0, window := 0x28 }

/-- What storage index `k` holds before anything is written there: "unspecified" (10_state.md R47),
"any value" (93_implementation_defined.md U1). FREE VALUE (log 7). -/
opaque Config.initialStorage : Nat → Byte

/-- What the `d`-th unspecified register read answers (10_state.md R48). FREE VALUE (log 9). -/
opaque Config.busyRead : Nat → Word

end Sys2Proof
end

