-- ==== Sys2Proof/Machine/State.lean ====
section
/-! DEFINITION. The machine's state as plain data, why a step can stop, and the state after reset. -/

namespace Sys2Proof.Machine

/-- Storage contents: (index, byte) pairs, indices strictly rising; an index not listed has not been
written and has no value of its own. -/
abbrev Memory := List Host.Cell

/-- A session's source sequence `S` (10_state.md R32), as far as it has been revealed: with `ended`,
`S` is `seq`; without, `S` goes on past `seq` (or the source falls silent there), and a pull that
needs more waits (log 3). -/
structure Source where
  seq : List Byte
  ended : Bool
  deriving DecidableEq, Repr

/-- A source of which nothing has been revealed. -/
def Source.fresh : Source := { seq := [], ended := false }

/-- The command whose `Refill()` is running, with the byte count it still owes (10_state.md R46). -/
inductive PullFor where
  | refill
  | readByte
  /-- the first plain read of READ_STUFFED's fallback path -/
  | stuffedFirst
  /-- its second plain read, after an 0xFF -/
  | stuffedSecond
  | readFull (rem : Nat)
  | ignore (rem : Nat)
  deriving DecidableEq, Repr

/-- Where a command waits for another agent (46_session_control.md R232, log 5). -/
inductive Wait where
  /-- in `SrcPull()`, after `got` bytes of this pull -/
  | pull (got : Nat) (k : PullFor)
  /-- in READ_FULL's `Emit` of byte `t` of a round of `count` bytes, `rem` bytes being owed when the round began -/
  | emit (rem count t : Nat)
  deriving DecidableEq, Repr

/-- A move of an agent outside the block (00_scope.md R15), one per step. -/
inductive Input where
  /-- the host writes `data` as an access of `bytes` bytes at `addr` -/
  | busWrite (addr bytes : Nat) (data : Word)
  /-- the host reads `bytes` bytes at `addr` -/
  | busRead (addr bytes : Nat)
  /-- from now on the host accepts this many data-out bytes (none: every byte) -/
  | hostAccept (ready : Option Nat)
  /-- the source reveals further bytes of the session's sequence -/
  | sourceBytes (bs : List Byte)
  /-- the source reveals that the session's sequence is complete -/
  | sourceEnd
  /-- the environment attaches the source of the NEXT session -/
  | attach (s : Source)
  /-- the accumulator agent changes its state -/
  | accSet (n f1 f2 : Nat)
  /-- the reset input is asserted -/
  | reset
  deriving DecidableEq, Repr

/-- The machine: the block's state (10_state.md R20), its parameters, the other agents' state the spec
names, and the model's own fields (INVENTORY.md, State). -/
structure State where
  /-- the parameters of 00_scope.md R7, which no step changes -/
  cfg : Config
  /-- storage (10_state.md R26) -/
  buf : Memory
  /-- read cursor (10_state.md R23) -/
  i : Nat
  /-- valid boundary (10_state.md R24) -/
  j : Nat
  /-- unreadable count (10_state.md R25) -/
  u : Nat
  /-- source position (10_state.md R33) -/
  sp : Nat
  /-- STATUS.BUSY (10_state.md R36) -/
  busy : Bool
  /-- STATUS.FAULT -/
  fault : Bool
  /-- STATUS.SRC_END -/
  srcEnd : Bool
  /-- STATUS.OVR -/
  ovr : Bool
  /-- STATUS.REFUSED -/
  refused : Bool
  /-- STATUS.FCODE -/
  fcode : BitVec 4
  /-- FINFO (10_state.md R41) -/
  finfo : Word
  /-- RESULT (10_state.md R37) -/
  result : Byte
  /-- PULLCNT (10_state.md R39) -/
  pullcnt : Word
  /-- XFER (10_state.md R40) -/
  xfer : Word
  /-- the command in progress, where it waits (46_session_control.md R232) -/
  waiting : Option Wait
  /-- `acc.n` (10_state.md R30) -/
  accN : Nat
  /-- `acc.f1`, below 2^ACC_W -/
  accF1 : Nat
  /-- `acc.f2`, below 2^ACC_W -/
  accF2 : Nat
  /-- the session's source (10_state.md R32) -/
  source : Source
  /-- the source attached for the next session (46_session_control.md R235) -/
  nextSource : Source
  /-- data-out bytes the host will accept; none: every byte (20_memory.md R55) -/
  outReady : Option Nat
  /-- data-out bytes delivered over all sessions, oldest first (46_session_control.md R236, log 13) -/
  dataOut : List Byte
  /-- source bytes received over all sessions, oldest first (46_session_control.md R236, log 13) -/
  consumed : List Byte
  /-- MODEL: the answers of the host's register reads, oldest first (log 13) -/
  reads : List Word
  /-- MODEL: unspecified register reads answered so far (log 9) -/
  draws : Nat
  /-- MODEL: the outside agents' pending moves, oldest first (log 2) -/
  inputs : List Input
  deriving DecidableEq, Repr

/-- Why the machine stops with a fault. The block's own faults (60_exceptions.md R251) are NOT here:
they are latched in STATUS and the machine goes on. -/
inductive Fault where
  /-- Raised by a storage access (`memRead`, `memWrite`) at an index at or above `BUF_CAP`, which does
  not exist (00_scope.md R10). SAFE: the invariant INV-CUR of 10_state.md R27 rules it out. -/
  | storageIndex (k : Nat)
  deriving DecidableEq, Repr

/-- Why a move has no meaning in the model. -/
inductive Refusal where
  /-- Raised by an arm of `exec` that has no meaning yet. SAFE. -/
  | notModelled (mnemonic : String)
  /-- Raised by a register access that is not an aligned 32-bit word: "a model refuses it"
  (20_memory.md R52, R53). SAFE. -/
  | busAccess (addr bytes : Nat)
  /-- Raised by a bus access outside the block's window: it is no access to the block (10_state.md R44). SAFE. -/
  | outsideWindow (addr : Nat)
  /-- Raised by an accumulator change while BUSY = 1, or to values outside its ranges: "a model gives it
  no such move" (70_reset_and_hazards.md R291, 10_state.md R30). SAFE. -/
  | accumulatorMove
  /-- Raised by a source that delivers bytes after it has ended (10_state.md R32). SAFE. -/
  | sourceAfterEnd
  deriving DecidableEq, Repr

/-- The state after reset of a machine with these parameters, this accumulator, and this source
attached for the session (10_state.md R47, 70_reset_and_hazards.md R280, R283). -/
def State.afterReset (cfg : Config) (accN accF1 accF2 : Nat) (source : Source) : State where
  cfg := cfg
  buf := []
  i := 0
  j := 0
  u := 0
  sp := 0
  busy := false
  fault := false
  srcEnd := false
  ovr := false
  refused := false
  fcode := 0
  finfo := 0
  result := 0
  pullcnt := 0
  xfer := 0
  waiting := none
  accN := accN
  accF1 := accF1
  accF2 := accF2
  source := source
  nextSource := .fresh
  outReady := none
  dataOut := []
  consumed := []
  reads := []
  draws := 0
  inputs := []

/-- The machine right after reset (10_state.md R47). The parameters, the accumulator and the source are
not the spec's to give (log 1, 3, 4, 6, 11). -/
def State.reset : State := .afterReset .standard 0 0 0 .fresh

end Sys2Proof.Machine
end

