-- ==== Sys2Proof/Machine/Flags.lean ====
section
/-! DEFINITION. The STATUS register, the fault codes, and every change of a STATUS flag (10_state.md R36, R45). -/

namespace Sys2Proof.Machine

/-- The block's five faults (60_exceptions.md R251). -/
inductive FaultKind where
  | unreadBytes
  | missingFF00
  | endOfStream
  | copyEmptyDest
  | illegalCommand
  deriving DecidableEq, Repr

/-- STATUS.FCODE of a fault (60_exceptions.md R251). -/
def faultCode : FaultKind → BitVec 4
  | .unreadBytes => 1
  | .missingFF00 => 2
  | .endOfStream => 3
  | .copyEmptyDest => 4
  | .illegalCommand => 5

/-- One flag as a field of one bit. -/
def flagBit (b : Bool) : BitVec 1 := BitVec.ofBool b

/-- STATUS as the host reads it (10_state.md R36): from the high bits down, reserved [31:12], FCODE
[11:8], reserved [7:5], REFUSED, OVR, SRC_END, FAULT, BUSY. -/
def statusWord (s : State) : Word :=
  (0 : BitVec 20) ++ s.fcode ++ (0 : BitVec 3) ++ flagBit s.refused ++ flagBit s.ovr
    ++ flagBit s.srcEnd ++ flagBit s.fault ++ flagBit s.busy

/-- Latching a fault: FAULT, FCODE and FINFO are written together (60_exceptions.md R254, 10_state.md R36). -/
def latchFault (f : FaultKind) (info : Word) (s : State) : State :=
  { s with fault := true, fcode := faultCode f, finfo := info }

/-- BUSY at acceptance of a command (46_session_control.md R231). -/
def setBusy (s : State) : State := { s with busy := true }

/-- BUSY at the end of a command, completed or faulted; no command is in progress (46_session_control.md R231, R232). -/
def endCommand (s : State) : State := { s with busy := false, waiting := none }

/-- A command that waits: BUSY stays 1 (46_session_control.md R232). -/
def park (w : Wait) (s : State) : State := { s with busy := true, waiting := some w }

/-- A CMD write while BUSY = 1 was dropped (46_session_control.md R231). -/
def setOvr (s : State) : State := { s with ovr := true }

/-- A CMD write while FAULT = 1 was dropped (46_session_control.md R231). -/
def setRefused (s : State) : State := { s with refused := true }

/-- The source has answered `End` (10_state.md R33). -/
def setSrcEnd (s : State) : State := { s with srcEnd := true }

end Sys2Proof.Machine
end

