-- ==== Sys2Proof/Machine/Ops.lean ====
section
/-! DEFINITION. The shared operations of the commands: sequencing, raising a fault, storage, the source,
data-out and accumulator ports. -/

namespace Sys2Proof.Machine

/-! ## Sequencing -/

/-- Why a command's pseudocode goes no further. -/
inductive Stop where
  /-- a `raise` (60_exceptions.md R254); the fault is latched in the state beside it -/
  | raised
  /-- another agent has not answered (46_session_control.md R232) -/
  | waits (w : Wait)
  /-- the model stops -/
  | fault (f : Fault)
  deriving DecidableEq, Repr

/-- What a piece of pseudocode does: it gives a value and goes on, or it stops. The state reached is kept
either way: "nothing is rolled back" (60_exceptions.md R254). -/
inductive Res (α : Type) where
  | ok (a : α) (s : State)
  | stop (why : Stop) (s : State)

/-- One statement after another (00_scope.md R10); nothing after a stop executes. -/
def Res.bind {α β : Type} (r : Res α) (f : α → State → Res β) : Res β :=
  match r with
  | .ok a s => f a s
  | .stop why s => .stop why s

/-- The end of a command as the machine's next state (46_session_control.md R231, R232). -/
def finish : Res Unit → Host.Outcome State Fault Refusal
  | .ok _ s => .next (endCommand s)
  | .stop .raised s => .next (endCommand s)
  | .stop (.waits w) s => .next (park w s)
  | .stop (.fault f) _ => .fault f

/-- `raise F(info)`: fault entry (60_exceptions.md R254). -/
def raise {α : Type} (f : FaultKind) (info : Word) (s : State) : Res α :=
  .stop .raised (latchFault f info s)

/-- A natural shown in a 32-bit register, `zext_32` (00_scope.md R10). -/
def zext32 (n : Nat) : Word := BitVec.ofNat 32 n

/-! ## Storage -/

/-- The byte listed at index `k`; none when nothing has been written there. -/
def Memory.read? : Memory → Nat → Option Byte
  | [], _ => none
  | (a, v) :: rest, k => if a = k then some v else Memory.read? rest k

/-- Writing a byte keeps the list rising by index. -/
def Memory.write : Memory → Nat → Byte → Memory
  | [], k, v => [(k, v)]
  | (a, w) :: rest, k, v =>
    if k < a then (k, v) :: (a, w) :: rest
    else if a = k then (k, v) :: rest
    else (a, w) :: Memory.write rest k v

/-- The canonical form: indices strictly rising. (An unlisted index has no value, so no entry equals one.) -/
def Memory.wf : Memory → Bool
  | [] => true
  | [_] => true
  | a :: b :: rest => decide (a.1 < b.1) && Memory.wf (b :: rest)

/-- The byte storage index `k` holds: the one written, or before any write the free one (log 7). -/
def storageByte (m : Memory) (k : Nat) : Byte := (m.read? k).getD (Config.initialStorage k)

/-- `MemRead(k, 1)` (00_scope.md R10); the index must exist (log 8). -/
def memRead (k : Nat) (s : State) : Res Byte :=
  if k < s.cfg.bufCap then .ok (storageByte s.buf k) s else .stop (.fault (.storageIndex k)) s

/-- `MemWrite(k, 1, v)` (00_scope.md R10); the index must exist (log 8). -/
def memWrite (k : Nat) (v : Byte) (s : State) : Res Unit :=
  if k < s.cfg.bufCap then .ok () { s with buf := s.buf.write k v }
  else .stop (.fault (.storageIndex k)) s

/-! ## Ports -/

/-- What the source port answers to `SrcPull()`; a silent source has not answered yet (10_state.md R32). -/
inductive SrcAnswer where
  | byte (v : Byte) (s : State)
  | ended
  | silent

/-- `SrcPull()` (10_state.md R32, R33). -/
def srcPull (s : State) : SrcAnswer :=
  match s.source.seq[s.sp]? with
  | some v => .byte v { s with sp := s.sp + 1, consumed := s.consumed ++ [v] }
  | none => if s.source.ended then .ended else .silent

/-- `Emit(v)` (20_memory.md R55): none when the host does not accept the byte now. -/
def emit (v : Byte) (s : State) : Option State :=
  match s.outReady with
  | none => some { s with dataOut := s.dataOut ++ [v] }
  | some (n + 1) => some { s with dataOut := s.dataOut ++ [v], outReady := some n }
  | some 0 => none

/-- `AccShift8()`, a logical shift (10_state.md R31). -/
def accShift8 (s : State) : State :=
  { s with accF1 := s.accF1 >>> 8, accF2 := s.accF2 >>> 8, accN := s.accN - 8 }

end Sys2Proof.Machine
end

