-- ==== Sys2Proof/Machine/Copy.lean ====
section
/-! DEFINITION. The copy primitive (45_copy.md). -/

namespace Sys2Proof.Machine

/-- The copy of R211: the resulting destination and the count, or the usage fault. The cases are tested
in the order given (45_copy.md R211). -/
def copy {α : Type} (dst src : List α) : Except FaultKind (List α × Nat) :=
  if dst.length = 0 then .error .copyEmptyDest
  else if src.length = 0 then .ok (dst, 0)
  else if src.length < dst.length then .ok (src ++ dst.drop src.length, src.length)
  else if dst.length = src.length then .ok (src, src.length)
  else .ok (src.take dst.length, dst.length)

/-- Its block form `Copy(rem, avail)`: only the lengths count (45_copy.md R212). -/
def copyCount (rem avail : Nat) (s : State) : Res Nat :=
  if rem = 0 then raise .copyEmptyDest 0 s else .ok (min rem avail) s

end Sys2Proof.Machine
end

