-- ==== Sys2Proof/Machine/Refill.lean ====
section
/-! DEFINITION. Buffer refill: carry-forward, pull, NeedBytes, and REFILL (40_refill.md). -/

namespace Sys2Proof.Machine

/-- The end of a pull that received `got` bytes: PULLCNT (10_state.md R39, 40_refill.md R105). -/
def pullDone (got : Nat) (s : State) : Res Nat := .ok got { s with pullcnt := zext32 got }

/-- The loop of `Pull()` (40_refill.md R105) with room for so many more bytes, `got` received so far,
run for the command `k`. -/
def pullLoop : (room got : Nat) → PullFor → State → Res Nat
  | 0, got, _, s => pullDone got s
  | room + 1, got, k, s =>
    if s.srcEnd then pullDone got s
    else match srcPull s with
      | .byte v s1 => (memWrite s1.j v s1).bind fun _ s2 => pullLoop room (got + 1) k { s2 with j := s2.j + 1 }
      | .ended => pullDone got (setSrcEnd s)
      | .silent => .stop (.waits (.pull got k)) s

/-- `Pull()`, started with `got = 0` or resumed with the bytes it had (40_refill.md R105). -/
def pull (got : Nat) (k : PullFor) (s : State) : Res Nat := pullLoop (s.cfg.bufCap - s.j) got k s

/-- Carry-forward, Policy A: both reads precede both writes (40_refill.md R103, R104). -/
def carryForward (s : State) : Res Unit :=
  if 2 < s.j then
    (memRead (s.j - 2) s).bind fun a s =>
    (memRead (s.j - 1) s).bind fun b s =>
    (memWrite 0 a s).bind fun _ s =>
    (memWrite 1 b s).bind fun _ s =>
    .ok () { s with i := 2, j := 2 }
  else .ok () s

/-- `Refill()` (40_refill.md R103). -/
def refill (k : PullFor) (s : State) : Res Nat :=
  (carryForward s).bind fun _ s => pull 0 k s

/-- What `NeedBytes(need)` does once its pull has received `got` bytes (40_refill.md R108). -/
def checkReceived (need got : Nat) (s : State) : Res Unit :=
  if got = 0 then raise .endOfStream (zext32 need) s else .ok () s

/-- `NeedBytes(need)` (40_refill.md R108). -/
def needBytes (need : Nat) (k : PullFor) (s : State) : Res Unit :=
  (refill k s).bind (checkReceived need)

/-- The rest of a `NeedBytes(need)` whose pull waited after `got` bytes. -/
def resumeNeedBytes (need got : Nat) (k : PullFor) (s : State) : Res Unit :=
  (pull got k s).bind (checkReceived need)

/-- What REFILL does after its pull: nothing, even when no byte came (40_refill.md R109). -/
def refillDone (_ : Nat) (s : State) : Res Unit := .ok () s

/-- REFILL (40_refill.md R101, R102). -/
def execRefill (s : State) : Host.Outcome State Fault Refusal :=
  finish (if s.i ≠ s.j then raise .unreadBytes (zext32 (s.j - s.i)) s else (refill .refill s).bind refillDone)

end Sys2Proof.Machine
end

