-- ==== Sys2Proof/Machine/Operands.lean ====
section
/-! DEFINITION. The operands of the commands: the raw byte at the read cursor, the unread portion, and
the plain read with its refill (20_memory.md R50, 43_plain_reader.md R162). LEN is a field of the
command word (Decode.lean, `lenField`). -/

namespace Sys2Proof.Machine

/-- The size of the unread portion `buf[i..j)` (00_scope.md R14). -/
def unreadLen (s : State) : Nat := s.j - s.i

/-- The end of `PlainRead()`: the byte at the cursor (43_plain_reader.md R162). -/
def plainTake (s : State) : Res Byte :=
  (memRead s.i s).bind fun x s => .ok x { s with i := s.i + 1, u := 0 }

/-- `PlainRead()`. Its loop runs at most once (43_plain_reader.md R162, R163). -/
def plainRead (k : PullFor) (s : State) : Res Byte :=
  (if s.i = s.j then needBytes 1 k s else .ok () s).bind fun _ s => plainTake s

/-- The rest of a `PlainRead()` whose pull waited after `got` bytes. -/
def resumePlainRead (got : Nat) (k : PullFor) (s : State) : Res Byte :=
  (resumeNeedBytes 1 got k s).bind fun _ s => plainTake s

end Sys2Proof.Machine
end

