-- ==== Sys2Proof/Machine/Unread.lean ====
section
/-! DEFINITION. Rewind: UNREAD and the sequence READ_FULL and IGNORE share with it (42_unread.md). -/

namespace Sys2Proof.Machine

/-- The raw bytes of the last logical byte are given back (42_unread.md R141, R142). -/
def giveBack (s : State) : State := { s with i := s.i - s.u, u := 0 }

/-- `UnreadSeq()` (42_unread.md R141). -/
def unreadSeq (s : State) : State := giveBack (if 8 ≤ s.accN then accShift8 s else s)

/-- UNREAD (42_unread.md R141). -/
def execUnread (s : State) : Host.Outcome State Fault Refusal := finish (.ok () (unreadSeq s))

end Sys2Proof.Machine
end

