-- ==== Sys2Proof/Machine/ExactLength.lean ====
section
/-! DEFINITION. READ_FULL and IGNORE (44_read_full_ignore.md). -/

namespace Sys2Proof.Machine

/-- `Precondition()` (44_read_full_ignore.md R182). -/
def precondition (s : State) : State :=
  if s.u ≠ 0 then
    let s1 := if 8 ≤ s.accN then unreadSeq s else s
    { s1 with u := 0 }
  else s

/-- `XFER <- 0` after the precondition (44_read_full_ignore.md R183). -/
def startTransfer (s : State) : State := { precondition s with xfer := 0 }

/-- A round's count leaves the cursor and enters XFER (44_read_full_ignore.md R181, R192). -/
def advance (count : Nat) (s : State) : State :=
  { s with i := s.i + count, xfer := s.xfer + zext32 count }

/-- How many rounds a transfer of `rem` bytes is given: each round after the first moves a byte, so this
many never run out (log 14). -/
def roundsFor (rem : Nat) : Nat := rem + 2

/-- The answer of a transfer that runs out of rounds, which none does (log 14): the command goes on. -/
def outOfRounds (k : PullFor) (s : State) : Res Unit := .stop (.waits (.pull 0 k)) s

/-- The emissions of a round, `left` bytes from byte `t` on (44_read_full_ignore.md R181, R184). -/
def emitLoop (rem count : Nat) : (left t : Nat) → State → Res Unit
  | 0, _, s => .ok () s
  | left + 1, t, s =>
    (memRead (s.i + t) s).bind fun v s1 =>
      match emit v s1 with
      | some s2 => emitLoop rem count left (t + 1) s2
      | none => .stop (.waits (.emit rem count t)) s1

/-- READ_FULL from byte `t` of a round of `count` bytes on (44_read_full_ignore.md R181). -/
def readFullFrom (fuel rem count t : Nat) (s : State) : Res Unit :=
  (emitLoop rem count (count - t) t s).bind fun _ s1 =>
    let s2 := advance count s1
    let rem' := rem - count
    if rem' = 0 then .ok () s2
    else match fuel with
      | 0 => outOfRounds (.readFull rem') s2
      | fuel' + 1 =>
        (needBytes rem' (.readFull rem') s2).bind fun _ s3 =>
        (copyCount rem' (unreadLen s3) s3).bind fun count' s4 =>
        readFullFrom fuel' rem' count' 0 s4

/-- READ_FULL's loop from the start of a round (44_read_full_ignore.md R181). -/
def readFullLoop (rem : Nat) (s : State) : Res Unit :=
  (copyCount rem (unreadLen s) s).bind fun count s1 => readFullFrom (roundsFor rem) rem count 0 s1

/-- READ_FULL N (44_read_full_ignore.md R181). -/
def execReadFull (n : Nat) (s : State) : Host.Outcome State Fault Refusal :=
  finish (readFullLoop n (startTransfer s))

/-- IGNORE's loop (44_read_full_ignore.md R192). -/
def ignoreFrom (fuel rem : Nat) (s : State) : Res Unit :=
  let m := min (unreadLen s) rem
  let s1 := advance m s
  let rem' := rem - m
  if rem' = 0 then .ok () s1
  else match fuel with
    | 0 => outOfRounds (.ignore rem') s1
    | fuel' + 1 => (needBytes rem' (.ignore rem') s1).bind fun _ s2 => ignoreFrom fuel' rem' s2

/-- IGNORE's loop with rounds enough. -/
def ignoreLoop (rem : Nat) (s : State) : Res Unit := ignoreFrom (roundsFor rem) rem s

/-- IGNORE N (44_read_full_ignore.md R191, R192). -/
def execIgnore (n : Nat) (s : State) : Host.Outcome State Fault Refusal :=
  finish (ignoreLoop n (startTransfer s))

end Sys2Proof.Machine
end

