-- ==== Sys2Proof/Machine/PlainReader.lean ====
section
/-! DEFINITION. READ_BYTE (43_plain_reader.md). -/

namespace Sys2Proof.Machine

/-- `RESULT <- x; done` (43_plain_reader.md R161, 10_state.md R37). -/
def giveResult (x : Byte) (s : State) : Res Unit := .ok () { s with result := x }

/-- READ_BYTE (43_plain_reader.md R161). -/
def execReadByte (s : State) : Host.Outcome State Fault Refusal :=
  finish ((plainRead .readByte s).bind giveResult)

end Sys2Proof.Machine
end

