-- ==== Sys2Proof/Machine/Session.lean ====
section
/-! DEFINITION. Sessions: INIT and the reset input (46_session_control.md R235, 70_reset_and_hazards.md R280, R281). -/

namespace Sys2Proof.Machine

/-- The environment attaches the next session's source (46_session_control.md R235, log 4). -/
def attachNext (s : State) : State := { s with source := s.nextSource, nextSource := .fresh }

/-- The values INIT and reset give the block's registers (46_session_control.md R235, 10_state.md R47). -/
def clearSession (s : State) : State :=
  { s with
    i := 0, j := 0, u := 0, sp := 0
    srcEnd := false, ovr := false, refused := false
    fault := false, fcode := 0, finfo := 0
    result := 0, pullcnt := 0, xfer := 0 }

/-- INIT (46_session_control.md R235): storage is not cleared, the accumulator is not touched. -/
def execInit (s : State) : Host.Outcome State Fault Refusal :=
  finish (.ok () (attachNext (clearSession s)))

/-- The reset input (70_reset_and_hazards.md R280, R281): a command in progress is abandoned, storage
is unspecified (log 22), the accumulator and the bytes delivered stay. -/
def assertReset (s : State) : State :=
  endCommand { attachNext (clearSession s) with buf := [] }

end Sys2Proof.Machine
end

