-- ==== Sys2Proof/Machine/StuffedReader.lean ====
section
/-! DEFINITION. READ_STUFFED: the fast path and the fallback path (41_stuffed_reader.md). -/

namespace Sys2Proof.Machine

/-- The fast path, for at least 2 unread bytes (41_stuffed_reader.md R121, R122). -/
def stuffedFast (s : State) : Res Unit :=
  (memRead s.i s).bind fun x s1 =>
    let s2 := { s1 with i := s1.i + 1, u := 1 }
    if x ≠ 0xFF then giveResult x s2
    else (memRead s2.i s2).bind fun y s3 =>
      if y ≠ 0x00 then raise .missingFF00 (y.setWidth 32) s3
      else giveResult 0xFF { s3 with i := s3.i + 1, u := 2 }

/-- The fallback path after its second plain read (41_stuffed_reader.md R121, R123). -/
def stuffedAfterSecond (y : Byte) (s : State) : Res Unit :=
  if y ≠ 0x00 then raise .missingFF00 (y.setWidth 32) s else giveResult 0xFF { s with u := 2 }

/-- The fallback path after its first plain read; the second read is only made after an 0xFF
(41_stuffed_reader.md R121, R123). -/
def stuffedAfterFirst (x : Byte) (s : State) : Res Unit :=
  let s1 := { s with u := 1 }
  if x ≠ 0xFF then giveResult x s1 else (plainRead .stuffedSecond s1).bind stuffedAfterSecond

/-- The body of READ_STUFFED (41_stuffed_reader.md R121). -/
def readStuffed (s : State) : Res Unit :=
  if s.i + 2 ≤ s.j then stuffedFast s else (plainRead .stuffedFirst s).bind stuffedAfterFirst

/-- READ_STUFFED (41_stuffed_reader.md R121). -/
def execReadStuffed (s : State) : Host.Outcome State Fault Refusal := finish (readStuffed s)

end Sys2Proof.Machine
end

