-- ==== Sys2Proof/Machine/Dispatch.lean ====
section
/-! DEFINITION. What each command does once it is accepted (46_session_control.md R231). -/

namespace Sys2Proof.Machine

def exec (i : Instr) (s : State) : Host.Outcome State Fault Refusal :=
  match i with
  | .refill => Sys2Proof.Machine.execRefill s
  | .readByte => Sys2Proof.Machine.execReadByte s
  | .readStuffed => Sys2Proof.Machine.execReadStuffed s
  | .unread => Sys2Proof.Machine.execUnread s
  | .readFull n => Sys2Proof.Machine.execReadFull n s
  | .ignore n => Sys2Proof.Machine.execIgnore n s
  | .init => Sys2Proof.Machine.execInit s

end Sys2Proof.Machine
end

