-- ==== Sys2Proof/Machine/Acceptance.lean ====
section
/-! DEFINITION. Command acceptance (46_session_control.md R230, R231). -/

namespace Sys2Proof.Machine

/-- A word accepted as a command: BUSY is set, and it raises ILLEGAL_COMMAND (60_exceptions.md R256) or
its command runs. -/
def accept (w : Word) (s : State) : Host.Outcome State Fault Refusal :=
  match decode w with
  | .error _ => finish (raise .illegalCommand w (setBusy s))
  | .ok i => exec i (setBusy s)

/-- Whether a word is INIT, the only command accepted while FAULT = 1. -/
def isInit (w : Word) : Bool :=
  match decode w with
  | .ok .init => true
  | _ => false

/-- A host write of a word to CMD (46_session_control.md R231). -/
def offer (w : Word) (s : State) : Host.Outcome State Fault Refusal :=
  if s.busy then .next (setOvr s)
  else if s.fault = true ∧ isInit w = false then .next (setRefused s)
  else accept w s

end Sys2Proof.Machine
end

