-- ==== Sys2Proof/Machine/Registers.lean ====
section
/-! DEFINITION. The register window as the host reads it (10_state.md R34 to R44, R48). -/

namespace Sys2Proof.Machine

/-- The registers of the map (10_state.md R35). -/
inductive Reg where
  | cmd
  | status
  | result
  | cursor
  | bound
  | ucnt
  | pullcnt
  | xfer
  | finfo
  | capr
  deriving DecidableEq, Repr

/-- The register at a byte offset; none at an unlisted one (10_state.md R35, R44). -/
def regAt : Nat → Option Reg
  | 0x00 => some .cmd
  | 0x04 => some .status
  | 0x08 => some .result
  | 0x0C => some .cursor
  | 0x10 => some .bound
  | 0x14 => some .ucnt
  | 0x18 => some .pullcnt
  | 0x1C => some .xfer
  | 0x20 => some .finfo
  | 0x24 => some .capr
  | _ => none

/-- What a register holds (10_state.md R35 to R43). -/
def regValue (r : Reg) (s : State) : Word :=
  match r with
  | .cmd => 0
  | .status => statusWord s
  | .result => s.result.setWidth 32
  | .cursor => zext32 s.i
  | .bound => zext32 s.j
  | .ucnt => zext32 s.u
  | .pullcnt => s.pullcnt
  | .xfer => s.xfer
  | .finfo => s.finfo
  | .capr => zext32 s.cfg.bufCap

/-- A read's answer reaches the host (log 13). -/
def answerRead (v : Word) (s : State) : State := { s with reads := s.reads ++ [v] }

/-- An unspecified answer, a fresh free value (10_state.md R48, log 9). -/
def answerUnspecified (s : State) : State :=
  answerRead (Config.busyRead s.draws) { s with draws := s.draws + 1 }

/-- An aligned 32-bit read at an offset inside the window: an unlisted offset reads 0 (10_state.md R44),
and while BUSY = 1 every register but STATUS is unspecified (10_state.md R48). -/
def readOffset (off : Nat) (s : State) : State :=
  match regAt off with
  | none => answerRead 0 s
  | some r => if s.busy = true ∧ r ≠ .status then answerUnspecified s else answerRead (regValue r s) s

/-- The offset of an access inside the block's window, when it is one of an aligned 32-bit word
(10_state.md R34, R44; 20_memory.md R52, R53). -/
def busOffset (addr bytes : Nat) (c : Config) : Except Refusal Nat :=
  if addr < c.base ∨ c.base + c.window ≤ addr then .error (.outsideWindow addr)
  else if bytes = 4 ∧ addr % 4 = 0 then .ok (addr - c.base)
  else .error (.busAccess addr bytes)

end Sys2Proof.Machine
end

