-- ==== Sys2Proof/Machine/Resume.lean ====
section
/-! DEFINITION. Going on with a command that waited on a port (46_session_control.md R232, log 5). -/

namespace Sys2Proof.Machine

/-- The rest of a command from where it waits. -/
def continueFrom (w : Wait) (s : State) : Res Unit :=
  match w with
  | .pull got .refill => (pull got .refill s).bind refillDone
  | .pull got .readByte => (resumePlainRead got .readByte s).bind giveResult
  | .pull got .stuffedFirst => (resumePlainRead got .stuffedFirst s).bind stuffedAfterFirst
  | .pull got .stuffedSecond => (resumePlainRead got .stuffedSecond s).bind stuffedAfterSecond
  | .pull got (.readFull rem) => (resumeNeedBytes rem got (.readFull rem) s).bind fun _ s1 => readFullLoop rem s1
  | .pull got (.ignore rem) => (resumeNeedBytes rem got (.ignore rem) s).bind fun _ s1 => ignoreLoop rem s1
  | .emit rem count t => readFullFrom (roundsFor rem) rem count t s

/-- After a port has moved: the command in progress, if any, goes on as far as it can. -/
def resume (s : State) : Host.Outcome State Fault Refusal :=
  match s.waiting with
  | none => .next s
  | some w => finish (continueFrom w s)

end Sys2Proof.Machine
end

