-- ==== Sys2Proof/Machine/Inputs.lean ====
section
/-! DEFINITION. What each move of an outside agent does (00_scope.md R15). -/

namespace Sys2Proof.Machine

/-- A host write: CMD takes commands, every other offset ignores writes (10_state.md R35, R43, R44). -/
def busWrite (addr bytes : Nat) (data : Word) (s : State) : Host.Outcome State Fault Refusal :=
  match busOffset addr bytes s.cfg with
  | .error r => .refused r
  | .ok off => if regAt off = some .cmd then offer data s else .next s

/-- A host read; it changes nothing in the block (46_session_control.md R237). -/
def busRead (addr bytes : Nat) (s : State) : Host.Outcome State Fault Refusal :=
  match busOffset addr bytes s.cfg with
  | .error r => .refused r
  | .ok off => .next (readOffset off s)

/-- The host sets how many data-out bytes it accepts; a command waiting on the port goes on (20_memory.md R55). -/
def hostAccept (ready : Option Nat) (s : State) : Host.Outcome State Fault Refusal :=
  resume { s with outReady := ready }

/-- The session's sequence as known after further bytes of it. -/
def Source.reveal (bs : List Byte) (src : Source) : Source := { src with seq := src.seq ++ bs }

/-- The source delivers; a command waiting on it goes on (10_state.md R32). -/
def sourceBytes (bs : List Byte) (s : State) : Host.Outcome State Fault Refusal :=
  if s.source.ended then .refused .sourceAfterEnd
  else resume { s with source := s.source.reveal bs }

/-- The source ends; a command waiting on it goes on (10_state.md R32). -/
def sourceEnd (s : State) : Host.Outcome State Fault Refusal :=
  resume { s with source := { s.source with ended := true } }

/-- The accumulator agent's own move: free between commands, none while one runs (10_state.md R30,
70_reset_and_hazards.md R291), within its ranges (00_scope.md R7). -/
def accSet (n f1 f2 : Nat) (s : State) : Host.Outcome State Fault Refusal :=
  if s.busy = false ∧ n ≤ s.cfg.accNMax ∧ f1 < 2 ^ s.cfg.accW ∧ f2 < 2 ^ s.cfg.accW then
    .next { s with accN := n, accF1 := f1, accF2 := f2 }
  else .refused .accumulatorMove

/-- One move. -/
def takeInput (a : Input) (s : State) : Host.Outcome State Fault Refusal :=
  match a with
  | .busWrite addr bytes data => busWrite addr bytes data s
  | .busRead addr bytes => busRead addr bytes s
  | .hostAccept ready => hostAccept ready s
  | .sourceBytes bs => sourceBytes bs s
  | .sourceEnd => sourceEnd s
  | .attach src => .next { s with nextSource := src }
  | .accSet n f1 f2 => accSet n f1 f2 s
  | .reset => .next (assertReset s)

/-- The host's write of a command word to CMD. -/
def cmdWrite (w : Word) (c : Config) : Input := .busWrite c.base 4 w

end Sys2Proof.Machine
end

