-- ==== Sys2Proof/Machine/Step.lean ====
section
/-! DEFINITION. One step: the oldest pending move of an outside agent, and the block's answer to it. -/

namespace Sys2Proof.Machine

/-- One step. With no move pending the block waits (70_reset_and_hazards.md R282, log 15). -/
def step (s : State) : Host.Outcome State Fault Refusal :=
  match s.inputs with
  | [] => .next s
  | a :: rest => takeInput a { s with inputs := rest }

/-- The state in which the next move is the host's write of this command word to CMD: where the next
command comes from (46_session_control.md R230, log 2). -/
def State.withFetchWord (s : State) (nbits w : Nat) : State :=
  { s with inputs := cmdWrite (tableWord nbits w) s.cfg :: s.inputs }

end Sys2Proof.Machine
end

