-- ==== Sys2Proof/Machine/Assembler.lean ====
section
/-! DEFINITION. The textual syntax of the commands, one per line (30_encoding.md R79, R80; log 24). -/

namespace Sys2Proof.Machine

/-- Why a line is no command. -/
inductive AsmError where
  /-- no mnemonic of R79, or a word too few or too many for it -/
  | unknownCommand
  /-- the count is no decimal or 0x-prefixed hexadecimal integer -/
  | badNumber
  /-- "A value outside that range is an assembly error, not an encoding" (30_encoding.md R79) -/
  | outOfRange (n : Nat)
  deriving DecidableEq, Repr

/-- The line without its comment: a semicolon begins one (30_encoding.md R79). -/
def stripComment (line : List Char) : List Char := line.takeWhile (· ≠ ';')

/-- A space or a tab. -/
def isBlank (c : Char) : Bool := c == ' ' || c == '\t'

/-- The words of a line: `cur` is the word being read, last character first. -/
def wordsFrom (cur : List Char) : List Char → List (List Char)
  | [] => if cur = [] then [] else [cur.reverse]
  | c :: cs =>
    if isBlank c then (if cur = [] then wordsFrom [] cs else cur.reverse :: wordsFrom [] cs)
    else wordsFrom (c :: cur) cs

/-- The words of a line, separated by blanks. -/
def wordsOf (line : List Char) : List (List Char) := wordsFrom [] line

/-- The value of a digit in a base of at most 16. -/
def digitValue (base : Nat) (c : Char) : Option Nat :=
  let v :=
    if '0' ≤ c ∧ c ≤ '9' then c.toNat - '0'.toNat
    else if 'a' ≤ c ∧ c ≤ 'f' then c.toNat - 'a'.toNat + 10
    else if 'A' ≤ c ∧ c ≤ 'F' then c.toNat - 'A'.toNat + 10
    else 16
  if v < base then some v else none

/-- The number whose digits are the characters, from the high digit down, after `acc`. -/
def digitsValue (base acc : Nat) : List Char → Option Nat
  | [] => some acc
  | c :: cs =>
    match digitValue base c with
    | some d => digitsValue base (acc * base + d) cs
    | none => none

/-- A decimal or 0x-prefixed hexadecimal integer (30_encoding.md R79). -/
def numberValue : List Char → Option Nat
  | '0' :: 'x' :: c :: cs => digitsValue 16 0 (c :: cs)
  | c :: cs => digitsValue 10 0 (c :: cs)
  | [] => none

/-- A command with a byte count (30_encoding.md R79). -/
def withCount (mk : Nat → Instr) (text : List Char) : Except AsmError (Option Instr) :=
  match numberValue text with
  | none => .error .badNumber
  | some n => if lenFits n then .ok (some (mk n)) else .error (.outOfRange n)

/-- One line: a command, or nothing on an empty line (30_encoding.md R79). -/
def assembleLine (line : List Char) : Except AsmError (Option Instr) :=
  match wordsOf (stripComment line) with
  | [] => .ok none
  | [m] =>
    if m = "refill".toList then .ok (some .refill)
    else if m = "read_byte".toList then .ok (some .readByte)
    else if m = "read_stuffed".toList then .ok (some .readStuffed)
    else if m = "unread".toList then .ok (some .unread)
    else if m = "init".toList then .ok (some .init)
    else .error .unknownCommand
  | [m, n] =>
    if m = "read_full".toList then withCount .readFull n
    else if m = "ignore".toList then withCount .ignore n
    else .error .unknownCommand
  | _ => .error .unknownCommand

/-- The character of a hexadecimal digit. -/
def hexChar (d : Nat) : Char := "0123456789abcdef".toList.getD d '0'

/-- A count as a 0x-prefixed integer of `digits` hexadecimal digits. -/
def hexText : (digits : Nat) → Nat → List Char
  | 0, _ => []
  | k + 1, n => hexChar (n / 16 ^ k % 16) :: hexText k n

/-- A line that assembles to the command. -/
def commandText : Instr → List Char
  | .refill => "refill".toList
  | .readByte => "read_byte".toList
  | .readStuffed => "read_stuffed".toList
  | .unread => "unread".toList
  | .readFull n => "read_full 0x".toList ++ hexText 6 n
  | .ignore n => "ignore 0x".toList ++ hexText 6 n
  | .init => "init".toList

/-- The word a line encodes to (30_encoding.md R79). -/
def assembleWord (line : List Char) : Option Word :=
  match assembleLine line with
  | .ok (some i) => some (encode i)
  | _ => none

end Sys2Proof.Machine
end

