-- ==== Sys2Proof/Safety.lean ====
section
/-! DEFINITION. The terms claims are made in: the stream position, the invariants of the machine, when
a port answers, and how a run ends. -/

namespace Sys2Proof.Machine

/-! ## Derived quantities -/

/-- The stream position `P = sp - (j - i)` (10_state.md R28). -/
def streamPos (s : State) : Nat := s.sp - (s.j - s.i)

/-- The state a step or a command answers, if it answers one. -/
def nextState? : Host.Outcome State Fault Refusal → Option State
  | .next s => some s
  | .fault _ => none
  | .refused _ => none

/-- The room the pull of a refill has, right after carry-forward (40_refill.md R104, R106). -/
def refillRoom (s : State) : Nat := s.cfg.bufCap - min s.j 2

/-- The bytes a refill receives when it does not wait (40_refill.md R105). -/
def refillCount (s : State) : Nat :=
  if s.srcEnd then 0 else min (refillRoom s) (s.source.seq.length - s.sp)

/-- A refill's pull ends without a wait: SRC_END is set, or the source has ended, or it has revealed
enough to fill storage (40_refill.md R105). -/
def PullAnswers (s : State) : Prop :=
  s.srcEnd = true ∨ s.source.ended = true ∨ refillRoom s ≤ s.source.seq.length - s.sp

/-- The refills of a command that moves `n` bytes all end without a wait: the source has ended, or it has
revealed those bytes and a storage full beyond them. -/
def SourceAnswers (n : Nat) (s : State) : Prop :=
  s.source.ended = true ∨ streamPos s + n + s.cfg.bufCap ≤ s.source.seq.length

/-- The state right after a refill that left `m` in storage (40_refill.md R103 to R105). -/
def afterRefill (s : State) (m : Memory) : State :=
  { s with
    buf := m
    i := min s.j 2
    j := min s.j 2 + refillCount s
    sp := s.sp + refillCount s
    consumed := s.consumed ++ (s.source.seq.drop s.sp).take (refillCount s)
    srcEnd := s.srcEnd || decide (refillCount s < refillRoom s)
    pullcnt := zext32 (refillCount s) }

/-- What a refill that received `n` bytes leaves in storage: the two bytes below the old boundary at 0
and 1 when there were more than two, the received bytes behind them, and every other byte as it was
(40_refill.md R104, R105). -/
def StoredByRefill (s : State) (n : Nat) (m : Memory) : Prop :=
  (2 < s.j → storageByte m 0 = storageByte s.buf (s.j - 2) ∧ storageByte m 1 = storageByte s.buf (s.j - 1)) ∧
  (∀ k, k < n → s.source.seq[s.sp + k]? = some (storageByte m (min s.j 2 + k))) ∧
  (∀ k, ¬ (2 < s.j ∧ k < 2) → ¬ (min s.j 2 ≤ k ∧ k < min s.j 2 + n) → storageByte m k = storageByte s.buf k)

/-- What the precondition step of READ_FULL and IGNORE leaves (44_read_full_ignore.md R182). -/
def rewound (s : State) : State :=
  if s.u ≠ 0 ∧ 8 ≤ s.accN then
    { s with i := s.i - s.u, u := 0, accN := s.accN - 8, accF1 := s.accF1 / 2 ^ 8, accF2 := s.accF2 / 2 ^ 8 }
  else { s with u := 0 }

/-- The host accepts the next `n` data-out bytes without a wait. -/
def HostAccepts (n : Nat) (s : State) : Prop := ∀ m, s.outReady = some m → n ≤ m

/-- What is left of the host's readiness after `n` bytes. -/
def readyAfter (n : Nat) (ready : Option Nat) : Option Nat := ready.map (· - n)

/-- Two states of possibly different capacity and chunking at the same point of the same stream
(20_memory.md R58). -/
structure SameStream (s t : State) : Prop where
  source : s.source = t.source
  nextSource : s.nextSource = t.nextSource
  pos : streamPos s = streamPos t
  u : s.u = t.u
  accN : s.accN = t.accN
  accF1 : s.accF1 = t.accF1
  accF2 : s.accF2 = t.accF2
  result : s.result = t.result
  xfer : s.xfer = t.xfer
  fault : s.fault = t.fault
  fcode : s.fcode = t.fcode
  finfo : s.finfo = t.finfo
  outReady : s.outReady = t.outReady
  dataOut : s.dataOut = t.dataOut

/-! ## The invariants -/

/-- INV-CUR (10_state.md R27). -/
def CursorInv (s : State) : Prop := s.u ≤ 2 ∧ s.u ≤ s.i ∧ s.i ≤ s.j ∧ s.j ≤ s.cfg.bufCap

/-- Storage is in canonical form and lies inside 0..BUF_CAP-1. -/
def StorageInv (s : State) : Prop := s.buf.wf = true ∧ ∀ c ∈ s.buf, c.1 < s.cfg.bufCap

/-- INV-WR and INV-WIN (10_state.md R27): storage below `j` has been written and is the last `j` bytes
received from the source, in order. -/
def WindowInv (s : State) : Prop :=
  s.j ≤ s.sp ∧ s.sp ≤ s.source.seq.length ∧
    ∀ k, k < s.j → s.buf.read? k = s.source.seq[s.sp - s.j + k]?

/-- SRC_END is the source's `End` (10_state.md R33); what was received this session ends the record of
what was received. -/
def SourceInv (s : State) : Prop :=
  (s.srcEnd = true → s.source.ended = true ∧ s.sp = s.source.seq.length) ∧
    s.source.seq.take s.sp <:+ s.consumed

/-- FCODE and FINFO are 0 while FAULT = 0, and FCODE is 1 to 5 while FAULT = 1 (10_state.md R36, R41,
60_exceptions.md R251). -/
def LatchInv (s : State) : Prop :=
  (s.fault = false → s.fcode = 0 ∧ s.finfo = 0) ∧
    (s.fault = true → 1 ≤ s.fcode.toNat ∧ s.fcode.toNat ≤ 5)

/-- The ranges of PULLCNT and XFER (10_state.md R39, R40). -/
def CountInv (s : State) : Prop := s.pullcnt.toNat ≤ s.cfg.bufCap ∧ s.xfer.toNat < 2 ^ 24

/-- The ranges of the accumulator (10_state.md R30). -/
def AccInv (s : State) : Prop :=
  s.accN ≤ s.cfg.accNMax ∧ s.accF1 < 2 ^ s.cfg.accW ∧ s.accF2 < 2 ^ s.cfg.accW

/-- The invariants of the machine's data, which hold inside a command too. -/
structure DataInv (s : State) : Prop where
  cfg : s.cfg.Valid
  cursor : CursorInv s
  storage : StorageInv s
  window : WindowInv s
  source : SourceInv s
  latch : LatchInv s
  count : CountInv s
  acc : AccInv s

/-- What a command that waits in a pull has left: the bytes READ_FULL or IGNORE owes, or the 0xFF
READ_STUFFED has read (40_refill.md R104, 41_stuffed_reader.md R128). -/
def PullForInv (s : State) : PullFor → Prop
  | .refill => True
  | .readByte => True
  | .stuffedFirst => True
  | .stuffedSecond => s.u = 1
  | .readFull rem => 0 < rem ∧ s.xfer.toNat + rem < 2 ^ 24 ∧ s.u = 0
  | .ignore rem => 0 < rem ∧ s.xfer.toNat + rem < 2 ^ 24 ∧ s.u = 0

/-- A command waits only where its port does not answer: the source is silent and storage has room, or
the host accepts no byte (46_session_control.md R232). -/
def WaitInv (s : State) : Wait → Prop
  | .pull got k =>
    s.i + got = s.j ∧ s.j < s.cfg.bufCap ∧ s.srcEnd = false ∧ s.source.ended = false ∧
      s.sp = s.source.seq.length ∧ PullForInv s k
  | .emit rem count t =>
    t < count ∧ count = min rem (s.j - s.i) ∧ s.xfer.toNat + rem < 2 ^ 24 ∧ s.u = 0 ∧ s.outReady = some 0

/-- The invariant of the machine between steps: the data's, and BUSY = 1 exactly while a command waits,
without a fault (46_session_control.md R231, R232; 60_exceptions.md R254). -/
structure Inv (s : State) : Prop where
  data : DataInv s
  busy : s.busy = s.waiting.isSome
  noFault : s.busy = true → s.fault = false
  wait : ∀ w, s.waiting = some w → WaitInv s w

/-! ## Runs -/

/-- A move by which the host offers a command: an access that reaches CMD (10_state.md R43). -/
def offersCommand (c : Config) : Input → Bool
  | .busWrite addr bytes _ =>
    match busOffset addr bytes c with
    | .ok off => decide (off = 0)
    | .error _ => false
  | .busRead _ _ => false
  | .hostAccept _ => false
  | .sourceBytes _ => false
  | .sourceEnd => false
  | .attach _ => false
  | .accSet _ _ _ => false
  | .reset => false

/-- Where a run starts: the values reset and INIT leave (70_reset_and_hazards.md R284, 10_state.md R47), with any
source, any accumulator, and any bytes delivered and consumed by earlier sessions. -/
def RunStart (s : State) : Prop :=
  Inv s ∧ s.i = 0 ∧ s.j = 0 ∧ s.u = 0 ∧ s.sp = 0 ∧ statusWord s = 0 ∧ s.result = 0 ∧ s.pullcnt = 0 ∧
    s.xfer = 0 ∧ s.finfo = 0

/-- A state where a run ends: BUSY = 0 and the host issues no further command; the other agents may still
have moves pending, a reset too (46_session_control.md R236, log 26). -/
def RunEnded (s : State) : Prop := s.busy = false ∧ ∀ a ∈ s.inputs, offersCommand s.cfg a = false

/-- `t` is a state of the run from `s`: reached by steps none of which starts where the run has ended. -/
inductive RunReaches : State → State → Prop where
  | here (s : State) : RunReaches s s
  | onward {s r t : State} (hs : ¬ RunEnded s) (hr : step s = .next r) (ht : RunReaches r t) : RunReaches s t

/-- The run from `s` ends at `t` (46_session_control.md R236). -/
def RunEndsAt (s t : State) : Prop := RunReaches s t ∧ RunEnded t

/-- A run whose last command faulted (46_session_control.md R236): FAULT = 1 where it ends. -/
def RunFaulted (s : State) : Prop := ∃ t, RunEndsAt s t ∧ t.fault = true

/-- A run whose command waits for ever (46_session_control.md R236): no agent has a move left that could end the wait. -/
def RunWaitsForEver (s : State) : Prop := ∃ t, RunReaches s t ∧ t.busy = true ∧ t.inputs = []

/-- A run that before its end comes to a move the spec puts outside the model (20_memory.md R52, 70_reset_and_hazards.md R291). -/
def RunRefused (s : State) : Prop := ∃ t r, RunReaches s t ∧ ¬ RunEnded t ∧ step t = .refused r

/-- The outcome of a run from `s` that ends at `t`: the final state, the source bytes consumed and the data-out
bytes emitted in the run, those of earlier sessions left out (46_session_control.md R236). -/
def runOutcome (s t : State) : State × List Byte × List Byte :=
  (t, t.consumed.drop s.consumed.length, t.dataOut.drop s.dataOut.length)

end Sys2Proof.Machine
end

