-- ==== Sys2Proof/Certificates/Slice0/Obligations.lean ====
section
/-! DEFINITION. The statements for the provers. Statements about `exec` hold of every state that meets
`DataInv`, which `StepKeepsInvariants` keeps; `exec` runs a command that has been accepted, and
`StepRunsAcceptedCommand` ties it to `step`. A record update `{ s with … }` on the right of an equation
is the frame: every field it does not name is unchanged. -/

open Sys2Proof Sys2Proof.Machine

/-! ## Encoding -/

/-- 30_encoding.md R70 to R75: no operand bit of an encoding is dropped. -/
def Obligations.DecodeOfEncode : Prop :=
  ∀ i : Instr, i.wf = true → decode (encode i) = .ok i

/-- 30_encoding.md R75: every word that decodes is the encoding of what it decodes to. -/
def Obligations.EncodeOfDecode : Prop :=
  ∀ (w : Word) (i : Instr), decode w = .ok i → i.wf = true ∧ encode i = w

/-- 30_encoding.md R75, with the fields as numbers: OP = w mod 16, RSV = w / 16 mod 16, LEN = w / 256. -/
def Obligations.DecodeFollowsOpcodeMap : Prop :=
  ∀ w : Word, (decode w).toOption =
    if w.toNat / 16 % 16 ≠ 0 then none
    else if w.toNat % 16 = 1 ∧ w.toNat / 256 = 0 then some .refill
    else if w.toNat % 16 = 2 ∧ w.toNat / 256 = 0 then some .readByte
    else if w.toNat % 16 = 3 ∧ w.toNat / 256 = 0 then some .readStuffed
    else if w.toNat % 16 = 4 ∧ w.toNat / 256 = 0 then some .unread
    else if w.toNat % 16 = 5 then some (.readFull (w.toNat / 256))
    else if w.toNat % 16 = 6 then some (.ignore (w.toNat / 256))
    else if w.toNat % 16 = 15 ∧ w.toNat / 256 = 0 then some .init
    else none

/-- 95_test_vectors.md section 2: words of every command, and illegal ones. -/
def Obligations.SampleWordsDecode : Prop :=
  decode 0x00000001 = .ok .refill ∧ decode 0x00000002 = .ok .readByte ∧
  decode 0x00000003 = .ok .readStuffed ∧ decode 0x00000004 = .ok .unread ∧
  decode 0x00000305 = .ok (.readFull 3) ∧ decode 0x80000005 = .ok (.readFull 8388608) ∧
  decode 0xFFFFFF06 = .ok (.ignore 16777215) ∧ decode 0x0000000F = .ok .init ∧
  (decode 0x00000000).toOption = none ∧ (decode 0x00000101).toOption = none ∧
  (decode 0x00000013).toOption = none ∧ (decode 0x0000000E).toOption = none

/-- 30_encoding.md R79: every command that has an encoding has a line that assembles to it. -/
def Obligations.AssembleOfText : Prop :=
  ∀ i : Instr, i.wf = true →
    assembleLine (commandText i) = .ok (some i) ∧ assembleWord (commandText i) = some (encode i)

/-! ## Acceptance and the register window -/

/-- 46_session_control.md R231: a write of a command's word to CMD runs the command. -/
def Obligations.StepRunsAcceptedCommand : Prop :=
  ∀ (s : State) (w : Word) (i : Instr) (rest : List Input), s.cfg.Valid →
    s.inputs = .busWrite s.cfg.base 4 w :: rest → s.busy = false → decode w = .ok i →
    (s.fault = false ∨ i = .init) →
    step s = exec i { s with inputs := rest, busy := true }

/-- The same through `withFetchWord` (log 2, log 19). -/
def Obligations.FetchedWordRuns : Prop :=
  ∀ (s : State) (nbits w : Nat) (i : Instr), s.cfg.Valid → s.busy = false → s.fault = false →
    decodeTableWord nbits w = some i →
    step (s.withFetchWord nbits w) = exec i { s with busy := true }

/-- 46_session_control.md R231, 70_reset_and_hazards.md R285: a CMD write while BUSY = 1 is dropped and
sets OVR; the running command is unaffected. -/
def Obligations.BusyDropsCommands : Prop :=
  ∀ (s : State) (w : Word) (rest : List Input), s.cfg.Valid →
    s.inputs = .busWrite s.cfg.base 4 w :: rest → s.busy = true →
    step s = .next { s with inputs := rest, ovr := true }

/-- 46_session_control.md R231, 60_exceptions.md R254: while FAULT = 1 every word but INIT's is dropped
and sets REFUSED. -/
def Obligations.FaultRefusesCommands : Prop :=
  ∀ (s : State) (w : Word) (rest : List Input), s.cfg.Valid →
    s.inputs = .busWrite s.cfg.base 4 w :: rest → s.busy = false → s.fault = true →
    decode w ≠ .ok .init →
    step s = .next { s with inputs := rest, refused := true }

/-- 60_exceptions.md R256: a word that does not decode raises ILLEGAL_COMMAND while FAULT = 0, with the word
in FINFO and no other state changed (BUSY goes to 1 and back, 46_session_control.md R231); while FAULT = 1
it is refused. -/
def Obligations.IllegalWordRaises : Prop :=
  ∀ (s : State) (w : Word) (rest : List Input),
    s.inputs = .busWrite s.cfg.base 4 w :: rest → Inv s → s.busy = false → (decode w).toOption = none →
    (s.fault = false →
      step s = .next { s with inputs := rest, fault := true, fcode := 5, finfo := w }) ∧
    (s.fault = true → step s = .next { s with inputs := rest, refused := true })

/-- 10_state.md R35 to R44: what an aligned 32-bit read answers while BUSY = 0, and that it changes
nothing in the block. (That the answer is appended to `reads` is the model's form, log 13.) -/
def Obligations.RegisterReadsAnswer : Prop :=
  ∀ (s : State) (off : Nat) (rest : List Input), s.cfg.Valid → off % 4 = 0 → off < s.cfg.window →
    s.inputs = .busRead (s.cfg.base + off) 4 :: rest → s.busy = false →
    step s = .next { s with
      inputs := rest
      reads := s.reads ++ [
        if off = 0x04 then statusWord s
        else if off = 0x08 then BitVec.ofNat 32 s.result.toNat
        else if off = 0x0C then BitVec.ofNat 32 s.i
        else if off = 0x10 then BitVec.ofNat 32 s.j
        else if off = 0x14 then BitVec.ofNat 32 s.u
        else if off = 0x18 then s.pullcnt
        else if off = 0x1C then s.xfer
        else if off = 0x20 then s.finfo
        else if off = 0x24 then BitVec.ofNat 32 s.cfg.bufCap
        else 0] }

/-- 10_state.md R48, R44: while BUSY = 1 STATUS is answered, an unlisted offset reads 0, and every other
register reads a value nothing constrains (log 9, log 10); nothing changes in the block. -/
def Obligations.BusyReadsAnswer : Prop :=
  ∀ (s : State) (off : Nat) (rest : List Input), s.cfg.Valid → off % 4 = 0 → off < s.cfg.window →
    s.inputs = .busRead (s.cfg.base + off) 4 :: rest → s.busy = true →
    ∃ v, step s = .next { s with
        inputs := rest
        reads := s.reads ++ [v]
        draws := if off = 0x04 ∨ 0x28 ≤ off then s.draws else s.draws + 1 } ∧
      (off = 0x04 → v = statusWord s ∧ v.toNat % 2 = 1) ∧ (0x28 ≤ off → v = 0)

/-- 10_state.md R36: the fields of STATUS at their places, the reserved bits 0. -/
def Obligations.StatusLayout : Prop :=
  ∀ s : State, (statusWord s).toNat =
    s.busy.toNat + 2 * s.fault.toNat + 4 * s.srcEnd.toNat + 8 * s.ovr.toNat + 16 * s.refused.toNat
      + 256 * s.fcode.toNat

/-- 10_state.md R35, R44: a write to a read-only register or an unlisted offset is ignored. -/
def Obligations.OtherWritesIgnored : Prop :=
  ∀ (s : State) (off : Nat) (w : Word) (rest : List Input), s.cfg.Valid → off % 4 = 0 →
    off < s.cfg.window → off ≠ 0 → s.inputs = .busWrite (s.cfg.base + off) 4 w :: rest →
    step s = .next { s with inputs := rest }

/-- 20_memory.md R52, R53: a register access that is not an aligned 32-bit word is refused. -/
def Obligations.OddAccessesRefused : Prop :=
  ∀ (s : State) (off bytes : Nat) (w : Word) (rest : List Input), s.cfg.Valid → off < s.cfg.window →
    (off % 4 ≠ 0 ∨ bytes ≠ 4) →
    (s.inputs = .busWrite (s.cfg.base + off) bytes w :: rest →
      step s = .refused (.busAccess (s.cfg.base + off) bytes)) ∧
    (s.inputs = .busRead (s.cfg.base + off) bytes :: rest →
      step s = .refused (.busAccess (s.cfg.base + off) bytes))

/-- 10_state.md R30, 70_reset_and_hazards.md R291: the accumulator agent changes its state freely, inside
its ranges, between commands, and has no move while BUSY = 1. -/
def Obligations.AccumulatorMovesBetweenCommands : Prop :=
  ∀ (s : State) (n f1 f2 : Nat) (rest : List Input), s.inputs = .accSet n f1 f2 :: rest →
    (s.busy = true → step s = .refused .accumulatorMove) ∧
    (s.busy = false → n ≤ s.cfg.accNMax → f1 < 2 ^ s.cfg.accW → f2 < 2 ^ s.cfg.accW →
      step s = .next { s with inputs := rest, accN := n, accF1 := f1, accF2 := f2 })

/-! ## REFILL -/

/-- 40_refill.md R101, R103 to R105, R109: REFILL with no unread data, on a source that answers, completes,
whether or not a byte came. Storage is as `StoredByRefill` says. -/
def Obligations.RefillResult : Prop :=
  ∀ s : State, DataInv s → s.i = s.j → PullAnswers s →
    ∃ m, StoredByRefill s (refillCount s) m ∧
      exec .refill s = .next { afterRefill s m with busy := false, waiting := none }

/-- 60_exceptions.md R252: REFILL with unread data raises UNREAD_BYTES before any state change, FINFO =
`j - i`, at least 1, and no other command can raise it, at once or after a wait. -/
def Obligations.OnlyRefillRaisesUnreadBytes : Prop :=
  (∀ s : State, DataInv s → s.i ≠ s.j →
    1 ≤ s.j - s.i ∧
    exec .refill s = .next { s with
      fault := true, fcode := 1, finfo := BitVec.ofNat 32 (s.j - s.i), busy := false, waiting := none }) ∧
  (∀ (s t : State) (i : Instr), s.fcode = 0 → i ≠ .refill → exec i s = .next t → t.fcode ≠ 1) ∧
  (∀ (s t : State), s.fcode = 0 → resume s = .next t → t.fcode ≠ 1)

/-- 40_refill.md R110: a refill keeps the stream position, also one that waits. -/
def Obligations.RefillKeepsStreamPosition : Prop :=
  ∀ s t : State, DataInv s → exec .refill s = .next t → streamPos t = streamPos s

/-- 46_session_control.md R232, 70_reset_and_hazards.md R290: on a silent source REFILL, READ_BYTE and READ_STUFFED
with no unread data take what the source has, and wait with BUSY = 1; so does READ_STUFFED wherever the
bytes it needs are not there, in its second plain read when the 0xFF has been read, with `u = 1`. (The form
of a waiting command is the model's, log 5; READ_FULL and IGNORE are in `TransfersWaitForSource`.) -/
def Obligations.SilentSourceWaits : Prop :=
  (∀ (s : State) (c : Instr) (k : PullFor), DataInv s → s.i = s.j → ¬ PullAnswers s →
    (c, k) ∈ [(Instr.refill, PullFor.refill), (.readByte, .readByte), (.readStuffed, .stuffedFirst)] →
    ∃ m, StoredByRefill s (s.source.seq.length - s.sp) m ∧
      exec c s = .next { s with
        buf := m
        i := min s.j 2
        j := min s.j 2 + (s.source.seq.length - s.sp)
        sp := s.source.seq.length
        consumed := s.consumed ++ s.source.seq.drop s.sp
        busy := true
        waiting := some (.pull (s.source.seq.length - s.sp) k) }) ∧
  (∀ s : State, DataInv s → s.source.ended = false →
    (s.source.seq[streamPos s]? = none ∨
      (s.source.seq[streamPos s]? = some 0xFF ∧ s.source.seq[streamPos s + 1]? = none)) →
    ∃ t n k, exec .readStuffed s = .next t ∧ DataInv t ∧ t.sp = s.source.seq.length ∧
      ((k = .stuffedFirst ∧ streamPos t = streamPos s ∧ t.u = s.u) ∨
        (k = .stuffedSecond ∧ streamPos t = streamPos s + 1 ∧ t.u = 1 ∧
          s.source.seq[streamPos s]? = some 0xFF)) ∧
      (s.i + 1 = s.j → k = .stuffedSecond) ∧
      t = { s with
        busy := true, waiting := some (.pull n k)
        buf := t.buf, i := t.i, j := t.j, u := t.u, sp := t.sp
        consumed := t.consumed, pullcnt := t.pullcnt })

/-! ## READ_BYTE -/

/-- 43_plain_reader.md R161, R162: with unread data READ_BYTE takes the byte at the cursor. -/
def Obligations.ReadByteBuffered : Prop :=
  ∀ s : State, DataInv s → s.i < s.j →
    exec .readByte s = .next { s with
      result := storageByte s.buf s.i, i := s.i + 1, u := 0, busy := false, waiting := none }

/-- 43_plain_reader.md R161, R162, R164: without, it refills first and takes the next source byte. -/
def Obligations.ReadByteRefills : Prop :=
  ∀ s : State, DataInv s → s.i = s.j → PullAnswers s → 0 < refillCount s →
    ∃ m, StoredByRefill s (refillCount s) m ∧
      s.source.seq[s.sp]? = some (storageByte m (min s.j 2)) ∧
      exec .readByte s = .next { afterRefill s m with
        result := storageByte m (min s.j 2), i := min s.j 2 + 1, u := 0, busy := false, waiting := none }

/-- 60_exceptions.md R255, 40_refill.md R108: READ_BYTE and READ_STUFFED raise END_OF_STREAM with FINFO = 1
when the refill receives nothing; what the refill did stays, and `u` and RESULT are not written. -/
def Obligations.ReadsRaiseEndOfStream : Prop :=
  ∀ (s : State) (c : Instr), DataInv s → s.i = s.j → PullAnswers s → refillCount s = 0 →
    (c = .readByte ∨ c = .readStuffed) →
    ∃ m, StoredByRefill s 0 m ∧
      exec c s = .next { afterRefill s m with
        fault := true, fcode := 3, finfo := 1, busy := false, waiting := none }

/-! ## READ_STUFFED -/

/-- 41_stuffed_reader.md R122, R125: the fast path, in its three cases. The third, MISSING_FF00, gives the `i` and `u`
of R125, which 93_implementation_defined.md U3 tells claims about a faulted run not to depend on (log 17). -/
def Obligations.StuffedFastPath : Prop :=
  ∀ s : State, DataInv s → s.i + 2 ≤ s.j →
    exec .readStuffed s =
      if storageByte s.buf s.i ≠ 0xFF then
        .next { s with result := storageByte s.buf s.i, i := s.i + 1, u := 1, busy := false, waiting := none }
      else if storageByte s.buf (s.i + 1) = 0x00 then
        .next { s with result := 0xFF, i := s.i + 2, u := 2, busy := false, waiting := none }
      else
        .next { s with
          fault := true, fcode := 2, finfo := BitVec.ofNat 32 (storageByte s.buf (s.i + 1)).toNat
          i := s.i + 1, u := 1, busy := false, waiting := none }

/-- 41_stuffed_reader.md R123, R127: the last buffered byte, when it is not 0xFF, is read without a refill. -/
def Obligations.StuffedLastByte : Prop :=
  ∀ s : State, DataInv s → s.i + 1 = s.j → storageByte s.buf s.i ≠ 0xFF →
    exec .readStuffed s = .next { s with
      result := storageByte s.buf s.i, i := s.i + 1, u := 1, busy := false, waiting := none }

/-- 41_stuffed_reader.md R128: across a refill the 0xFF is kept at index 1, the 0x00 is read from index 2,
and a later UNREAD sets the cursor to the 0xFF. -/
def Obligations.StuffedAcrossRefill : Prop :=
  ∀ s : State, DataInv s → s.i + 1 = s.j → 2 < s.j → storageByte s.buf s.i = 0xFF → PullAnswers s →
    0 < refillCount s → s.source.seq[s.sp]? = some 0x00 →
    ∃ m t, StoredByRefill s (refillCount s) m ∧ storageByte m 1 = 0xFF ∧ storageByte m 2 = 0x00 ∧
      exec .readStuffed s = .next t ∧
      t = { afterRefill s m with result := 0xFF, i := 3, u := 2, busy := false, waiting := none } ∧
      ∃ r, exec .unread t = .next r ∧ r.i = 1

/-- 41_stuffed_reader.md R121 to R124, R129: on either path, with or without refills, READ_STUFFED returns
the next logical byte of the stream, sets `u` to its raw bytes, and moves the stream position by them. -/
def Obligations.StuffedReadsStream : Prop :=
  ∀ (s : State) (x : Byte), DataInv s → SourceAnswers 2 s → s.source.seq[streamPos s]? = some x →
    (x ≠ 0xFF ∨ s.source.seq[streamPos s + 1]? = some 0x00) →
    ∃ t, exec .readStuffed s = .next t ∧ DataInv t ∧
      streamPos t = streamPos s + (if x = 0xFF then 2 else 1) ∧
      t = { s with
        result := x, u := if x = 0xFF then 2 else 1, busy := false, waiting := none
        buf := t.buf, i := t.i, j := t.j, sp := t.sp
        consumed := t.consumed, srcEnd := t.srcEnd, pullcnt := t.pullcnt }

/-- 41_stuffed_reader.md R125, 60_exceptions.md R253: a raw 0xFF followed by a byte other than 0x00 raises
MISSING_FF00 with that byte in FINFO; on the fast path that byte is not consumed and `u` is 1, on the
fallback path both bytes are consumed and `u` is 0. RESULT is not written. (The cursor and `u` it leaves are
R125's, which 93_implementation_defined.md U3 tells claims about a faulted run not to depend on, log 17.) -/
def Obligations.StuffedMissingZero : Prop :=
  ∀ (s : State) (y : Byte), DataInv s → SourceAnswers 2 s → s.source.seq[streamPos s]? = some 0xFF →
    s.source.seq[streamPos s + 1]? = some y → y ≠ 0x00 →
    ∃ t, exec .readStuffed s = .next t ∧ DataInv t ∧
      streamPos t = streamPos s + (if s.i + 2 ≤ s.j then 1 else 2) ∧
      (s.i + 2 ≤ s.j → t.i = s.i + 1) ∧
      t = { s with
        fault := true, fcode := 2, finfo := BitVec.ofNat 32 y.toNat
        u := if s.i + 2 ≤ s.j then 1 else 0, busy := false, waiting := none
        buf := t.buf, i := t.i, j := t.j, sp := t.sp
        consumed := t.consumed, srcEnd := t.srcEnd, pullcnt := t.pullcnt }

/-- 41_stuffed_reader.md R126: at the end of the source READ_STUFFED raises END_OF_STREAM(1): with no byte
left `u` is unchanged; after a last 0xFF `u` is 1 and the cursor is past it. -/
def Obligations.StuffedEndOfStream : Prop :=
  ∀ s : State, DataInv s → s.source.ended = true →
    (s.source.seq[streamPos s]? = none ∨
      (s.source.seq[streamPos s]? = some 0xFF ∧ s.source.seq[streamPos s + 1]? = none)) →
    ∃ t, exec .readStuffed s = .next t ∧ DataInv t ∧ streamPos t = s.source.seq.length ∧ t.i = t.j ∧
      s.j ≤ s.i + 1 ∧
      t = { s with
        fault := true, fcode := 3, finfo := 1, srcEnd := true, pullcnt := 0
        u := if s.source.seq[streamPos s]? = none then s.u else 1, busy := false, waiting := none
        buf := t.buf, i := t.i, j := t.j, sp := t.sp, consumed := t.consumed }

/-! ## UNREAD -/

/-- 42_unread.md R141, R142: UNREAD gives back `u` bytes whatever `acc.n` is, and shifts the accumulator when
`acc.n >= 8`. Nothing else changes. -/
def Obligations.UnreadResult : Prop :=
  ∀ s : State, s.u ≤ s.i →
    exec .unread s = .next { s with
      i := s.i - s.u
      u := 0
      accN := if 8 ≤ s.accN then s.accN - 8 else s.accN
      accF1 := if 8 ≤ s.accN then s.accF1 / 2 ^ 8 else s.accF1
      accF2 := if 8 ≤ s.accN then s.accF2 / 2 ^ 8 else s.accF2
      busy := false
      waiting := none }

/-- 42_unread.md R143, R146: UNREAD right after a READ_STUFFED that completed restores the stream position,
also across a refill, and the next READ_STUFFED completes with the same byte and the same `u`. -/
def Obligations.UnreadUndoesReadStuffed : Prop :=
  ∀ s t : State, DataInv s → s.fault = false → exec .readStuffed s = .next t → t.busy = false →
    t.fault = false →
    ∃ r q, exec .unread t = .next r ∧ streamPos r = streamPos s ∧ r.u = 0 ∧
      exec .readStuffed r = .next q ∧ q.busy = false ∧ q.fault = false ∧
      q.result = t.result ∧ q.u = t.u ∧ streamPos q = streamPos t

/-! ## READ_FULL and IGNORE -/

/-- 44_read_full_ignore.md R185, R182: READ_FULL 0 raises COPY_EMPTY_DEST after the precondition step; nothing is
emitted and no byte of storage changes. -/
def Obligations.ReadFullZeroFaults : Prop :=
  ∀ s : State, exec (.readFull 0) s = .next { rewound s with
    xfer := 0, fault := true, fcode := 4, finfo := 0, busy := false, waiting := none }

/-- 44_read_full_ignore.md R181, R182, R184, R188: READ_FULL of no more than the unread bytes emits them in
index order, needs no refill, and changes no byte of storage. -/
def Obligations.ReadFullBuffered : Prop :=
  ∀ (s : State) (n : Nat), DataInv s → 0 < n → n < 2 ^ 24 → n ≤ s.j - (rewound s).i → HostAccepts n s →
    exec (.readFull n) s = .next { rewound s with
      i := (rewound s).i + n
      xfer := BitVec.ofNat 32 n
      dataOut := s.dataOut ++ (List.range n).map (fun k => storageByte s.buf ((rewound s).i + k))
      outReady := readyAfter n s.outReady
      busy := false
      waiting := none }

/-- 44_read_full_ignore.md R181, R184, R188: with refills too, READ_FULL delivers exactly the next `n` raw bytes
of the stream, 0xFF and 0x00 included, and XFER is `n`. -/
def Obligations.ReadFullDelivers : Prop :=
  ∀ (s : State) (n : Nat), DataInv s → 0 < n → n < 2 ^ 24 → SourceAnswers n (rewound s) → HostAccepts n s →
    streamPos (rewound s) + n ≤ s.source.seq.length →
    ∃ t, exec (.readFull n) s = .next t ∧ DataInv t ∧ streamPos t = streamPos (rewound s) + n ∧
      t = { rewound s with
        xfer := BitVec.ofNat 32 n
        dataOut := s.dataOut ++ (s.source.seq.drop (streamPos (rewound s))).take n
        outReady := readyAfter n s.outReady
        busy := false, waiting := none
        buf := t.buf, i := t.i, j := t.j, sp := t.sp
        consumed := t.consumed, srcEnd := t.srcEnd, pullcnt := t.pullcnt }

/-- 44_read_full_ignore.md R187: when the source ends first, READ_FULL emits what there is and raises
END_OF_STREAM with the bytes still owed. -/
def Obligations.ReadFullEndOfStream : Prop :=
  ∀ (s : State) (n : Nat), DataInv s → n < 2 ^ 24 → s.source.ended = true → HostAccepts n s →
    s.source.seq.length < streamPos (rewound s) + n →
    ∃ t, exec (.readFull n) s = .next t ∧ DataInv t ∧ streamPos t = s.source.seq.length ∧
      t.i = t.j ∧ t.j ≤ 2 ∧
      t = { rewound s with
        fault := true, fcode := 3
        finfo := BitVec.ofNat 32 (n - (s.source.seq.length - streamPos (rewound s)))
        xfer := BitVec.ofNat 32 (s.source.seq.length - streamPos (rewound s))
        dataOut := s.dataOut ++ s.source.seq.drop (streamPos (rewound s))
        outReady := readyAfter (s.source.seq.length - streamPos (rewound s)) s.outReady
        srcEnd := true, pullcnt := 0, busy := false, waiting := none
        buf := t.buf, i := t.i, j := t.j, sp := t.sp, consumed := t.consumed }

/-- 44_read_full_ignore.md R192, R194, R188: IGNORE of no more than the unread bytes, 0 included, completes
without a refill, emits nothing, and changes no byte of storage. -/
def Obligations.IgnoreBuffered : Prop :=
  ∀ (s : State) (n : Nat), DataInv s → n < 2 ^ 24 → n ≤ s.j - (rewound s).i →
    exec (.ignore n) s = .next { rewound s with
      i := (rewound s).i + n, xfer := BitVec.ofNat 32 n, busy := false, waiting := none }

/-- 44_read_full_ignore.md R192, R194: with refills too, IGNORE moves the stream position by exactly `n`, and
XFER is `n`. -/
def Obligations.IgnoreSkips : Prop :=
  ∀ (s : State) (n : Nat), DataInv s → n < 2 ^ 24 → SourceAnswers n (rewound s) →
    streamPos (rewound s) + n ≤ s.source.seq.length →
    ∃ t, exec (.ignore n) s = .next t ∧ DataInv t ∧ streamPos t = streamPos (rewound s) + n ∧
      t = { rewound s with
        xfer := BitVec.ofNat 32 n, busy := false, waiting := none
        buf := t.buf, i := t.i, j := t.j, sp := t.sp
        consumed := t.consumed, srcEnd := t.srcEnd, pullcnt := t.pullcnt }

/-- 44_read_full_ignore.md R193: when the source ends first, IGNORE raises END_OF_STREAM with the bytes still
owed; nothing is emitted. -/
def Obligations.IgnoreEndOfStream : Prop :=
  ∀ (s : State) (n : Nat), DataInv s → n < 2 ^ 24 → s.source.ended = true →
    s.source.seq.length < streamPos (rewound s) + n →
    ∃ t, exec (.ignore n) s = .next t ∧ DataInv t ∧ streamPos t = s.source.seq.length ∧
      t.i = t.j ∧ t.j ≤ 2 ∧
      t = { rewound s with
        fault := true, fcode := 3
        finfo := BitVec.ofNat 32 (n - (s.source.seq.length - streamPos (rewound s)))
        xfer := BitVec.ofNat 32 (s.source.seq.length - streamPos (rewound s))
        srcEnd := true, pullcnt := 0, busy := false, waiting := none
        buf := t.buf, i := t.i, j := t.j, sp := t.sp, consumed := t.consumed }

/-- 44_read_full_ignore.md R195: READ_FULL `a` then READ_FULL `b` emits the bytes of READ_FULL `a + b` and leaves
the same stream position and `u = 0`; the same for IGNORE, with 0 allowed. If the source ends first,
END_OF_STREAM is raised at the same stream position, after the same bytes, and FINFO is what the command
that faulted still owes. -/
def Obligations.TransfersSplit : Prop :=
  ∀ (s : State) (a b : Nat) (c : Nat → Instr), DataInv s → a + b < 2 ^ 24 →
    ((c = Instr.readFull ∧ 0 < a ∧ 0 < b ∧ HostAccepts (a + b) s) ∨ c = Instr.ignore) →
    (SourceAnswers (a + b) (rewound s) → streamPos (rewound s) + (a + b) ≤ s.source.seq.length →
      ∃ t r q, exec (c a) s = .next t ∧ exec (c b) t = .next r ∧ exec (c (a + b)) s = .next q ∧
        r.dataOut = q.dataOut ∧ streamPos r = streamPos q ∧ r.u = 0 ∧ q.u = 0 ∧ t.busy = false ∧
        t.fault = s.fault ∧ r.fault = s.fault ∧ q.fault = s.fault) ∧
    (s.source.ended = true → s.source.seq.length < streamPos (rewound s) + (a + b) →
      ∃ t q, exec (c a) s = .next t ∧ exec (c (a + b)) s = .next q ∧
        q.fault = true ∧ q.fcode = 3 ∧ streamPos q = s.source.seq.length ∧ q.u = 0 ∧
        q.finfo = BitVec.ofNat 32 (a + b - (s.source.seq.length - streamPos (rewound s))) ∧
        (s.source.seq.length < streamPos (rewound s) + a →
          t.fault = true ∧ t.fcode = 3 ∧ streamPos t = s.source.seq.length ∧ t.u = 0 ∧
          t.finfo = BitVec.ofNat 32 (a - (s.source.seq.length - streamPos (rewound s))) ∧
          t.dataOut = q.dataOut) ∧
        (streamPos (rewound s) + a ≤ s.source.seq.length →
          t.busy = false ∧ t.fault = s.fault ∧
          ∃ r, exec (c b) t = .next r ∧
            r.fault = true ∧ r.fcode = 3 ∧ streamPos r = s.source.seq.length ∧ r.u = 0 ∧
            r.finfo = BitVec.ofNat 32 (b - (s.source.seq.length - (streamPos (rewound s) + a))) ∧
            r.dataOut = q.dataOut))

/-! ## Sessions -/

/-- 46_session_control.md R235: INIT clears the session; storage and the accumulator are not touched. (Which
source the environment attaches is in `AttachedSourceStartsSession`.) -/
def Obligations.InitStartsSession : Prop :=
  ∀ s : State, ∃ t, exec .init s = .next t ∧ t = { s with
    i := 0, j := 0, u := 0, sp := 0
    srcEnd := false, ovr := false, refused := false, fault := false, fcode := 0, finfo := 0
    result := 0, pullcnt := 0, xfer := 0, busy := false, waiting := none
    source := t.source, nextSource := t.nextSource }

/-- 70_reset_and_hazards.md R280, R281: the reset input gives the reset values, abandons a command in progress,
and leaves the accumulator and what has been delivered and consumed. Storage is unspecified. -/
def Obligations.ResetAbandonsCommand : Prop :=
  ∀ (s : State) (rest : List Input), s.inputs = .reset :: rest →
    ∃ t, step s = .next t ∧ t = { s with
      i := 0, j := 0, u := 0, sp := 0
      srcEnd := false, ovr := false, refused := false, fault := false, fcode := 0, finfo := 0
      result := 0, pullcnt := 0, xfer := 0, busy := false, waiting := none
      source := t.source, nextSource := t.nextSource, buf := t.buf, inputs := rest }

/-- The model's form of "the environment attaches the new session's source" (log 4): the source attached last
is the one INIT and the reset input start with. -/
def Obligations.AttachedSourceStartsSession : Prop :=
  ∀ (s : State) (src : Source) (rest : List Input), s.inputs = .attach src :: rest →
    ∃ t, step s = .next t ∧ t = { s with nextSource := src, inputs := rest } ∧
      (∃ r, exec .init t = .next r ∧ r.source = src) ∧
      (∃ r, takeInput .reset t = .next r ∧ r.source = src)

/-- 10_state.md R47: the values after reset, for every capacity, accumulator state and source. -/
def Obligations.ResetValues : Prop :=
  ∀ (c : Config) (n f1 f2 : Nat) (src : Source),
    let s := State.afterReset c n f1 f2 src
    s.i = 0 ∧ s.j = 0 ∧ s.u = 0 ∧ s.sp = 0 ∧ s.source = src ∧ statusWord s = 0 ∧ s.result = 0 ∧
      s.pullcnt = 0 ∧ s.xfer = 0 ∧ s.finfo = 0 ∧ regValue .capr s = BitVec.ofNat 32 c.bufCap ∧
      s.accN = n ∧ s.accF1 = f1 ∧ s.accF2 = f2

/-- 20_memory.md R63: nothing of the old session is left after INIT: two machines that agree on what the other
agents hold have the same registers, cursors, flags and source position after it, whatever their sessions
were, and are at the same point of the same stream. What may differ is the parameters, storage, which no
command reads before writing it, the records of what was consumed and read, and the moves still pending. -/
def Obligations.SessionsAreIndependent : Prop :=
  ∀ s t : State, s.nextSource = t.nextSource → s.accN = t.accN → s.accF1 = t.accF1 → s.accF2 = t.accF2 →
    s.outReady = t.outReady → s.dataOut = t.dataOut →
    ∃ s' t', exec .init s = .next s' ∧ exec .init t = .next t' ∧ SameStream s' t' ∧
      t' = { s' with
        cfg := t.cfg, buf := t.buf, consumed := t.consumed
        reads := t.reads, draws := t.draws, inputs := t.inputs }

/-! ## The copy primitive -/

/-- 45_copy.md R213: the laws of copy; with an empty destination it faults (R211). -/
def Obligations.CopyLaws : Prop :=
  ∀ (α : Type) (dst src : List α),
    (dst = [] → copy dst src = .error .copyEmptyDest) ∧
    (dst ≠ [] → ∃ res count, copy dst src = .ok (res, count) ∧ res.length = dst.length ∧
      count = min dst.length src.length ∧ (∀ k, k < count → res[k]? = src[k]?) ∧
      (∀ k, count ≤ k → k < dst.length → res[k]? = dst[k]?))

/-- 45_copy.md R212: the block form agrees with the copy of lists of those lengths. -/
def Obligations.CopyCountIsCopy : Prop :=
  ∀ (dst src : List Byte) (s : State),
    copyCount dst.length src.length s =
      match copy dst src with
      | .ok (_, count) => .ok count s
      | .error f => raise f 0 s

/-! ## Invariants and whole-machine rules -/

/-- The state 10_state.md R47 gives after reset meets the invariants, 10_state.md R27's among them, for every
valid choice of the OPEN parameters (that `base` is a multiple of 4 is the model's own constraint, log 12), every
accumulator inside its ranges, every source, attached or to come, every readiness of the host and every list
of pending moves. The last clause is about `State.reset`, which is the model's choice of all of these (log 1,
3, 4, 6, 11). -/
def Obligations.ResetMeetsInvariants : Prop :=
  (∀ (c : Config) (n f1 f2 : Nat) (src next : Source) (ready : Option Nat) (moves : List Input),
    c.Valid → n ≤ c.accNMax → f1 < 2 ^ c.accW → f2 < 2 ^ c.accW →
    Inv { State.afterReset c n f1 f2 src with nextSource := next, outReady := ready, inputs := moves }) ∧
  Inv State.reset

/-- 10_state.md R27 (INV-CUR, INV-WR, INV-WIN), R33, R36, R39 to R41, and what a waiting command waits for: every
step from a state that meets the invariants answers a state that meets them. -/
def Obligations.StepKeepsInvariants : Prop :=
  ∀ s t : State, Inv s → step s = .next t → Inv t

/-- 00_scope.md R10, 10_state.md R27: no step from a state that meets the invariants reads or writes a storage
index that does not exist. -/
def Obligations.StepNeverFaults : Prop :=
  ∀ (s : State) (f : Fault), Inv s → step s ≠ .fault f

/-- Every command that has an encoding answers a next state from every state that meets the data invariants:
no data ends a run. -/
def Obligations.EveryCommandAnswers : Prop :=
  ∀ (s : State) (i : Instr), DataInv s → i.wf = true → ∃ t, exec i s = .next t

/-- 10_state.md R42: CAPR, and every other parameter, never changes. -/
def Obligations.ParametersNeverChange : Prop :=
  ∀ s t : State, step s = .next t → t.cfg = s.cfg

/-- 60_exceptions.md R254, R262: a latched fault stays, with its FCODE and FINFO, and the block's data with it, until
INIT or reset. -/
def Obligations.FaultIsSticky : Prop :=
  ∀ (s t : State), Inv s → s.fault = true → step s = .next t →
    (∀ rest, s.inputs ≠ .reset :: rest) →
    (∀ w rest, s.inputs = .busWrite s.cfg.base 4 w :: rest → decode w ≠ .ok .init) →
    t.fault = true ∧ t.fcode = s.fcode ∧ t.finfo = s.finfo ∧ t.busy = false ∧ t.result = s.result ∧
      t.i = s.i ∧ t.j = s.j ∧ t.u = s.u ∧ t.sp = s.sp ∧ t.buf = s.buf ∧ t.dataOut = s.dataOut

/-- 10_state.md R37: only a READ_BYTE or READ_STUFFED that completed without a fault writes RESULT (and INIT
clears it). -/
def Obligations.OnlyCompletedReadsWriteResult : Prop :=
  ∀ (s t : State) (i : Instr), s.fault = false → i ≠ .init → exec i s = .next t →
    (i ≠ .readByte ∧ i ≠ .readStuffed) ∨ t.busy = true ∨ t.fault = true → t.result = s.result

/-- 10_state.md R32, 46_session_control.md R232, R233: when the source's bytes arrive makes no difference. A command that
waited on the source, and goes on when the source delivers or ends, ends as if the source had had it all
from the start. -/
def Obligations.ArrivalMakesNoDifference : Prop :=
  ∀ (s t : State) (i : Instr) (n : Nat) (k : PullFor) (bs : List Byte), DataInv s → i.wf = true →
    exec i s = .next t → t.waiting = some (.pull n k) →
    sourceBytes bs t = exec i { s with source := { s.source with seq := s.source.seq ++ bs } } ∧
    sourceEnd t = exec i { s with source := { s.source with ended := true } }

/-- 20_memory.md R55, 46_session_control.md R232, R233: the same for a host that accepts data-out bytes later. -/
def Obligations.AcceptanceMakesNoDifference : Prop :=
  ∀ (s t : State) (n m r : Nat) (w c p : Nat), DataInv s → n < 2 ^ 24 → s.outReady = some m →
    exec (.readFull n) s = .next t → t.waiting = some (.emit w c p) →
    hostAccept (some r) t = exec (.readFull n) { s with outReady := some (m + r) } ∧
    hostAccept none t = exec (.readFull n) { s with outReady := none }

/-- 20_memory.md R58: on the same stream every command but REFILL gives the same results whatever the capacity and the
chunking were; a MISSING_FF00 fault may leave another `u` and stream position. (REFILL is not covered: it
faults or not by whether unread data stands in storage, log 18.) -/
def Obligations.ChunkingMakesNoDifference : Prop :=
  ∀ (s t : State) (i : Instr), DataInv s → DataInv t → SameStream s t → s.source.ended = true →
    s.outReady = none → i ≠ .refill → i.wf = true →
    ∃ s' t', exec i s = .next s' ∧ exec i t = .next t' ∧
      (SameStream s' t' ∨
        (s'.fault = true ∧ s'.fcode = 2 ∧ t'.fault = true ∧ t'.fcode = 2 ∧ s'.finfo = t'.finfo ∧
          s'.result = t'.result ∧ s'.dataOut = t'.dataOut))

/-- Storage: a read after a write to the same index gives the byte written, a write leaves every other index
alone, and keeps the canonical form (00_scope.md R10). -/
def Obligations.StorageReadAfterWrite : Prop :=
  ∀ (m : Memory) (k : Nat) (v : Byte), m.wf = true →
    (m.write k v).wf = true ∧ storageByte (m.write k v) k = v ∧
      ∀ l, l ≠ k → storageByte (m.write k v) l = storageByte m l

/-! ## Waits of the transfers, and runs -/

/-- 46_session_control.md R232, 70_reset_and_hazards.md R290, 44_read_full_ignore.md R180: on a source that has not ended
READ_FULL, with a host that accepts, and IGNORE move their bytes in order and complete, or wait in a pull
with BUSY = 1, holding what they still owe, once the source has nothing more; where the source is short of
bytes they wait, and neither fault nor complete. -/
def Obligations.TransfersWaitForSource : Prop :=
  ∀ (s : State) (n : Nat), DataInv s → n < 2 ^ 24 → s.source.ended = false →
    (0 < n → HostAccepts n s →
      ∃ t m, exec (.readFull n) s = .next t ∧ DataInv t ∧ m ≤ n ∧ streamPos t = streamPos (rewound s) + m ∧
        (t.busy = false → m = n ∧ t.waiting = none) ∧
        (t.busy = true → m < n ∧ t.sp = s.source.seq.length ∧ t.j < t.cfg.bufCap ∧
          ∃ got, t.waiting = some (.pull got (.readFull (n - m)))) ∧
        (s.source.seq.length < streamPos (rewound s) + n → t.busy = true) ∧
        t = { rewound s with
          xfer := BitVec.ofNat 32 m
          dataOut := s.dataOut ++ (s.source.seq.drop (streamPos (rewound s))).take m
          outReady := readyAfter m s.outReady
          busy := t.busy, waiting := t.waiting
          buf := t.buf, i := t.i, j := t.j, sp := t.sp, consumed := t.consumed, pullcnt := t.pullcnt }) ∧
    (∃ t m, exec (.ignore n) s = .next t ∧ DataInv t ∧ m ≤ n ∧ streamPos t = streamPos (rewound s) + m ∧
        (t.busy = false → m = n ∧ t.waiting = none) ∧
        (t.busy = true → m < n ∧ t.sp = s.source.seq.length ∧ t.j < t.cfg.bufCap ∧
          ∃ got, t.waiting = some (.pull got (.ignore (n - m)))) ∧
        (s.source.seq.length < streamPos (rewound s) + n → t.busy = true) ∧
        t = { rewound s with
          xfer := BitVec.ofNat 32 m
          busy := t.busy, waiting := t.waiting
          buf := t.buf, i := t.i, j := t.j, sp := t.sp, consumed := t.consumed, pullcnt := t.pullcnt })

/-- 20_memory.md R55, 46_session_control.md R232, 70_reset_and_hazards.md R290: READ_FULL on a host that accepts only `m` of
its bytes emits exactly the next `m` raw bytes and waits with BUSY = 1 for the host to accept the next; the
cursor and XFER count the finished rounds. (That acceptance is a count is the model's, log 6.) -/
def Obligations.ReadFullWaitsForHost : Prop :=
  ∀ (s : State) (n m : Nat), DataInv s → n < 2 ^ 24 → s.outReady = some m → m < n →
    SourceAnswers (m + 1) (rewound s) → streamPos (rewound s) + m < s.source.seq.length →
    ∃ t count p, exec (.readFull n) s = .next t ∧ DataInv t ∧ p ≤ m ∧ p < count ∧
      streamPos t = streamPos (rewound s) + (m - p) ∧
      t = { rewound s with
        xfer := BitVec.ofNat 32 (m - p)
        dataOut := s.dataOut ++ (s.source.seq.drop (streamPos (rewound s))).take m
        outReady := some 0
        busy := true, waiting := some (.emit (n - (m - p)) count p)
        buf := t.buf, i := t.i, j := t.j, sp := t.sp
        consumed := t.consumed, srcEnd := t.srcEnd, pullcnt := t.pullcnt }

/-- 46_session_control.md R236: a run ends, at one state, or its command waits for ever, and not both, unless it
comes to a move outside the model; where it ends, what was consumed and delivered is what had been before
the run and the run's outcome behind it. (A run is over the moves that are pending, log 2, log 26.) -/
def Obligations.RunEndsOrWaits : Prop :=
  ∀ s : State, Inv s →
    ((∃ t, RunEndsAt s t) ∨ RunWaitsForEver s ∨ RunRefused s) ∧
    (∀ t r, RunEndsAt s t → RunEndsAt s r → r = t) ∧
    ((∃ t, RunEndsAt s t) → ¬ RunWaitsForEver s ∧ ¬ RunRefused s) ∧
    (∀ t, RunEndsAt s t →
      t.consumed = s.consumed ++ (runOutcome s t).2.1 ∧ t.dataOut = s.dataOut ++ (runOutcome s t).2.2)
end

