-- ==== Sys2Proof/Laws/Memory.lean ====
section
/-! SUPPORT. Storage: read after write, and every operation keeps the canonical form. -/

namespace Sys2Proof.Machine

/-- Every index of the list is at least `n`. -/
def Memory.above (n : Nat) (m : Memory) : Prop := ∀ c ∈ m, n ≤ c.1

theorem Memory.wf_cons (c : Host.Cell) (m : Memory) :
    Memory.wf (c :: m) = true ↔ Memory.wf m = true ∧ Memory.above (c.1 + 1) m := by
  induction m generalizing c with
  | nil => simp [Memory.wf, Memory.above]
  | cons d rest ih =>
    simp only [Memory.wf, Bool.and_eq_true, decide_eq_true_eq]
    constructor
    · rintro ⟨hlt, hw⟩
      refine ⟨hw, fun e he => ?_⟩
      rcases List.mem_cons.1 he with rfl | he
      · exact hlt
      · have := ((ih d).1 hw).2 e he
        omega
    · rintro ⟨hw, ha⟩
      exact ⟨ha d (List.mem_cons_self ..), hw⟩

theorem Memory.mem_write {m : Memory} {k : Nat} {v : Byte} {c : Host.Cell}
    (h : c ∈ m.write k v) : c ∈ m ∨ c = (k, v) := by
  induction m with
  | nil => simpa [Memory.write] using h
  | cons d rest ih =>
    obtain ⟨a, w⟩ := d
    simp only [Memory.write] at h
    split at h
    · rcases List.mem_cons.1 h with h | h
      · exact .inr h
      · exact .inl h
    · split at h
      · rcases List.mem_cons.1 h with h | h
        · exact .inr h
        · exact .inl (List.mem_cons_of_mem _ h)
      · rcases List.mem_cons.1 h with h | h
        · exact .inl (h ▸ List.mem_cons_self ..)
        · rcases ih h with h | h
          · exact .inl (List.mem_cons_of_mem _ h)
          · exact .inr h

/-- A write keeps the canonical form. -/
theorem Memory.write_wf {m : Memory} (h : m.wf = true) (k : Nat) (v : Byte) :
    (m.write k v).wf = true := by
  induction m with
  | nil => rfl
  | cons d rest ih =>
    obtain ⟨a, w⟩ := d
    obtain ⟨hr, ha⟩ := (Memory.wf_cons _ _).1 h
    simp only [Memory.write]
    split
    · rename_i hk
      refine (Memory.wf_cons _ _).2 ⟨h, fun c hc => ?_⟩
      rcases List.mem_cons.1 hc with rfl | hc
      · exact hk
      · have := ha c hc
        simp only at this ⊢
        omega
    · split
      · rename_i hk
        subst hk
        exact (Memory.wf_cons _ _).2 ⟨hr, ha⟩
      · refine (Memory.wf_cons _ _).2 ⟨ih hr, fun c hc => ?_⟩
        rcases Memory.mem_write hc with hc | rfl
        · exact ha c hc
        · simp only
          omega

/-- A read after a write to the same index. -/
@[simp] theorem Memory.read?_write_same (m : Memory) (k : Nat) (v : Byte) :
    (m.write k v).read? k = some v := by
  induction m with
  | nil => simp [Memory.write, Memory.read?]
  | cons d rest ih =>
    obtain ⟨a, w⟩ := d
    simp only [Memory.write]
    split
    · simp [Memory.read?]
    · split
      · simp [Memory.read?]
      · rename_i h
        simp [Memory.read?, h, ih]

/-- A write leaves every other index alone. -/
theorem Memory.read?_write_other (m : Memory) {k l : Nat} (v : Byte) (h : l ≠ k) :
    (m.write k v).read? l = m.read? l := by
  induction m with
  | nil => simp [Memory.write, Memory.read?, Ne.symm h]
  | cons d rest ih =>
    obtain ⟨a, w⟩ := d
    simp only [Memory.write]
    split
    · simp [Memory.read?, Ne.symm h]
    · split
      · rename_i hk
        subst hk
        simp [Memory.read?, Ne.symm h]
      · simp only [Memory.read?, ih]

theorem Memory.read?_write (m : Memory) (k l : Nat) (v : Byte) :
    (m.write k v).read? l = if l = k then some v else m.read? l := by
  split
  · rename_i h
    subst h
    exact Memory.read?_write_same ..
  · rename_i h
    exact Memory.read?_write_other _ _ h

/-- The byte an index holds after a write elsewhere. -/
theorem storageByte_write (m : Memory) (k l : Nat) (v : Byte) :
    storageByte (m.write k v) l = if l = k then v else storageByte m l := by
  simp only [storageByte, Memory.read?_write]
  split <;> rfl

theorem Memory.write_bound {m : Memory} {n k : Nat} {v : Byte}
    (h : ∀ c ∈ m, c.1 < n) (hk : k < n) : ∀ c ∈ m.write k v, c.1 < n := by
  intro c hc
  rcases Memory.mem_write hc with hc | rfl
  · exact h c hc
  · exact hk

theorem storageByte_of_read? {m : Memory} {k : Nat} {v : Byte} (h : m.read? k = some v) :
    storageByte m k = v := by
  simp [storageByte, h]

end Sys2Proof.Machine
end

