-- ==== Sys2Proof/Laws/State.lean ====
section
/-! SUPPORT. The fields of every named update of the state, one lemma per field and update. -/

namespace Sys2Proof.Machine

variable (s : State)

@[simp] theorem latchFault_cfg (f : FaultKind) (v : Word) : (latchFault f v s).cfg = s.cfg := rfl
@[simp] theorem latchFault_buf (f : FaultKind) (v : Word) : (latchFault f v s).buf = s.buf := rfl
@[simp] theorem latchFault_i (f : FaultKind) (v : Word) : (latchFault f v s).i = s.i := rfl
@[simp] theorem latchFault_j (f : FaultKind) (v : Word) : (latchFault f v s).j = s.j := rfl
@[simp] theorem latchFault_u (f : FaultKind) (v : Word) : (latchFault f v s).u = s.u := rfl
@[simp] theorem latchFault_sp (f : FaultKind) (v : Word) : (latchFault f v s).sp = s.sp := rfl
@[simp] theorem latchFault_busy (f : FaultKind) (v : Word) : (latchFault f v s).busy = s.busy := rfl
@[simp] theorem latchFault_fault (f : FaultKind) (v : Word) : (latchFault f v s).fault = true := rfl
@[simp] theorem latchFault_srcEnd (f : FaultKind) (v : Word) : (latchFault f v s).srcEnd = s.srcEnd := rfl
@[simp] theorem latchFault_ovr (f : FaultKind) (v : Word) : (latchFault f v s).ovr = s.ovr := rfl
@[simp] theorem latchFault_refused (f : FaultKind) (v : Word) : (latchFault f v s).refused = s.refused := rfl
@[simp] theorem latchFault_fcode (f : FaultKind) (v : Word) : (latchFault f v s).fcode = faultCode f := rfl
@[simp] theorem latchFault_finfo (f : FaultKind) (v : Word) : (latchFault f v s).finfo = v := rfl
@[simp] theorem latchFault_result (f : FaultKind) (v : Word) : (latchFault f v s).result = s.result := rfl
@[simp] theorem latchFault_pullcnt (f : FaultKind) (v : Word) : (latchFault f v s).pullcnt = s.pullcnt := rfl
@[simp] theorem latchFault_xfer (f : FaultKind) (v : Word) : (latchFault f v s).xfer = s.xfer := rfl
@[simp] theorem latchFault_waiting (f : FaultKind) (v : Word) : (latchFault f v s).waiting = s.waiting := rfl
@[simp] theorem latchFault_accN (f : FaultKind) (v : Word) : (latchFault f v s).accN = s.accN := rfl
@[simp] theorem latchFault_accF1 (f : FaultKind) (v : Word) : (latchFault f v s).accF1 = s.accF1 := rfl
@[simp] theorem latchFault_accF2 (f : FaultKind) (v : Word) : (latchFault f v s).accF2 = s.accF2 := rfl
@[simp] theorem latchFault_source (f : FaultKind) (v : Word) : (latchFault f v s).source = s.source := rfl
@[simp] theorem latchFault_nextSource (f : FaultKind) (v : Word) : (latchFault f v s).nextSource = s.nextSource := rfl
@[simp] theorem latchFault_outReady (f : FaultKind) (v : Word) : (latchFault f v s).outReady = s.outReady := rfl
@[simp] theorem latchFault_dataOut (f : FaultKind) (v : Word) : (latchFault f v s).dataOut = s.dataOut := rfl
@[simp] theorem latchFault_consumed (f : FaultKind) (v : Word) : (latchFault f v s).consumed = s.consumed := rfl
@[simp] theorem latchFault_reads (f : FaultKind) (v : Word) : (latchFault f v s).reads = s.reads := rfl
@[simp] theorem latchFault_draws (f : FaultKind) (v : Word) : (latchFault f v s).draws = s.draws := rfl
@[simp] theorem latchFault_inputs (f : FaultKind) (v : Word) : (latchFault f v s).inputs = s.inputs := rfl

@[simp] theorem setBusy_cfg : (setBusy s).cfg = s.cfg := rfl
@[simp] theorem setBusy_buf : (setBusy s).buf = s.buf := rfl
@[simp] theorem setBusy_i : (setBusy s).i = s.i := rfl
@[simp] theorem setBusy_j : (setBusy s).j = s.j := rfl
@[simp] theorem setBusy_u : (setBusy s).u = s.u := rfl
@[simp] theorem setBusy_sp : (setBusy s).sp = s.sp := rfl
@[simp] theorem setBusy_busy : (setBusy s).busy = true := rfl
@[simp] theorem setBusy_fault : (setBusy s).fault = s.fault := rfl
@[simp] theorem setBusy_srcEnd : (setBusy s).srcEnd = s.srcEnd := rfl
@[simp] theorem setBusy_ovr : (setBusy s).ovr = s.ovr := rfl
@[simp] theorem setBusy_refused : (setBusy s).refused = s.refused := rfl
@[simp] theorem setBusy_fcode : (setBusy s).fcode = s.fcode := rfl
@[simp] theorem setBusy_finfo : (setBusy s).finfo = s.finfo := rfl
@[simp] theorem setBusy_result : (setBusy s).result = s.result := rfl
@[simp] theorem setBusy_pullcnt : (setBusy s).pullcnt = s.pullcnt := rfl
@[simp] theorem setBusy_xfer : (setBusy s).xfer = s.xfer := rfl
@[simp] theorem setBusy_waiting : (setBusy s).waiting = s.waiting := rfl
@[simp] theorem setBusy_accN : (setBusy s).accN = s.accN := rfl
@[simp] theorem setBusy_accF1 : (setBusy s).accF1 = s.accF1 := rfl
@[simp] theorem setBusy_accF2 : (setBusy s).accF2 = s.accF2 := rfl
@[simp] theorem setBusy_source : (setBusy s).source = s.source := rfl
@[simp] theorem setBusy_nextSource : (setBusy s).nextSource = s.nextSource := rfl
@[simp] theorem setBusy_outReady : (setBusy s).outReady = s.outReady := rfl
@[simp] theorem setBusy_dataOut : (setBusy s).dataOut = s.dataOut := rfl
@[simp] theorem setBusy_consumed : (setBusy s).consumed = s.consumed := rfl
@[simp] theorem setBusy_reads : (setBusy s).reads = s.reads := rfl
@[simp] theorem setBusy_draws : (setBusy s).draws = s.draws := rfl
@[simp] theorem setBusy_inputs : (setBusy s).inputs = s.inputs := rfl

@[simp] theorem endCommand_cfg : (endCommand s).cfg = s.cfg := rfl
@[simp] theorem endCommand_buf : (endCommand s).buf = s.buf := rfl
@[simp] theorem endCommand_i : (endCommand s).i = s.i := rfl
@[simp] theorem endCommand_j : (endCommand s).j = s.j := rfl
@[simp] theorem endCommand_u : (endCommand s).u = s.u := rfl
@[simp] theorem endCommand_sp : (endCommand s).sp = s.sp := rfl
@[simp] theorem endCommand_busy : (endCommand s).busy = false := rfl
@[simp] theorem endCommand_fault : (endCommand s).fault = s.fault := rfl
@[simp] theorem endCommand_srcEnd : (endCommand s).srcEnd = s.srcEnd := rfl
@[simp] theorem endCommand_ovr : (endCommand s).ovr = s.ovr := rfl
@[simp] theorem endCommand_refused : (endCommand s).refused = s.refused := rfl
@[simp] theorem endCommand_fcode : (endCommand s).fcode = s.fcode := rfl
@[simp] theorem endCommand_finfo : (endCommand s).finfo = s.finfo := rfl
@[simp] theorem endCommand_result : (endCommand s).result = s.result := rfl
@[simp] theorem endCommand_pullcnt : (endCommand s).pullcnt = s.pullcnt := rfl
@[simp] theorem endCommand_xfer : (endCommand s).xfer = s.xfer := rfl
@[simp] theorem endCommand_waiting : (endCommand s).waiting = none := rfl
@[simp] theorem endCommand_accN : (endCommand s).accN = s.accN := rfl
@[simp] theorem endCommand_accF1 : (endCommand s).accF1 = s.accF1 := rfl
@[simp] theorem endCommand_accF2 : (endCommand s).accF2 = s.accF2 := rfl
@[simp] theorem endCommand_source : (endCommand s).source = s.source := rfl
@[simp] theorem endCommand_nextSource : (endCommand s).nextSource = s.nextSource := rfl
@[simp] theorem endCommand_outReady : (endCommand s).outReady = s.outReady := rfl
@[simp] theorem endCommand_dataOut : (endCommand s).dataOut = s.dataOut := rfl
@[simp] theorem endCommand_consumed : (endCommand s).consumed = s.consumed := rfl
@[simp] theorem endCommand_reads : (endCommand s).reads = s.reads := rfl
@[simp] theorem endCommand_draws : (endCommand s).draws = s.draws := rfl
@[simp] theorem endCommand_inputs : (endCommand s).inputs = s.inputs := rfl

@[simp] theorem park_cfg (w : Wait) : (park w s).cfg = s.cfg := rfl
@[simp] theorem park_buf (w : Wait) : (park w s).buf = s.buf := rfl
@[simp] theorem park_i (w : Wait) : (park w s).i = s.i := rfl
@[simp] theorem park_j (w : Wait) : (park w s).j = s.j := rfl
@[simp] theorem park_u (w : Wait) : (park w s).u = s.u := rfl
@[simp] theorem park_sp (w : Wait) : (park w s).sp = s.sp := rfl
@[simp] theorem park_busy (w : Wait) : (park w s).busy = true := rfl
@[simp] theorem park_fault (w : Wait) : (park w s).fault = s.fault := rfl
@[simp] theorem park_srcEnd (w : Wait) : (park w s).srcEnd = s.srcEnd := rfl
@[simp] theorem park_ovr (w : Wait) : (park w s).ovr = s.ovr := rfl
@[simp] theorem park_refused (w : Wait) : (park w s).refused = s.refused := rfl
@[simp] theorem park_fcode (w : Wait) : (park w s).fcode = s.fcode := rfl
@[simp] theorem park_finfo (w : Wait) : (park w s).finfo = s.finfo := rfl
@[simp] theorem park_result (w : Wait) : (park w s).result = s.result := rfl
@[simp] theorem park_pullcnt (w : Wait) : (park w s).pullcnt = s.pullcnt := rfl
@[simp] theorem park_xfer (w : Wait) : (park w s).xfer = s.xfer := rfl
@[simp] theorem park_waiting (w : Wait) : (park w s).waiting = some w := rfl
@[simp] theorem park_accN (w : Wait) : (park w s).accN = s.accN := rfl
@[simp] theorem park_accF1 (w : Wait) : (park w s).accF1 = s.accF1 := rfl
@[simp] theorem park_accF2 (w : Wait) : (park w s).accF2 = s.accF2 := rfl
@[simp] theorem park_source (w : Wait) : (park w s).source = s.source := rfl
@[simp] theorem park_nextSource (w : Wait) : (park w s).nextSource = s.nextSource := rfl
@[simp] theorem park_outReady (w : Wait) : (park w s).outReady = s.outReady := rfl
@[simp] theorem park_dataOut (w : Wait) : (park w s).dataOut = s.dataOut := rfl
@[simp] theorem park_consumed (w : Wait) : (park w s).consumed = s.consumed := rfl
@[simp] theorem park_reads (w : Wait) : (park w s).reads = s.reads := rfl
@[simp] theorem park_draws (w : Wait) : (park w s).draws = s.draws := rfl
@[simp] theorem park_inputs (w : Wait) : (park w s).inputs = s.inputs := rfl

@[simp] theorem setOvr_cfg : (setOvr s).cfg = s.cfg := rfl
@[simp] theorem setOvr_buf : (setOvr s).buf = s.buf := rfl
@[simp] theorem setOvr_i : (setOvr s).i = s.i := rfl
@[simp] theorem setOvr_j : (setOvr s).j = s.j := rfl
@[simp] theorem setOvr_u : (setOvr s).u = s.u := rfl
@[simp] theorem setOvr_sp : (setOvr s).sp = s.sp := rfl
@[simp] theorem setOvr_busy : (setOvr s).busy = s.busy := rfl
@[simp] theorem setOvr_fault : (setOvr s).fault = s.fault := rfl
@[simp] theorem setOvr_srcEnd : (setOvr s).srcEnd = s.srcEnd := rfl
@[simp] theorem setOvr_ovr : (setOvr s).ovr = true := rfl
@[simp] theorem setOvr_refused : (setOvr s).refused = s.refused := rfl
@[simp] theorem setOvr_fcode : (setOvr s).fcode = s.fcode := rfl
@[simp] theorem setOvr_finfo : (setOvr s).finfo = s.finfo := rfl
@[simp] theorem setOvr_result : (setOvr s).result = s.result := rfl
@[simp] theorem setOvr_pullcnt : (setOvr s).pullcnt = s.pullcnt := rfl
@[simp] theorem setOvr_xfer : (setOvr s).xfer = s.xfer := rfl
@[simp] theorem setOvr_waiting : (setOvr s).waiting = s.waiting := rfl
@[simp] theorem setOvr_accN : (setOvr s).accN = s.accN := rfl
@[simp] theorem setOvr_accF1 : (setOvr s).accF1 = s.accF1 := rfl
@[simp] theorem setOvr_accF2 : (setOvr s).accF2 = s.accF2 := rfl
@[simp] theorem setOvr_source : (setOvr s).source = s.source := rfl
@[simp] theorem setOvr_nextSource : (setOvr s).nextSource = s.nextSource := rfl
@[simp] theorem setOvr_outReady : (setOvr s).outReady = s.outReady := rfl
@[simp] theorem setOvr_dataOut : (setOvr s).dataOut = s.dataOut := rfl
@[simp] theorem setOvr_consumed : (setOvr s).consumed = s.consumed := rfl
@[simp] theorem setOvr_reads : (setOvr s).reads = s.reads := rfl
@[simp] theorem setOvr_draws : (setOvr s).draws = s.draws := rfl
@[simp] theorem setOvr_inputs : (setOvr s).inputs = s.inputs := rfl

@[simp] theorem setRefused_cfg : (setRefused s).cfg = s.cfg := rfl
@[simp] theorem setRefused_buf : (setRefused s).buf = s.buf := rfl
@[simp] theorem setRefused_i : (setRefused s).i = s.i := rfl
@[simp] theorem setRefused_j : (setRefused s).j = s.j := rfl
@[simp] theorem setRefused_u : (setRefused s).u = s.u := rfl
@[simp] theorem setRefused_sp : (setRefused s).sp = s.sp := rfl
@[simp] theorem setRefused_busy : (setRefused s).busy = s.busy := rfl
@[simp] theorem setRefused_fault : (setRefused s).fault = s.fault := rfl
@[simp] theorem setRefused_srcEnd : (setRefused s).srcEnd = s.srcEnd := rfl
@[simp] theorem setRefused_ovr : (setRefused s).ovr = s.ovr := rfl
@[simp] theorem setRefused_refused : (setRefused s).refused = true := rfl
@[simp] theorem setRefused_fcode : (setRefused s).fcode = s.fcode := rfl
@[simp] theorem setRefused_finfo : (setRefused s).finfo = s.finfo := rfl
@[simp] theorem setRefused_result : (setRefused s).result = s.result := rfl
@[simp] theorem setRefused_pullcnt : (setRefused s).pullcnt = s.pullcnt := rfl
@[simp] theorem setRefused_xfer : (setRefused s).xfer = s.xfer := rfl
@[simp] theorem setRefused_waiting : (setRefused s).waiting = s.waiting := rfl
@[simp] theorem setRefused_accN : (setRefused s).accN = s.accN := rfl
@[simp] theorem setRefused_accF1 : (setRefused s).accF1 = s.accF1 := rfl
@[simp] theorem setRefused_accF2 : (setRefused s).accF2 = s.accF2 := rfl
@[simp] theorem setRefused_source : (setRefused s).source = s.source := rfl
@[simp] theorem setRefused_nextSource : (setRefused s).nextSource = s.nextSource := rfl
@[simp] theorem setRefused_outReady : (setRefused s).outReady = s.outReady := rfl
@[simp] theorem setRefused_dataOut : (setRefused s).dataOut = s.dataOut := rfl
@[simp] theorem setRefused_consumed : (setRefused s).consumed = s.consumed := rfl
@[simp] theorem setRefused_reads : (setRefused s).reads = s.reads := rfl
@[simp] theorem setRefused_draws : (setRefused s).draws = s.draws := rfl
@[simp] theorem setRefused_inputs : (setRefused s).inputs = s.inputs := rfl

@[simp] theorem setSrcEnd_cfg : (setSrcEnd s).cfg = s.cfg := rfl
@[simp] theorem setSrcEnd_buf : (setSrcEnd s).buf = s.buf := rfl
@[simp] theorem setSrcEnd_i : (setSrcEnd s).i = s.i := rfl
@[simp] theorem setSrcEnd_j : (setSrcEnd s).j = s.j := rfl
@[simp] theorem setSrcEnd_u : (setSrcEnd s).u = s.u := rfl
@[simp] theorem setSrcEnd_sp : (setSrcEnd s).sp = s.sp := rfl
@[simp] theorem setSrcEnd_busy : (setSrcEnd s).busy = s.busy := rfl
@[simp] theorem setSrcEnd_fault : (setSrcEnd s).fault = s.fault := rfl
@[simp] theorem setSrcEnd_srcEnd : (setSrcEnd s).srcEnd = true := rfl
@[simp] theorem setSrcEnd_ovr : (setSrcEnd s).ovr = s.ovr := rfl
@[simp] theorem setSrcEnd_refused : (setSrcEnd s).refused = s.refused := rfl
@[simp] theorem setSrcEnd_fcode : (setSrcEnd s).fcode = s.fcode := rfl
@[simp] theorem setSrcEnd_finfo : (setSrcEnd s).finfo = s.finfo := rfl
@[simp] theorem setSrcEnd_result : (setSrcEnd s).result = s.result := rfl
@[simp] theorem setSrcEnd_pullcnt : (setSrcEnd s).pullcnt = s.pullcnt := rfl
@[simp] theorem setSrcEnd_xfer : (setSrcEnd s).xfer = s.xfer := rfl
@[simp] theorem setSrcEnd_waiting : (setSrcEnd s).waiting = s.waiting := rfl
@[simp] theorem setSrcEnd_accN : (setSrcEnd s).accN = s.accN := rfl
@[simp] theorem setSrcEnd_accF1 : (setSrcEnd s).accF1 = s.accF1 := rfl
@[simp] theorem setSrcEnd_accF2 : (setSrcEnd s).accF2 = s.accF2 := rfl
@[simp] theorem setSrcEnd_source : (setSrcEnd s).source = s.source := rfl
@[simp] theorem setSrcEnd_nextSource : (setSrcEnd s).nextSource = s.nextSource := rfl
@[simp] theorem setSrcEnd_outReady : (setSrcEnd s).outReady = s.outReady := rfl
@[simp] theorem setSrcEnd_dataOut : (setSrcEnd s).dataOut = s.dataOut := rfl
@[simp] theorem setSrcEnd_consumed : (setSrcEnd s).consumed = s.consumed := rfl
@[simp] theorem setSrcEnd_reads : (setSrcEnd s).reads = s.reads := rfl
@[simp] theorem setSrcEnd_draws : (setSrcEnd s).draws = s.draws := rfl
@[simp] theorem setSrcEnd_inputs : (setSrcEnd s).inputs = s.inputs := rfl

@[simp] theorem accShift8_cfg : (accShift8 s).cfg = s.cfg := rfl
@[simp] theorem accShift8_buf : (accShift8 s).buf = s.buf := rfl
@[simp] theorem accShift8_i : (accShift8 s).i = s.i := rfl
@[simp] theorem accShift8_j : (accShift8 s).j = s.j := rfl
@[simp] theorem accShift8_u : (accShift8 s).u = s.u := rfl
@[simp] theorem accShift8_sp : (accShift8 s).sp = s.sp := rfl
@[simp] theorem accShift8_busy : (accShift8 s).busy = s.busy := rfl
@[simp] theorem accShift8_fault : (accShift8 s).fault = s.fault := rfl
@[simp] theorem accShift8_srcEnd : (accShift8 s).srcEnd = s.srcEnd := rfl
@[simp] theorem accShift8_ovr : (accShift8 s).ovr = s.ovr := rfl
@[simp] theorem accShift8_refused : (accShift8 s).refused = s.refused := rfl
@[simp] theorem accShift8_fcode : (accShift8 s).fcode = s.fcode := rfl
@[simp] theorem accShift8_finfo : (accShift8 s).finfo = s.finfo := rfl
@[simp] theorem accShift8_result : (accShift8 s).result = s.result := rfl
@[simp] theorem accShift8_pullcnt : (accShift8 s).pullcnt = s.pullcnt := rfl
@[simp] theorem accShift8_xfer : (accShift8 s).xfer = s.xfer := rfl
@[simp] theorem accShift8_waiting : (accShift8 s).waiting = s.waiting := rfl
@[simp] theorem accShift8_accN : (accShift8 s).accN = s.accN - 8 := rfl
@[simp] theorem accShift8_accF1 : (accShift8 s).accF1 = s.accF1 >>> 8 := rfl
@[simp] theorem accShift8_accF2 : (accShift8 s).accF2 = s.accF2 >>> 8 := rfl
@[simp] theorem accShift8_source : (accShift8 s).source = s.source := rfl
@[simp] theorem accShift8_nextSource : (accShift8 s).nextSource = s.nextSource := rfl
@[simp] theorem accShift8_outReady : (accShift8 s).outReady = s.outReady := rfl
@[simp] theorem accShift8_dataOut : (accShift8 s).dataOut = s.dataOut := rfl
@[simp] theorem accShift8_consumed : (accShift8 s).consumed = s.consumed := rfl
@[simp] theorem accShift8_reads : (accShift8 s).reads = s.reads := rfl
@[simp] theorem accShift8_draws : (accShift8 s).draws = s.draws := rfl
@[simp] theorem accShift8_inputs : (accShift8 s).inputs = s.inputs := rfl

@[simp] theorem giveBack_cfg : (giveBack s).cfg = s.cfg := rfl
@[simp] theorem giveBack_buf : (giveBack s).buf = s.buf := rfl
@[simp] theorem giveBack_i : (giveBack s).i = s.i - s.u := rfl
@[simp] theorem giveBack_j : (giveBack s).j = s.j := rfl
@[simp] theorem giveBack_u : (giveBack s).u = 0 := rfl
@[simp] theorem giveBack_sp : (giveBack s).sp = s.sp := rfl
@[simp] theorem giveBack_busy : (giveBack s).busy = s.busy := rfl
@[simp] theorem giveBack_fault : (giveBack s).fault = s.fault := rfl
@[simp] theorem giveBack_srcEnd : (giveBack s).srcEnd = s.srcEnd := rfl
@[simp] theorem giveBack_ovr : (giveBack s).ovr = s.ovr := rfl
@[simp] theorem giveBack_refused : (giveBack s).refused = s.refused := rfl
@[simp] theorem giveBack_fcode : (giveBack s).fcode = s.fcode := rfl
@[simp] theorem giveBack_finfo : (giveBack s).finfo = s.finfo := rfl
@[simp] theorem giveBack_result : (giveBack s).result = s.result := rfl
@[simp] theorem giveBack_pullcnt : (giveBack s).pullcnt = s.pullcnt := rfl
@[simp] theorem giveBack_xfer : (giveBack s).xfer = s.xfer := rfl
@[simp] theorem giveBack_waiting : (giveBack s).waiting = s.waiting := rfl
@[simp] theorem giveBack_accN : (giveBack s).accN = s.accN := rfl
@[simp] theorem giveBack_accF1 : (giveBack s).accF1 = s.accF1 := rfl
@[simp] theorem giveBack_accF2 : (giveBack s).accF2 = s.accF2 := rfl
@[simp] theorem giveBack_source : (giveBack s).source = s.source := rfl
@[simp] theorem giveBack_nextSource : (giveBack s).nextSource = s.nextSource := rfl
@[simp] theorem giveBack_outReady : (giveBack s).outReady = s.outReady := rfl
@[simp] theorem giveBack_dataOut : (giveBack s).dataOut = s.dataOut := rfl
@[simp] theorem giveBack_consumed : (giveBack s).consumed = s.consumed := rfl
@[simp] theorem giveBack_reads : (giveBack s).reads = s.reads := rfl
@[simp] theorem giveBack_draws : (giveBack s).draws = s.draws := rfl
@[simp] theorem giveBack_inputs : (giveBack s).inputs = s.inputs := rfl

@[simp] theorem advance_cfg (n : Nat) : (advance n s).cfg = s.cfg := rfl
@[simp] theorem advance_buf (n : Nat) : (advance n s).buf = s.buf := rfl
@[simp] theorem advance_i (n : Nat) : (advance n s).i = s.i + n := rfl
@[simp] theorem advance_j (n : Nat) : (advance n s).j = s.j := rfl
@[simp] theorem advance_u (n : Nat) : (advance n s).u = s.u := rfl
@[simp] theorem advance_sp (n : Nat) : (advance n s).sp = s.sp := rfl
@[simp] theorem advance_busy (n : Nat) : (advance n s).busy = s.busy := rfl
@[simp] theorem advance_fault (n : Nat) : (advance n s).fault = s.fault := rfl
@[simp] theorem advance_srcEnd (n : Nat) : (advance n s).srcEnd = s.srcEnd := rfl
@[simp] theorem advance_ovr (n : Nat) : (advance n s).ovr = s.ovr := rfl
@[simp] theorem advance_refused (n : Nat) : (advance n s).refused = s.refused := rfl
@[simp] theorem advance_fcode (n : Nat) : (advance n s).fcode = s.fcode := rfl
@[simp] theorem advance_finfo (n : Nat) : (advance n s).finfo = s.finfo := rfl
@[simp] theorem advance_result (n : Nat) : (advance n s).result = s.result := rfl
@[simp] theorem advance_pullcnt (n : Nat) : (advance n s).pullcnt = s.pullcnt := rfl
@[simp] theorem advance_xfer (n : Nat) : (advance n s).xfer = s.xfer + zext32 n := rfl
@[simp] theorem advance_waiting (n : Nat) : (advance n s).waiting = s.waiting := rfl
@[simp] theorem advance_accN (n : Nat) : (advance n s).accN = s.accN := rfl
@[simp] theorem advance_accF1 (n : Nat) : (advance n s).accF1 = s.accF1 := rfl
@[simp] theorem advance_accF2 (n : Nat) : (advance n s).accF2 = s.accF2 := rfl
@[simp] theorem advance_source (n : Nat) : (advance n s).source = s.source := rfl
@[simp] theorem advance_nextSource (n : Nat) : (advance n s).nextSource = s.nextSource := rfl
@[simp] theorem advance_outReady (n : Nat) : (advance n s).outReady = s.outReady := rfl
@[simp] theorem advance_dataOut (n : Nat) : (advance n s).dataOut = s.dataOut := rfl
@[simp] theorem advance_consumed (n : Nat) : (advance n s).consumed = s.consumed := rfl
@[simp] theorem advance_reads (n : Nat) : (advance n s).reads = s.reads := rfl
@[simp] theorem advance_draws (n : Nat) : (advance n s).draws = s.draws := rfl
@[simp] theorem advance_inputs (n : Nat) : (advance n s).inputs = s.inputs := rfl

@[simp] theorem attachNext_cfg : (attachNext s).cfg = s.cfg := rfl
@[simp] theorem attachNext_buf : (attachNext s).buf = s.buf := rfl
@[simp] theorem attachNext_i : (attachNext s).i = s.i := rfl
@[simp] theorem attachNext_j : (attachNext s).j = s.j := rfl
@[simp] theorem attachNext_u : (attachNext s).u = s.u := rfl
@[simp] theorem attachNext_sp : (attachNext s).sp = s.sp := rfl
@[simp] theorem attachNext_busy : (attachNext s).busy = s.busy := rfl
@[simp] theorem attachNext_fault : (attachNext s).fault = s.fault := rfl
@[simp] theorem attachNext_srcEnd : (attachNext s).srcEnd = s.srcEnd := rfl
@[simp] theorem attachNext_ovr : (attachNext s).ovr = s.ovr := rfl
@[simp] theorem attachNext_refused : (attachNext s).refused = s.refused := rfl
@[simp] theorem attachNext_fcode : (attachNext s).fcode = s.fcode := rfl
@[simp] theorem attachNext_finfo : (attachNext s).finfo = s.finfo := rfl
@[simp] theorem attachNext_result : (attachNext s).result = s.result := rfl
@[simp] theorem attachNext_pullcnt : (attachNext s).pullcnt = s.pullcnt := rfl
@[simp] theorem attachNext_xfer : (attachNext s).xfer = s.xfer := rfl
@[simp] theorem attachNext_waiting : (attachNext s).waiting = s.waiting := rfl
@[simp] theorem attachNext_accN : (attachNext s).accN = s.accN := rfl
@[simp] theorem attachNext_accF1 : (attachNext s).accF1 = s.accF1 := rfl
@[simp] theorem attachNext_accF2 : (attachNext s).accF2 = s.accF2 := rfl
@[simp] theorem attachNext_source : (attachNext s).source = s.nextSource := rfl
@[simp] theorem attachNext_nextSource : (attachNext s).nextSource = .fresh := rfl
@[simp] theorem attachNext_outReady : (attachNext s).outReady = s.outReady := rfl
@[simp] theorem attachNext_dataOut : (attachNext s).dataOut = s.dataOut := rfl
@[simp] theorem attachNext_consumed : (attachNext s).consumed = s.consumed := rfl
@[simp] theorem attachNext_reads : (attachNext s).reads = s.reads := rfl
@[simp] theorem attachNext_draws : (attachNext s).draws = s.draws := rfl
@[simp] theorem attachNext_inputs : (attachNext s).inputs = s.inputs := rfl

@[simp] theorem clearSession_cfg : (clearSession s).cfg = s.cfg := rfl
@[simp] theorem clearSession_buf : (clearSession s).buf = s.buf := rfl
@[simp] theorem clearSession_i : (clearSession s).i = 0 := rfl
@[simp] theorem clearSession_j : (clearSession s).j = 0 := rfl
@[simp] theorem clearSession_u : (clearSession s).u = 0 := rfl
@[simp] theorem clearSession_sp : (clearSession s).sp = 0 := rfl
@[simp] theorem clearSession_busy : (clearSession s).busy = s.busy := rfl
@[simp] theorem clearSession_fault : (clearSession s).fault = false := rfl
@[simp] theorem clearSession_srcEnd : (clearSession s).srcEnd = false := rfl
@[simp] theorem clearSession_ovr : (clearSession s).ovr = false := rfl
@[simp] theorem clearSession_refused : (clearSession s).refused = false := rfl
@[simp] theorem clearSession_fcode : (clearSession s).fcode = 0 := rfl
@[simp] theorem clearSession_finfo : (clearSession s).finfo = 0 := rfl
@[simp] theorem clearSession_result : (clearSession s).result = 0 := rfl
@[simp] theorem clearSession_pullcnt : (clearSession s).pullcnt = 0 := rfl
@[simp] theorem clearSession_xfer : (clearSession s).xfer = 0 := rfl
@[simp] theorem clearSession_waiting : (clearSession s).waiting = s.waiting := rfl
@[simp] theorem clearSession_accN : (clearSession s).accN = s.accN := rfl
@[simp] theorem clearSession_accF1 : (clearSession s).accF1 = s.accF1 := rfl
@[simp] theorem clearSession_accF2 : (clearSession s).accF2 = s.accF2 := rfl
@[simp] theorem clearSession_source : (clearSession s).source = s.source := rfl
@[simp] theorem clearSession_nextSource : (clearSession s).nextSource = s.nextSource := rfl
@[simp] theorem clearSession_outReady : (clearSession s).outReady = s.outReady := rfl
@[simp] theorem clearSession_dataOut : (clearSession s).dataOut = s.dataOut := rfl
@[simp] theorem clearSession_consumed : (clearSession s).consumed = s.consumed := rfl
@[simp] theorem clearSession_reads : (clearSession s).reads = s.reads := rfl
@[simp] theorem clearSession_draws : (clearSession s).draws = s.draws := rfl
@[simp] theorem clearSession_inputs : (clearSession s).inputs = s.inputs := rfl

end Sys2Proof.Machine
end

