-- ==== Sys2Proof/Laws/Ops.lean ====
section
/-! SUPPORT. Sequencing and the port operations: what each can do, said once. -/

namespace Sys2Proof.Machine

@[simp] theorem Res.ok_bind {α β : Type} (a : α) (s : State) (f : α → State → Res β) :
    (Res.ok a s).bind f = f a s := rfl

@[simp] theorem Res.stop_bind {α β : Type} (w : Stop) (s : State) (f : α → State → Res β) :
    (Res.stop w s : Res α).bind f = .stop w s := rfl

theorem Res.bind_assoc {α β γ : Type} (r : Res α) (f : α → State → Res β) (g : β → State → Res γ) :
    (r.bind f).bind g = r.bind fun a s => (f a s).bind g := by
  cases r <;> rfl

/-- If a sequence goes on, both parts did. -/
theorem Res.bind_eq_ok {α β : Type} {r : Res α} {f : α → State → Res β} {b : β} {t : State}
    (h : r.bind f = .ok b t) : ∃ a s, r = .ok a s ∧ f a s = .ok b t := by
  cases r with
  | ok a s => exact ⟨a, s, rfl, h⟩
  | stop w s => exact absurd h (by simp)

/-- What holds of a result: `P` where it goes on, `Q` where it stops. -/
def Res.Sat {α : Type} (r : Res α) (P : α → State → Prop) (Q : Stop → State → Prop) : Prop :=
  match r with
  | .ok a s => P a s
  | .stop w s => Q w s

@[simp] theorem Res.ok_sat {α : Type} (a : α) (s : State) (P : α → State → Prop) (Q : Stop → State → Prop) :
    (Res.ok a s).Sat P Q ↔ P a s := Iff.rfl

@[simp] theorem Res.stop_sat {α : Type} (w : Stop) (s : State) (P : α → State → Prop) (Q : Stop → State → Prop) :
    (Res.stop w s : Res α).Sat P Q ↔ Q w s := Iff.rfl

/-- The rule of sequencing. -/
theorem Res.Sat.bind {α β : Type} {r : Res α} {f : α → State → Res β} {P : α → State → Prop}
    {P' : β → State → Prop} {Q : Stop → State → Prop} (h : r.Sat P Q)
    (hf : ∀ a s, P a s → (f a s).Sat P' Q) : (r.bind f).Sat P' Q := by
  cases r with
  | ok a s => exact hf a s h
  | stop w s => exact h

theorem Res.Sat.mono {α : Type} {r : Res α} {P P' : α → State → Prop} {Q Q' : Stop → State → Prop}
    (h : r.Sat P Q) (hp : ∀ a s, P a s → P' a s) (hq : ∀ w s, Q w s → Q' w s) : r.Sat P' Q' := by
  cases r with
  | ok a s => exact hp a s h
  | stop w s => exact hq w s h

@[simp] theorem finish_ok (s : State) : finish (.ok () s) = .next (endCommand s) := rfl

@[simp] theorem finish_raised (s : State) : finish (.stop .raised s) = .next (endCommand s) := rfl

@[simp] theorem finish_waits (w : Wait) (s : State) : finish (.stop (.waits w) s) = .next (park w s) := rfl

@[simp] theorem finish_fault (f : Fault) (s : State) : finish (.stop (.fault f) s) = .fault f := rfl

@[simp] theorem finish_raise (f : FaultKind) (v : Word) (s : State) :
    finish (raise f v s) = .next (endCommand (latchFault f v s)) := rfl

@[simp] theorem raise_bind {α β : Type} (f : FaultKind) (v : Word) (s : State) (g : α → State → Res β) :
    (raise f v s : Res α).bind g = raise f v s := rfl

theorem raise_eq {α : Type} (f : FaultKind) (v : Word) (s : State) :
    (raise f v s : Res α) = .stop .raised (latchFault f v s) := rfl

/-- Reading an index that exists. -/
theorem memRead_of_lt {k : Nat} {s : State} (h : k < s.cfg.bufCap) :
    memRead k s = .ok (storageByte s.buf k) s := by
  simp [memRead, h]

/-- Reading an index that has been written. -/
theorem memRead_of_read? {k : Nat} {s : State} {v : Byte} (h : k < s.cfg.bufCap)
    (hv : s.buf.read? k = some v) : memRead k s = .ok v s := by
  rw [memRead_of_lt h, storageByte_of_read? hv]

/-- Reading an index that does not exist. -/
theorem memRead_of_ge {k : Nat} {s : State} (h : s.cfg.bufCap ≤ k) :
    memRead k s = .stop (.fault (.storageIndex k)) s := by
  simp [memRead, Nat.not_lt.2 h]

/-- Writing an index that exists. -/
theorem memWrite_of_lt {k : Nat} {v : Byte} {s : State} (h : k < s.cfg.bufCap) :
    memWrite k v s = .ok () { s with buf := s.buf.write k v } := by
  simp [memWrite, h]

/-- The source has a byte. -/
theorem srcPull_byte {s : State} (h : s.sp < s.source.seq.length) :
    srcPull s = .byte s.source.seq[s.sp]
      { s with sp := s.sp + 1, consumed := s.consumed ++ [s.source.seq[s.sp]] } := by
  simp [srcPull, h]

/-- The source has none. -/
theorem srcPull_none {s : State} (h : s.source.seq.length ≤ s.sp) :
    srcPull s = if s.source.ended then .ended else .silent := by
  simp [srcPull, h]

@[simp] theorem zext32_toNat {n : Nat} (h : n < 2 ^ 32) : (zext32 n).toNat = n := by
  rw [zext32, BitVec.toNat_ofNat, Nat.mod_eq_of_lt h]

end Sys2Proof.Machine
end

