-- ==== Sys2Proof/Laws/Acceptance.lean ====
section
/-! SUPPORT. What a step can do, said once: from the move taken to the command that runs. -/

namespace Sys2Proof.Machine

/-- An aligned 32-bit access inside the window reaches its offset. -/
theorem busOffset_ok {c : Config} {off : Nat} (hv : c.Valid) (h4 : off % 4 = 0) (hw : off < c.window) :
    busOffset (c.base + off) 4 c = .ok off := by
  obtain ⟨-, -, -, -, hb⟩ := hv
  unfold busOffset
  rw [if_neg (by omega), if_pos ⟨rfl, by omega⟩, Nat.add_sub_cancel_left]

/-- A write at CMD's address offers the word. -/
theorem busWrite_cmd {s : State} (hv : s.cfg.Valid) (w : Word) : busWrite s.cfg.base 4 w s = offer w s := by
  have h := busOffset_ok (off := 0) hv rfl (Nat.lt_of_lt_of_le (by decide) hv.2.2.2.1)
  rw [Nat.add_zero] at h
  rw [busWrite, h]
  rfl

/-- A step takes the oldest move, if there is one. -/
theorem step_cases {s t : State} (h : step s = .next t) :
    (s.inputs = [] ∧ t = s) ∨
    ∃ a rest, s.inputs = a :: rest ∧ takeInput a { s with inputs := rest } = .next t := by
  unfold step at h
  split at h
  · rename_i hi
    exact .inl ⟨hi, by injection h with h; exact h.symm⟩
  · rename_i a rest hi
    exact .inr ⟨a, rest, hi, h⟩

/-- A host write is ignored, or offers its word to CMD. -/
theorem busWrite_cases {s t : State} {addr bytes : Nat} {w : Word} (h : busWrite addr bytes w s = .next t) :
    t = s ∨ (busOffset addr bytes s.cfg = .ok 0 ∧ offer w s = .next t) := by
  unfold busWrite at h
  split at h
  · contradiction
  · rename_i off ho
    split at h
    · rename_i hc
      have h0 : off = 0 := by
        unfold regAt at hc
        split at hc <;> first | rfl | (injection hc with hc; contradiction) | contradiction
      exact .inr ⟨h0 ▸ ho, h⟩
    · exact .inl (by injection h with h; exact h.symm)

/-- The acceptance rule (46_session_control.md R231): dropped, refused, or accepted. -/
theorem offer_cases {s t : State} {w : Word} (h : offer w s = .next t) :
    (s.busy = true ∧ t = setOvr s) ∨
    (s.busy = false ∧ s.fault = true ∧ isInit w = false ∧ t = setRefused s) ∨
    (s.busy = false ∧ (s.fault = true → isInit w = true) ∧ accept w s = .next t) := by
  unfold offer at h
  split at h
  · rename_i hb
    exact .inl ⟨hb, by injection h with h; exact h.symm⟩
  · rename_i hb
    have hb : s.busy = false := by simpa using hb
    split at h
    · rename_i hf
      exact .inr (.inl ⟨hb, hf.1, hf.2, by injection h with h; exact h.symm⟩)
    · rename_i hf
      exact .inr (.inr ⟨hb, fun hft => by simpa using fun hi => hf ⟨hft, hi⟩, h⟩)

/-- An accepted word is illegal, or its command runs. -/
theorem accept_cases {s t : State} {w : Word} (h : accept w s = .next t) :
    ((∃ e, decode w = .error e) ∧ t = endCommand (latchFault .illegalCommand w (setBusy s))) ∨
    ∃ i, decode w = .ok i ∧ exec i (setBusy s) = .next t := by
  unfold accept at h
  split at h
  · rename_i e he
    exact .inl ⟨⟨e, he⟩, by injection h with h; exact h.symm⟩
  · rename_i i hi
    exact .inr ⟨i, hi, h⟩

/-- Whether a word is INIT's. -/
theorem isInit_iff (w : Word) : isInit w = true ↔ decode w = .ok .init := by
  unfold isInit
  split
  · rename_i h
    simp [h]
  · rename_i h
    simpa using h

/-- A command that goes on does what its rest does (46_session_control.md R232). -/
theorem resume_cases {s t : State} (h : resume s = .next t) :
    (s.waiting = none ∧ t = s) ∨ ∃ w, s.waiting = some w ∧ finish (continueFrom w s) = .next t := by
  unfold resume at h
  split at h
  · rename_i hw
    exact .inl ⟨hw, by injection h with h; exact h.symm⟩
  · rename_i w hw
    exact .inr ⟨w, hw, h⟩

/-- How a command's end becomes a next state. -/
theorem finish_cases {r : Res Unit} {t : State} (h : finish r = .next t) :
    (∃ s, r = .ok () s ∧ t = endCommand s) ∨ (∃ s, r = .stop .raised s ∧ t = endCommand s) ∨
    ∃ w s, r = .stop (.waits w) s ∧ t = park w s := by
  match r, h with
  | .ok _ s, h => exact .inl ⟨s, rfl, by injection h with h; exact h.symm⟩
  | .stop .raised s, h => exact .inr (.inl ⟨s, rfl, by injection h with h; exact h.symm⟩)
  | .stop (.waits w) s, h => exact .inr (.inr ⟨w, s, rfl, by injection h with h; exact h.symm⟩)

end Sys2Proof.Machine
end

