-- ==== Sys2Proof/Laws/Refill.lean ====
section
/-! SUPPORT. Pull and refill in closed form: one equation each, which later proofs cite. -/

namespace Sys2Proof.Machine

/-! ## Writing a run of bytes -/

/-- The writes of bytes at `k`, `k + 1`, … in order. -/
def Memory.writeAll (m : Memory) (k : Nat) : List Byte → Memory
  | [] => m
  | v :: bs => Memory.writeAll (m.write k v) (k + 1) bs

theorem Memory.writeAll_wf {m : Memory} (h : m.wf = true) (k : Nat) (bs : List Byte) :
    (m.writeAll k bs).wf = true := by
  induction bs generalizing m k with
  | nil => exact h
  | cons v bs ih => exact ih (Memory.write_wf h k v) (k + 1)

theorem Memory.writeAll_bound {m : Memory} {n k : Nat} {bs : List Byte}
    (h : ∀ c ∈ m, c.1 < n) (hk : k + bs.length ≤ n) : ∀ c ∈ m.writeAll k bs, c.1 < n := by
  induction bs generalizing m k with
  | nil => exact h
  | cons v bs ih =>
    simp only [List.length_cons] at hk
    exact ih (Memory.write_bound h (by omega)) (by omega)

/-- Below and beyond the run nothing changes. -/
theorem Memory.read?_writeAll_other (m : Memory) (k l : Nat) (bs : List Byte)
    (h : l < k ∨ k + bs.length ≤ l) : (m.writeAll k bs).read? l = m.read? l := by
  induction bs generalizing m k with
  | nil => rfl
  | cons v bs ih =>
    simp only [List.length_cons] at h
    rw [Memory.writeAll, ih _ _ (by omega), Memory.read?_write_other _ _ (by omega)]

/-- Inside the run its bytes stand in order. -/
theorem Memory.read?_writeAll_run (m : Memory) (k l : Nat) (bs : List Byte) (h : l < bs.length) :
    (m.writeAll k bs).read? (k + l) = bs[l]? := by
  induction bs generalizing m k l with
  | nil => simp at h
  | cons v bs ih =>
    simp only [List.length_cons] at h
    cases l with
    | zero => rw [Memory.writeAll, Memory.read?_writeAll_other _ _ _ _ (by omega)]; simp
    | succ l =>
      rw [Memory.writeAll, show k + (l + 1) = k + 1 + l by omega, ih _ _ _ (by omega)]
      simp

/-! ## Pull -/

/-- The bytes a pull with this room can receive from what the source has revealed. -/
def receivable (room : Nat) (s : State) : List Byte := (s.source.seq.drop s.sp).take room

theorem receivable_length (room : Nat) (s : State) :
    (receivable room s).length = min room (s.source.seq.length - s.sp) := by
  simp [receivable]

theorem receivable_getElem? {room l : Nat} {s : State} (h : l < room) :
    (receivable room s)[l]? = s.source.seq[s.sp + l]? := by
  simp [receivable, h]

/-- Storage, boundary and source after these bytes have been received. -/
def appendBytes (bs : List Byte) (s : State) : State :=
  { s with
    buf := s.buf.writeAll s.j bs
    j := s.j + bs.length
    sp := s.sp + bs.length
    consumed := s.consumed ++ bs }

@[simp] theorem appendBytes_nil (s : State) : appendBytes [] s = s := by
  simp [appendBytes, Memory.writeAll]

/-- The state after one received byte has been stored. -/
def afterByte (s : State) (v : Byte) : State :=
  { s with buf := s.buf.write s.j v, j := s.j + 1, sp := s.sp + 1, consumed := s.consumed ++ [v] }

theorem pullStep_eq {s : State} (h : s.sp < s.source.seq.length) :
    { s with sp := s.sp + 1, consumed := s.consumed ++ [s.source.seq[s.sp]],
             buf := s.buf.write s.j s.source.seq[s.sp], j := s.j + 1 } = afterByte s s.source.seq[s.sp] := rfl

theorem appendBytes_cons (s : State) (v : Byte) (bs : List Byte) :
    appendBytes bs (afterByte s v) = appendBytes (v :: bs) s := by
  simp [appendBytes, afterByte, Memory.writeAll, Nat.add_assoc, Nat.add_comm 1]

theorem receivable_succ {room : Nat} {s : State} (h : s.sp < s.source.seq.length) :
    receivable (room + 1) s = s.source.seq[s.sp] :: receivable room (afterByte s s.source.seq[s.sp]) := by
  rw [receivable, List.drop_eq_getElem_cons h, List.take_succ_cons]
  rfl

/-- `Pull()` in closed form (40_refill.md R105). -/
theorem pullLoop_eq (room got : Nat) (k : PullFor) (s : State) (h : s.j + room ≤ s.cfg.bufCap) :
    pullLoop room got k s =
      if s.srcEnd then pullDone got s
      else if (receivable room s).length = room then
        pullDone (got + room) (appendBytes (receivable room s) s)
      else if s.source.ended then
        pullDone (got + (receivable room s).length) (setSrcEnd (appendBytes (receivable room s) s))
      else .stop (.waits (.pull (got + (receivable room s).length) k)) (appendBytes (receivable room s) s) := by
  induction room generalizing got s with
  | zero => simp [pullLoop, receivable]
  | succ room ih =>
    rw [pullLoop]
    by_cases he : s.srcEnd = true
    · simp [he]
    · simp only [he, Bool.false_eq_true, if_false]
      by_cases hlt : s.sp < s.source.seq.length
      · rw [srcPull_byte hlt]
        simp only
        rw [memWrite_of_lt (by simp only; omega), Res.ok_bind]
        rw [pullStep_eq hlt, ih _ _ (by simp only [afterByte]; omega)]
        have hb : (afterByte s s.source.seq[s.sp]).srcEnd = false := by simpa [afterByte] using he
        have hc : (afterByte s s.source.seq[s.sp]).source = s.source := rfl
        simp only [hb, hc, Bool.false_eq_true, if_false, receivable_succ hlt, ← appendBytes_cons, List.length_cons,
          Nat.add_right_cancel_iff, Nat.add_assoc, Nat.add_comm 1]
      · have hr : receivable (room + 1) s = [] := by
          simp [receivable, List.drop_eq_nil_of_le (Nat.le_of_not_lt hlt)]
        rw [srcPull_none (Nat.le_of_not_lt hlt), hr]
        cases s.source.ended <;> simp

/-- The whole of `Pull()`. -/
theorem pull_eq (got : Nat) (k : PullFor) (s : State) (h : s.j ≤ s.cfg.bufCap) :
    pull got k s =
      let room := s.cfg.bufCap - s.j
      if s.srcEnd then pullDone got s
      else if (receivable room s).length = room then
        pullDone (got + room) (appendBytes (receivable room s) s)
      else if s.source.ended then
        pullDone (got + (receivable room s).length) (setSrcEnd (appendBytes (receivable room s) s))
      else .stop (.waits (.pull (got + (receivable room s).length) k)) (appendBytes (receivable room s) s) :=
  pullLoop_eq _ _ _ _ (by omega)

/-! ## Carry-forward -/

/-- The state after carry-forward (40_refill.md R104). -/
def carried (s : State) : State :=
  if 2 < s.j then
    { s with
      buf := (s.buf.write 0 (storageByte s.buf (s.j - 2))).write 1 (storageByte s.buf (s.j - 1))
      i := 2
      j := 2 }
  else s

/-- Carry-forward goes through where `j` is inside storage. -/
theorem carryForward_eq (s : State) (h : s.j ≤ s.cfg.bufCap) : carryForward s = .ok () (carried s) := by
  unfold carryForward carried
  split
  · rename_i hj
    rw [memRead_of_lt (by omega), Res.ok_bind, memRead_of_lt (by omega), Res.ok_bind,
      memWrite_of_lt (by omega), Res.ok_bind, memWrite_of_lt (by simp only; omega), Res.ok_bind]
  · rfl

theorem carried_j (s : State) : (carried s).j = min s.j 2 := by
  unfold carried
  split
  · simp only
    omega
  · omega

theorem carried_i (s : State) (h : s.i = s.j) : (carried s).i = min s.j 2 := by
  unfold carried
  split
  · simp only
    omega
  · omega

/-- Everything carry-forward leaves alone. -/
theorem carried_frame (s : State) :
    carried s = { s with buf := (carried s).buf, i := (carried s).i, j := (carried s).j } := by
  unfold carried
  split <;> rfl

theorem refill_eq (k : PullFor) (s : State) (h : s.j ≤ s.cfg.bufCap) :
    refill k s = pull 0 k (carried s) := by
  rw [refill, carryForward_eq s h, Res.ok_bind]

end Sys2Proof.Machine
end

