-- ==== Sys2Proof/Laws/Invariant.lean ====
section
/-! SUPPORT. What pull, refill and NeedBytes do from a state that meets the data invariants. -/

namespace Sys2Proof.Machine

/-- Everything a refill leaves alone. -/
def RefillFrame (s t : State) : Prop :=
  t = { s with
    buf := t.buf, i := t.i, j := t.j, sp := t.sp
    consumed := t.consumed, srcEnd := t.srcEnd, pullcnt := t.pullcnt }

theorem RefillFrame.refl (s : State) : RefillFrame s s := rfl

theorem RefillFrame.trans {s t r : State} (h : RefillFrame s t) (h' : RefillFrame t r) : RefillFrame s r := by
  unfold RefillFrame at *
  rw [h'] at *
  rw [h]

theorem RefillFrame.get {s t : State} (h : RefillFrame s t) {α : Type} (f : State → α) :
    f t = f { s with
      buf := t.buf, i := t.i, j := t.j, sp := t.sp
      consumed := t.consumed, srcEnd := t.srcEnd, pullcnt := t.pullcnt } := congrArg f h

section
variable {s t : State} (h : RefillFrame s t)
include h
theorem RefillFrame.cfg : t.cfg = s.cfg := h.get State.cfg
theorem RefillFrame.u : t.u = s.u := h.get State.u
theorem RefillFrame.busy : t.busy = s.busy := h.get State.busy
theorem RefillFrame.fault : t.fault = s.fault := h.get State.fault
theorem RefillFrame.fcode : t.fcode = s.fcode := h.get State.fcode
theorem RefillFrame.finfo : t.finfo = s.finfo := h.get State.finfo
theorem RefillFrame.result : t.result = s.result := h.get State.result
theorem RefillFrame.xfer : t.xfer = s.xfer := h.get State.xfer
theorem RefillFrame.accN : t.accN = s.accN := h.get State.accN
theorem RefillFrame.source : t.source = s.source := h.get State.source
theorem RefillFrame.outReady : t.outReady = s.outReady := h.get State.outReady
theorem RefillFrame.dataOut : t.dataOut = s.dataOut := h.get State.dataOut
end

/-- Data invariants that only touch fields a refill leaves alone carry over. -/
theorem DataInv.of_frame {s t : State} (h : DataInv s) (hf : RefillFrame s t)
    (hc : CursorInv t) (hs : StorageInv t) (hw : WindowInv t) (ho : SourceInv t)
    (hn : t.pullcnt.toNat ≤ t.cfg.bufCap) : DataInv t where
  cfg := by rw [hf.cfg]; exact h.cfg
  cursor := hc
  storage := hs
  window := hw
  source := ho
  latch := by
    have := h.latch
    rw [hf] at *
    exact this
  count := ⟨hn, by rw [hf.xfer]; exact h.count.2⟩
  acc := by
    have := h.acc
    rw [hf] at *
    exact this

theorem DataInv.bufCap_lt {s : State} (h : DataInv s) : s.cfg.bufCap < 2 ^ 32 :=
  Nat.lt_of_le_of_lt h.cfg.2.1 (by decide)

/-- The byte at an index below `j` (INV-WR, INV-WIN). -/
theorem WindowInv.read? {s : State} (h : WindowInv s) {k : Nat} (hk : k < s.j) :
    ∃ v, s.source.seq[s.sp - s.j + k]? = some v ∧ s.buf.read? k = some v := by
  obtain ⟨h1, h2, h3⟩ := h
  have : s.sp - s.j + k < s.source.seq.length := by omega
  exact ⟨_, List.getElem?_eq_getElem this, by rw [h3 k hk, List.getElem?_eq_getElem this]⟩

theorem WindowInv.storageByte {s : State} (h : WindowInv s) {k : Nat} (hk : k < s.j) :
    s.source.seq[s.sp - s.j + k]? = some (storageByte s.buf k) := by
  obtain ⟨v, h1, h2⟩ := h.read? hk
  rw [h1, storageByte_of_read? h2]

/-! ## Carry-forward -/

theorem carried_refillFrame (s : State) : RefillFrame s (carried s) := by
  unfold carried RefillFrame
  split <;> rfl

theorem DataInv.carried {s : State} (h : DataInv s) : DataInv (carried s) := by
  obtain ⟨hu2, hui, hij, hjc⟩ := h.cursor
  obtain ⟨hjs, hsl, hwin⟩ := h.window
  by_cases hj : 2 < s.j
  · refine h.of_frame (carried_refillFrame s) ?_ ?_ ?_ ?_ ?_
    · simp only [CursorInv, Machine.carried, hj, if_true]
      omega
    · simp only [StorageInv, Machine.carried, hj, if_true]
      exact ⟨Memory.write_wf (Memory.write_wf h.storage.1 ..) ..,
        Memory.write_bound (Memory.write_bound h.storage.2 (by omega)) (by omega)⟩
    · simp only [WindowInv, Machine.carried, hj, if_true]
      refine ⟨by omega, hsl, fun k hk => ?_⟩
      rw [Memory.read?_write, Memory.read?_write]
      obtain rfl | rfl : k = 0 ∨ k = 1 := by omega
      · have := h.window.storageByte (k := s.j - 2) (by omega)
        rw [show s.sp - s.j + (s.j - 2) = s.sp - 2 by omega] at this
        simp [this]
      · have := h.window.storageByte (k := s.j - 1) (by omega)
        rw [show s.sp - s.j + (s.j - 1) = s.sp - 2 + 1 by omega] at this
        simp [this]
    · simp only [SourceInv, Machine.carried, hj, if_true]
      exact h.source
    · simp only [Machine.carried, hj, if_true]
      exact h.count.1
  · have : Machine.carried s = s := by simp [Machine.carried, hj]
    rwa [this]

/-- Carry-forward leaves the stream position where it was (40_refill.md R110). -/
theorem streamPos_carried {s : State} (hi : s.i = s.j) : streamPos (carried s) = streamPos s := by
  have : (carried s).sp = s.sp := by
    unfold carried
    split <;> rfl
  rw [streamPos, carried_i s hi, carried_j, streamPos, hi, this, Nat.sub_self, Nat.sub_self]

/-! ## Received bytes -/

theorem appendBytes_refillFrame (bs : List Byte) (s : State) : RefillFrame s (appendBytes bs s) := rfl

theorem DataInv.append {s : State} (h : DataInv s) {room : Nat} (hr : s.j + room ≤ s.cfg.bufCap)
    (he : s.srcEnd = false) : DataInv (appendBytes (receivable room s) s) := by
  obtain ⟨hu2, hui, hij, hjc⟩ := h.cursor
  obtain ⟨hjs, hsl, hwin⟩ := h.window
  have hlen := receivable_length room s
  refine h.of_frame (appendBytes_refillFrame _ s) ?_ ?_ ?_ ?_ h.count.1
  · simp only [CursorInv, appendBytes]
    omega
  · exact ⟨Memory.writeAll_wf h.storage.1 .., Memory.writeAll_bound h.storage.2 (show _ ≤ s.cfg.bufCap by omega)⟩
  · refine ⟨by simp only [appendBytes]; omega, by simp only [appendBytes]; omega, fun k hk => ?_⟩
    simp only [appendBytes] at hk ⊢
    by_cases hlt : k < s.j
    · rw [Memory.read?_writeAll_other _ _ _ _ (.inl hlt), hwin k hlt]
      congr 1
      omega
    · obtain ⟨l, rfl⟩ := Nat.exists_eq_add_of_le (Nat.le_of_not_lt hlt)
      rw [Memory.read?_writeAll_run _ _ _ _ (by omega), receivable_getElem? (by omega)]
      congr 1
      omega
  · refine ⟨fun h' => absurd h' (by simp [appendBytes, he]), ?_⟩
    simp only [appendBytes]
    have : s.source.seq.take (s.sp + (receivable room s).length) = s.source.seq.take s.sp ++ receivable room s := by
      rw [List.take_add]
      congr 1
      simp [receivable]
    rw [this]
    obtain ⟨p, hp⟩ := h.source.2
    exact ⟨p, by rw [← hp, List.append_assoc]⟩

/-! ## Pull -/

/-- What a pull that goes on has done: it received the bytes from `got` up to `n`. -/
structure Pulled (got n : Nat) (s t : State) : Prop where
  frame : RefillFrame s t
  inv : DataInv t
  i : t.i = s.i
  j : t.j + got = s.j + n
  sp : t.sp + got = s.sp + n
  more : got ≤ n
  pos : streamPos t = streamPos s
  pullcnt : t.pullcnt = zext32 n
  srcEnd : s.srcEnd = true → n = got ∧ t.srcEnd = true
  last : t.j < t.cfg.bufCap → t.srcEnd = true

/-- What a pull that waits has done: as above, and its source is silent. -/
structure PullWaits (got n : Nat) (s t : State) : Prop where
  frame : RefillFrame s t
  inv : DataInv t
  i : t.i = s.i
  j : t.j + got = s.j + n
  sp : t.sp + got = s.sp + n
  more : got ≤ n
  pos : streamPos t = streamPos s
  room : t.j < t.cfg.bufCap
  srcEnd : t.srcEnd = false
  silent : t.source.ended = false ∧ t.sp = t.source.seq.length

theorem pull_spec {s : State} (h : DataInv s) (got : Nat) (hg : s.i + got = s.j) (k : PullFor) :
    (pull got k s).Sat (fun n t => Pulled got n s t)
      (fun w t => ∃ n, w = .waits (.pull n k) ∧ PullWaits got n s t) := by
  obtain ⟨hu2, hui, hij, hjc⟩ := h.cursor
  obtain ⟨hjs, hsl, hwin⟩ := h.window
  have hcap := h.bufCap_lt
  rw [pull_eq got k s hjc]
  simp only
  have hlen := receivable_length (s.cfg.bufCap - s.j) s
  by_cases he : s.srcEnd = true
  · rw [if_pos he]
    refine ⟨rfl, ?_, rfl, rfl, rfl, Nat.le_refl _, rfl, rfl, fun _ => ⟨rfl, he⟩, fun _ => he⟩
    exact h.of_frame rfl h.cursor h.storage h.window h.source (by
      simp only; rw [zext32_toNat (by omega)]; omega)
  · simp only [Bool.not_eq_true] at he
    have happ := h.append (room := s.cfg.bufCap - s.j) (by omega) he
    have hpos : streamPos (appendBytes (receivable (s.cfg.bufCap - s.j) s) s) = streamPos s := by
      simp only [streamPos, appendBytes]
      omega
    simp only [he, Bool.false_eq_true, if_false]
    split
    · rename_i hfull
      refine ⟨rfl, ?_, rfl, ?_, ?_, by omega, hpos, rfl, by simp [he], ?_⟩
      · exact happ.of_frame rfl happ.cursor happ.storage happ.window happ.source (by
          simp only [appendBytes]; rw [zext32_toNat (by omega)]; omega)
      · simp only [appendBytes]; omega
      · simp only [appendBytes]; omega
      · intro hlt
        simp only [appendBytes] at hlt
        omega
    · rename_i hnot
      split
      · rename_i hend
        refine ⟨rfl, ?_, rfl, ?_, ?_, by omega, hpos, rfl, by simp [he], fun _ => rfl⟩
        · refine happ.of_frame rfl happ.cursor happ.storage happ.window ⟨fun _ => ⟨hend, ?_⟩, happ.source.2⟩ ?_
          · simp only [appendBytes, setSrcEnd]
            omega
          · simp only [appendBytes, setSrcEnd]
            rw [zext32_toNat (by omega)]
            omega
        · simp only [appendBytes, setSrcEnd]; omega
        · simp only [appendBytes, setSrcEnd]; omega
      · rename_i hend
        refine ⟨_, rfl, rfl, happ, rfl, ?_, ?_, by omega, hpos, ?_, he, by simpa [appendBytes] using hend, ?_⟩
        · simp only [appendBytes]; omega
        · simp only [appendBytes]; omega
        · simp only [appendBytes]; omega
        · simp only [appendBytes]; omega

/-! ## Refill -/

/-- What a refill that goes on has done: `n` bytes stand unread behind at most two kept ones. -/
structure Refilled (n : Nat) (s t : State) : Prop where
  frame : RefillFrame s t
  inv : DataInv t
  i : t.i = min s.j 2
  j : t.j = t.i + n
  sp : t.sp = s.sp + n
  pos : streamPos t = streamPos s
  pullcnt : t.pullcnt = zext32 n
  last : t.j < t.cfg.bufCap → t.srcEnd = true

/-- What a refill that waits has done. -/
structure RefillWaits (n : Nat) (s t : State) : Prop where
  frame : RefillFrame s t
  inv : DataInv t
  i : t.i = min s.j 2
  j : t.j = t.i + n
  sp : t.sp = s.sp + n
  pos : streamPos t = streamPos s
  room : t.j < t.cfg.bufCap
  srcEnd : t.srcEnd = false
  silent : t.source.ended = false ∧ t.sp = t.source.seq.length

theorem refill_spec {s : State} (h : DataInv s) (hi : s.i = s.j) (k : PullFor) :
    (refill k s).Sat (fun n t => Refilled n s t)
      (fun w t => ∃ n, w = .waits (.pull n k) ∧ RefillWaits n s t) := by
  obtain ⟨-, -, -, hjc⟩ := h.cursor
  have hci := carried_i s hi
  have hcj := carried_j s
  have hcs : (carried s).sp = s.sp := by
    unfold Machine.carried
    split <;> rfl
  rw [refill_eq k s hjc]
  refine (pull_spec h.carried 0 (by omega) k).mono (fun n t p => ?_) ?_
  · have := p.j
    have := p.sp
    have := p.i
    exact ⟨(carried_refillFrame s).trans p.frame, p.inv, by omega, by omega, by omega,
      p.pos.trans (streamPos_carried hi), p.pullcnt, p.last⟩
  · rintro w t ⟨n, rfl, p⟩
    have := p.j
    have := p.sp
    have := p.i
    exact ⟨n, rfl, (carried_refillFrame s).trans p.frame, p.inv, by omega, by omega, by omega,
      p.pos.trans (streamPos_carried hi), p.room, p.srcEnd, p.silent⟩

/-- A refill that received nothing found the source ended, with nothing left of it (40_refill.md R107). -/
theorem Refilled.none {s t : State} (p : Refilled 0 s t) :
    t.srcEnd = true ∧ t.source.ended = true ∧ streamPos s = s.source.seq.length := by
  have h3 := p.inv.cfg.1
  have hi := p.i
  have hj := p.j
  have he := p.last (by omega)
  obtain ⟨he1, he2⟩ := p.inv.source.1 he
  refine ⟨he, he1, ?_⟩
  rw [← p.pos, streamPos, ← p.frame.source]
  omega

/-- A refill does not wait where the source answers. -/
theorem RefillWaits.not_answers {n m : Nat} {s t : State} (p : RefillWaits n s t) : ¬ SourceAnswers m s := by
  have h1 := p.room
  have h2 := p.pos
  have h3 := p.inv.window.1
  have h4 := p.silent
  rw [p.frame.source] at h4
  rw [p.frame.cfg] at h1
  rw [streamPos] at h2
  rintro (h | h)
  · simp [h] at h4
  · omega

/-! ## NeedBytes -/

/-- A state in which END_OF_STREAM has been raised for `need` bytes (40_refill.md R108, 60_exceptions.md R255). -/
def OutOfBytes (need : Nat) (s t : State) : Prop :=
  ∃ t0, Refilled 0 s t0 ∧ t = latchFault .endOfStream (zext32 need) t0

theorem needBytes_spec {s : State} (h : DataInv s) (hi : s.i = s.j) (need : Nat) (k : PullFor) :
    (needBytes need k s).Sat (fun _ t => ∃ n, 0 < n ∧ Refilled n s t)
      (fun w t => (w = .raised ∧ OutOfBytes need s t) ∨ ∃ n, w = .waits (.pull n k) ∧ RefillWaits n s t) := by
  rw [needBytes]
  refine Res.Sat.bind ((refill_spec h hi k).mono (fun _ _ p => p) fun _ _ p => .inr p) fun n t p => ?_
  rw [checkReceived]
  split
  · rename_i hn
    subst hn
    exact .inl ⟨rfl, t, p, rfl⟩
  · rename_i hn
    exact ⟨n, by omega, p⟩

/-! ## The byte at the cursor -/

theorem DataInv.cursorByte {s : State} (h : DataInv s) (hij : s.i < s.j) :
    s.source.seq[streamPos s]? = some (storageByte s.buf s.i) := by
  have := h.window.storageByte hij
  have hj := h.window.1
  rwa [show s.sp - s.j + s.i = streamPos s by rw [streamPos]; omega] at this

/-- The cursor and the unreadable count after a read or a rewind. -/
theorem DataInv.setCursor {s : State} (h : DataInv s) {i u : Nat} (hi : i ≤ s.j) (hu : u ≤ i) (hu2 : u ≤ 2) :
    DataInv { s with i := i, u := u } where
  cfg := h.cfg
  cursor := ⟨hu2, hu, hi, h.cursor.2.2.2⟩
  storage := h.storage
  window := h.window
  source := h.source
  latch := h.latch
  count := h.count
  acc := h.acc

theorem DataInv.setResult {s : State} (h : DataInv s) (x : Byte) : DataInv { s with result := x } where
  cfg := h.cfg
  cursor := h.cursor
  storage := h.storage
  window := h.window
  source := h.source
  latch := h.latch
  count := h.count
  acc := h.acc

theorem faultCode_range (f : FaultKind) : 1 ≤ (faultCode f).toNat ∧ (faultCode f).toNat ≤ 5 := by
  cases f <;> decide

theorem DataInv.latchFault {s : State} (h : DataInv s) (f : FaultKind) (v : Word) :
    DataInv (latchFault f v s) where
  cfg := h.cfg
  cursor := h.cursor
  storage := h.storage
  window := h.window
  source := h.source
  latch := ⟨fun h' => absurd h' (by simp), fun _ => faultCode_range f⟩
  count := h.count
  acc := h.acc

theorem plainTake_spec {s : State} (h : DataInv s) (hij : s.i < s.j) :
    plainTake s = .ok (storageByte s.buf s.i) { s with i := s.i + 1, u := 0 } := by
  obtain ⟨-, -, -, hjc⟩ := h.cursor
  rw [plainTake, memRead_of_lt (by omega), Res.ok_bind]

/-- Everything a plain read leaves alone. -/
def ReadFrame (s t : State) : Prop :=
  t = { s with
    buf := t.buf, i := t.i, j := t.j, u := t.u, sp := t.sp
    consumed := t.consumed, srcEnd := t.srcEnd, pullcnt := t.pullcnt }

/-- What a plain read that goes on has done (43_plain_reader.md R162). -/
structure PlainlyRead (x : Byte) (s t : State) : Prop where
  frame : ReadFrame s t
  inv : DataInv t
  byte : s.source.seq[streamPos s]? = some x
  pos : streamPos t = streamPos s + 1
  u : t.u = 0
  i : 1 ≤ t.i
  kept : s.i < s.j → t = { s with i := s.i + 1, u := 0 }
  cursor : s.i = s.j → t.i = min s.j 2 + 1

theorem PlainlyRead.of_take {s t : State} (h : DataInv t) (hij : t.i < t.j) (hf : RefillFrame s t)
    (hp : streamPos t = streamPos s) (hk : s.i < s.j → t = s) (hc : s.i = s.j → t.i = min s.j 2) :
    PlainlyRead (storageByte t.buf t.i) s { t with i := t.i + 1, u := 0 } where
  frame := by
    unfold ReadFrame
    rw [hf]
  inv := h.setCursor hij (Nat.zero_le _) (Nat.zero_le _)
  byte := by
    have := h.cursorByte hij
    rwa [hf.source, hp] at this
  pos := by
    have := h.window.1
    rw [← hp, streamPos, streamPos]
    simp only
    omega
  u := rfl
  i := Nat.le_add_left ..
  kept := fun hlt => by rw [hk hlt]
  cursor := fun he => by simp only [hc he]

theorem plainRead_spec {s : State} (h : DataInv s) (k : PullFor) :
    (plainRead k s).Sat (fun x t => PlainlyRead x s t)
      (fun w t => s.i = s.j ∧
        ((w = .raised ∧ OutOfBytes 1 s t) ∨ ∃ n, w = .waits (.pull n k) ∧ RefillWaits n s t)) := by
  obtain ⟨-, -, hle, -⟩ := h.cursor
  rw [plainRead]
  split
  · rename_i hi
    refine Res.Sat.bind ((needBytes_spec h hi 1 k).mono (fun _ _ p => p) fun _ _ p => ⟨hi, p⟩) ?_
    rintro _ t ⟨n, hn, p⟩
    have hlt : t.i < t.j := by have := p.j; omega
    rw [plainTake_spec p.inv hlt]
    exact .of_take p.inv hlt p.frame p.pos (by omega) fun _ => p.i
  · rename_i hi
    have hlt : s.i < s.j := by omega
    rw [Res.ok_bind, plainTake_spec h hlt]
    exact .of_take h hlt (.refl s) rfl (fun _ => rfl) (by omega)

end Sys2Proof.Machine
end

