-- ==== Sys2Proof/Laws/Transfer.lean ====
section
/-! SUPPORT. What READ_FULL's and IGNORE's loops do from a state that meets the data invariants. -/

namespace Sys2Proof.Machine

/-! ## Emission -/

/-- The state after `m` bytes of a round have been emitted, from its byte `t` on. -/
def emitted (t m : Nat) (s : State) : State :=
  { s with
    dataOut := s.dataOut ++ (s.source.seq.drop (streamPos s + t)).take m
    outReady := readyAfter m s.outReady }

theorem emitted_zero (t : Nat) (s : State) : emitted t 0 s = s := by
  have : readyAfter 0 s.outReady = s.outReady := by
    cases s.outReady <;> rfl
  simp [emitted, this]

theorem DataInv.emitted {s : State} (h : DataInv s) (t m : Nat) : DataInv (emitted t m s) where
  cfg := h.cfg
  cursor := h.cursor
  storage := h.storage
  window := h.window
  source := h.source
  latch := h.latch
  count := h.count
  acc := h.acc

/-- The byte at an index of the unread portion is the stream's. -/
theorem DataInv.unreadByte {s : State} (h : DataInv s) {t : Nat} (ht : s.i + t < s.j) :
    s.source.seq[streamPos s + t]? = some (storageByte s.buf (s.i + t)) := by
  have := h.window.storageByte ht
  have hj := h.window.1
  rwa [show s.sp - s.j + (s.i + t) = streamPos s + t by rw [streamPos]; omega] at this

theorem emit_eq (v : Byte) (s : State) :
    emit v s = if s.outReady = some 0 then none
      else some { s with dataOut := s.dataOut ++ [v], outReady := readyAfter 1 s.outReady } := by
  unfold emit
  split <;> rename_i h <;> simp [h, readyAfter]

theorem emitted_succ {s : State} {t m : Nat} {v : Byte} (hv : s.source.seq[streamPos s + t]? = some v) :
    emitted (t + 1) m { s with dataOut := s.dataOut ++ [v], outReady := readyAfter 1 s.outReady }
      = emitted t (m + 1) s := by
  obtain ⟨hlt, hv⟩ := List.getElem?_eq_some_iff.1 hv
  have hr : readyAfter m (readyAfter 1 s.outReady) = readyAfter (m + 1) s.outReady := by
    cases s.outReady with
    | none => rfl
    | some n => simp only [readyAfter, Option.map_some]; congr 1; omega
  unfold emitted
  rw [List.drop_eq_getElem_cons hlt, List.take_succ_cons, hv]
  simp only [hr, streamPos, List.append_assoc, List.singleton_append, Nat.add_assoc]

/-- The emissions of a round: all of them, or up to a byte the host does not accept. -/
theorem emitLoop_spec {s : State} (h : DataInv s) (rem count left t : Nat) (ht : s.i + t + left ≤ s.j) :
    (emitLoop rem count left t s).Sat (fun _ r => r = emitted t left s)
      (fun w r => ∃ m, m < left ∧ w = .waits (.emit rem count (t + m)) ∧ r = emitted t m s ∧
        r.outReady = some 0 ∧ ¬ HostAccepts left s) := by
  induction left generalizing s t with
  | zero => simp [emitLoop, emitted_zero]
  | succ left ih =>
    obtain ⟨-, -, -, hjc⟩ := h.cursor
    have hv := h.unreadByte (t := t) (by omega)
    rw [emitLoop, memRead_of_lt (by omega), Res.ok_bind, emit_eq]
    by_cases h0 : s.outReady = some 0
    · rw [if_pos h0]
      exact ⟨0, by omega, rfl, (emitted_zero t s).symm, h0, fun ha => by simpa using ha 0 h0⟩
    · rw [if_neg h0]
      simp only
      have hd : DataInv { s with dataOut := s.dataOut ++ [storageByte s.buf (s.i + t)],
                                 outReady := readyAfter 1 s.outReady } :=
        ⟨h.cfg, h.cursor, h.storage, h.window, h.source, h.latch, h.count, h.acc⟩
      refine (ih hd (t + 1) (by simp only; omega)).mono ?_ ?_
      · rintro _ r rfl
        exact emitted_succ hv
      · rintro w r ⟨m, hm, rfl, rfl, hr, hna⟩
        refine ⟨m + 1, by omega, by rw [Nat.add_assoc, Nat.add_comm 1], emitted_succ hv, hr, fun ha => hna ?_⟩
        intro n hn
        cases ho : s.outReady with
        | none => simp [readyAfter, ho] at hn
        | some k =>
          have := ha k ho
          simp only [readyAfter, ho, Option.map_some, Option.some.injEq] at hn
          omega

/-! ## Rounds -/

/-- Everything a transfer leaves alone. -/
def TransferFrame (s r : State) : Prop :=
  r = { s with
    buf := r.buf, i := r.i, j := r.j, sp := r.sp
    consumed := r.consumed, srcEnd := r.srcEnd, pullcnt := r.pullcnt
    xfer := r.xfer, dataOut := r.dataOut, outReady := r.outReady }

/-- `m` bytes have been moved, out of which the first `t` had been emitted before; with `out` they are
emitted, without they are skipped. -/
structure Moved (out : Bool) (t m : Nat) (s r : State) : Prop where
  frame : TransferFrame s r
  inv : DataInv r
  pos : streamPos r = streamPos s + m
  xfer : r.xfer = s.xfer + zext32 m
  dataOut : r.dataOut = if out then s.dataOut ++ (s.source.seq.drop (streamPos s + t)).take (m - t) else s.dataOut
  outReady : r.outReady = if out then readyAfter (m - t) s.outReady else s.outReady
  sp : s.sp ≤ r.sp

theorem TransferFrame.source {s r : State} (h : TransferFrame s r) : r.source = s.source := by rw [h]
theorem TransferFrame.cfg {s r : State} (h : TransferFrame s r) : r.cfg = s.cfg := by rw [h]
theorem TransferFrame.u {s r : State} (h : TransferFrame s r) : r.u = s.u := by rw [h]

theorem TransferFrame.trans {s r q : State} (h : TransferFrame s r) (h' : TransferFrame r q) :
    TransferFrame s q := by
  unfold TransferFrame at *
  rw [h'] at *
  rw [h]

theorem readyAfter_add (a b : Nat) (o : Option Nat) : readyAfter b (readyAfter a o) = readyAfter (a + b) o := by
  cases o with
  | none => rfl
  | some n => simp only [readyAfter, Option.map_some]; congr 1; omega

theorem zext32_add (a b : Nat) : zext32 a + zext32 b = zext32 (a + b) := by
  simp [zext32, BitVec.ofNat_add]

/-- Two movements one after the other. -/
theorem Moved.trans {out : Bool} {t a b : Nat} {s r q : State} (h : Moved out t a s r) (h' : Moved out 0 b r q)
    (ht : t ≤ a) : Moved out t (a + b) s q where
  frame := h.frame.trans h'.frame
  inv := h'.inv
  pos := by rw [h'.pos, h.pos, Nat.add_assoc]
  xfer := by rw [h'.xfer, h.xfer, BitVec.add_assoc, zext32_add]
  dataOut := by
    rw [h'.dataOut, h.dataOut, h.frame.source, h.pos]
    cases out
    · rfl
    · simp only [if_true, List.append_assoc, Nat.add_zero, Nat.sub_zero]
      congr 1
      rw [show a + b - t = (a - t) + b by omega, List.take_add, List.drop_drop,
        show streamPos s + t + (a - t) = streamPos s + a by omega]
  outReady := by
    rw [h'.outReady, h.outReady]
    cases out
    · rfl
    · simp only [if_true, Nat.sub_zero, readyAfter_add]
      congr 1
      omega
  sp := Nat.le_trans h.sp h'.sp

theorem Refilled.moved {n : Nat} {s r : State} (h : Refilled n s r) (out : Bool) : Moved out 0 0 s r where
  frame := by
    unfold TransferFrame
    rw [h.frame]
  inv := h.inv
  pos := h.pos
  xfer := by rw [h.frame.xfer, zext32, BitVec.add_zero]
  dataOut := by
    rw [h.frame.dataOut]
    cases out <;> simp
  outReady := by
    rw [h.frame.outReady]
    cases out
    · rfl
    · cases s.outReady <;> rfl
  sp := by rw [h.sp]; omega

/-- XFER after a round stays in its range. -/
theorem xfer_toNat {x : Word} {n : Nat} (h : x.toNat + n < 2 ^ 24) : (x + zext32 n).toNat = x.toNat + n := by
  rw [BitVec.toNat_add, zext32_toNat (by omega), Nat.mod_eq_of_lt (by omega)]

/-- The end of a round: its bytes leave the unread portion. -/
theorem DataInv.advance {s : State} (h : DataInv s) {n : Nat} (hn : s.i + n ≤ s.j)
    (hx : s.xfer.toNat + n < 2 ^ 24) : DataInv (advance n s) where
  cfg := h.cfg
  cursor := by
    obtain ⟨h1, h2, h3, h4⟩ := h.cursor
    simp only [CursorInv, advance_u, advance_i, advance_j, advance_cfg]
    omega
  storage := h.storage
  window := h.window
  source := h.source
  latch := h.latch
  count := ⟨h.count.1, by rw [advance_xfer, xfer_toNat hx]; exact hx⟩
  acc := h.acc

theorem streamPos_advance {s : State} (h : DataInv s) {n : Nat} (hn : s.i + n ≤ s.j) :
    streamPos (advance n s) = streamPos s + n := by
  have := h.window.1
  simp only [streamPos, advance_sp, advance_j, advance_i]
  omega

/-- A round that emits from its byte `t` on. -/
theorem Moved.emitRound {s : State} (h : DataInv s) {t n : Nat} (hn : s.i + n ≤ s.j)
    (hx : s.xfer.toNat + n < 2 ^ 24) : Moved true t n s (advance n (emitted t (n - t) s)) where
  frame := rfl
  inv := (h.emitted t (n - t)).advance hn hx
  pos := streamPos_advance (h.emitted t (n - t)) hn
  xfer := rfl
  dataOut := rfl
  outReady := rfl
  sp := Nat.le_refl _

/-- A round that skips. -/
theorem Moved.skipRound {s : State} (h : DataInv s) {n : Nat} (hn : s.i + n ≤ s.j)
    (hx : s.xfer.toNat + n < 2 ^ 24) : Moved false 0 n s (advance n s) where
  frame := rfl
  inv := h.advance hn hx
  pos := streamPos_advance h hn
  xfer := rfl
  dataOut := rfl
  outReady := rfl
  sp := Nat.le_refl _

/-- The source ended with `rem - m` bytes still owed (44_read_full_ignore.md R187, R193). -/
def TransferShort (out : Bool) (t rem : Nat) (s r : State) : Prop :=
  ∃ m r0, m < rem ∧ t ≤ m ∧ Moved out t m s r0 ∧ r = latchFault .endOfStream (zext32 (rem - m)) r0 ∧
    streamPos s + m = s.source.seq.length ∧ r0.srcEnd = true ∧ r0.source.ended = true ∧ r0.pullcnt = 0 ∧
    r0.i = r0.j ∧ r0.j ≤ 2

/-- How far a transfer that waits has come: `m` bytes in finished rounds, and for READ_FULL the bytes from
`t` up to `e` emitted (46_session_control.md R232). -/
structure WaitsAfter (out : Bool) (t m e rem : Nat) (s : State) (w : Wait) (r : State) : Prop where
  lo : t ≤ e
  hi : e < rem
  pos : streamPos r = streamPos s + m
  xfer : r.xfer = s.xfer + zext32 m
  dataOut : r.dataOut = if out then s.dataOut ++ (s.source.seq.drop (streamPos s + t)).take (e - t) else s.dataOut
  outReady : r.outReady = if out then readyAfter (e - t) s.outReady else s.outReady
  port : (e = m ∧ ∃ got, w = .pull got (if out then .readFull (rem - m) else .ignore (rem - m))) ∨
    (out = true ∧ r.outReady = some 0 ∧ ∃ count p, e = m + p ∧ w = .emit (rem - m) count p)

/-- The transfer waits on a port that does not answer. -/
structure TransferWaits (out : Bool) (t rem : Nat) (s : State) (w : Wait) (r : State) : Prop where
  frame : TransferFrame s r
  inv : DataInv r
  wait : WaitInv r w
  silent : ¬ SourceAnswers rem s ∨ (out = true ∧ ¬ HostAccepts (rem - t) s)
  amount : ∃ m e, WaitsAfter out t m e rem s w r

/-- A wait seen from before the bytes moved first. -/
theorem WaitsAfter.of_moved {out : Bool} {t m m' e rem : Nat} {s r q : State} {w : Wait}
    (h : WaitsAfter out 0 m' e (rem - m) r w q) (hmv : Moved out t m s r) (ht : t ≤ m) :
    WaitsAfter out t (m + m') (m + e) rem s w q where
  lo := by omega
  hi := by have := h.hi; omega
  pos := by rw [h.pos, hmv.pos, Nat.add_assoc]
  xfer := by rw [h.xfer, hmv.xfer, BitVec.add_assoc, zext32_add]
  dataOut := by
    rw [h.dataOut, hmv.dataOut, hmv.frame.source, hmv.pos]
    cases out
    · rfl
    · simp only [if_true, List.append_assoc, Nat.add_zero, Nat.sub_zero]
      congr 1
      rw [show m + e - t = (m - t) + e by omega, List.take_add, List.drop_drop,
        show streamPos s + t + (m - t) = streamPos s + m by omega]
  outReady := by
    rw [h.outReady, hmv.outReady]
    cases out
    · rfl
    · simp only [if_true, Nat.sub_zero, readyAfter_add]
      congr 1
      omega
  port := by
    rw [← Nat.sub_sub]
    refine h.port.imp (fun ⟨he, hw⟩ => ⟨by rw [he], hw⟩) ?_
    rintro ⟨ho, h0, count, p, he, hw⟩
    exact ⟨ho, h0, count, p, by omega, hw⟩

theorem Moved.sourceAnswers {out : Bool} {t m rem : Nat} {s r : State} (h : Moved out t m s r) (hm : m ≤ rem)
    (ha : SourceAnswers rem s) : SourceAnswers (rem - m) r := by
  have h1 := h.pos
  rw [SourceAnswers, h.frame.source, h.frame.cfg]
  exact ha.imp id fun _ => by omega

theorem Moved.hostAccepts {t m rem : Nat} {s r : State} (h : Moved true t m s r) (ht : t ≤ m) (hm : m ≤ rem)
    (ha : HostAccepts (rem - t) s) : HostAccepts (rem - m) r := by
  intro n hn
  rw [h.outReady, if_pos rfl] at hn
  cases ho : s.outReady with
  | none => simp [readyAfter, ho] at hn
  | some k =>
    have := ha k ho
    simp only [readyAfter, ho, Option.map_some, Option.some.injEq] at hn
    omega

/-- What happens after some bytes have been moved, seen from before. -/
theorem TransferWaits.of_moved {out : Bool} {t m rem : Nat} {s r q : State} {w : Wait}
    (h : TransferWaits out 0 (rem - m) r w q) (hmv : Moved out t m s r) (ht : t ≤ m) (hm : m ≤ rem) :
    TransferWaits out t rem s w q where
  frame := hmv.frame.trans h.frame
  inv := h.inv
  wait := h.wait
  silent := by
    refine h.silent.imp (fun hn ha => hn (hmv.sourceAnswers hm ha)) ?_
    rintro ⟨rfl, hn⟩
    exact ⟨rfl, fun ha => hn (hmv.hostAccepts ht hm ha)⟩
  amount := by
    obtain ⟨m', e, h'⟩ := h.amount
    exact ⟨_, _, h'.of_moved hmv ht⟩

theorem TransferShort.of_moved {out : Bool} {t m rem : Nat} {s r q : State}
    (h : TransferShort out 0 (rem - m) r q) (hmv : Moved out t m s r) (ht : t ≤ m) :
    TransferShort out t rem s q := by
  obtain ⟨n, r0, hn, -, hmv', rfl, hp, h1, h2, h3, h4, h5⟩ := h
  refine ⟨m + n, r0, by omega, by omega, hmv.trans hmv' ht, by rw [Nat.sub_sub], ?_, h1, h2, h3, h4, h5⟩
  rw [hmv.pos, hmv.frame.source] at hp
  omega

/-- A `NeedBytes(rem)` inside a transfer. -/
theorem needBytes_transfer {s : State} (h : DataInv s) (hi : s.i = s.j) {rem : Nat} (hr : 0 < rem)
    (hx : s.xfer.toNat + rem < 2 ^ 24) (hu : s.u = 0) (out : Bool) (k : PullFor)
    (hk : k = if out then .readFull rem else .ignore rem) :
    (needBytes rem k s).Sat (fun _ r => Moved out 0 0 s r ∧ r.i < r.j)
      (fun w r => (w = .raised ∧ TransferShort out 0 rem s r) ∨ ∃ v, w = .waits v ∧ TransferWaits out 0 rem s v r) := by
  refine (needBytes_spec h hi rem k).mono ?_ ?_
  · rintro _ r ⟨n, hn, p⟩
    exact ⟨p.moved out, by have := p.j; omega⟩
  · rintro w r (⟨rfl, r0, p, rfl⟩ | ⟨n, rfl, p⟩)
    · obtain ⟨h1, h2, h3⟩ := p.none
      have hi := p.i
      have hj := p.j
      exact .inl ⟨rfl, 0, r0, hr, Nat.le_refl _, p.moved out, rfl, h3, h1, h2, by rw [p.pullcnt]; rfl,
        by omega, by omega⟩
    · refine .inr ⟨_, rfl, by unfold TransferFrame; rw [p.frame], p.inv, ?_, .inl p.not_answers, 0, 0,
        Nat.le_refl _, hr, p.pos, by rw [p.frame.xfer, zext32, BitVec.add_zero], ?_, ?_, .inl ⟨rfl, n, by rw [hk]; rfl⟩⟩
      rotate_left
      · rw [p.frame.dataOut]
        cases out <;> simp
      · rw [p.frame.outReady]
        cases out
        · rfl
        · cases s.outReady <;> rfl
      refine ⟨p.j.symm, p.room, p.srcEnd, p.silent.1, p.silent.2, ?_⟩
      subst hk
      cases out <;> exact ⟨hr, by rw [p.frame.xfer]; exact hx, by rw [p.frame.u]; exact hu⟩

/-- A round of READ_FULL in which the host accepts no further byte. -/
theorem TransferWaits.emitting {s : State} (h : DataInv s) {rem count t m : Nat} (hc : count = min rem (s.j - s.i))
    (ht : t ≤ count) (hm : m < count - t) (hx : s.xfer.toNat + rem < 2 ^ 24) (hu : s.u = 0)
    (hr : (Machine.emitted t m s).outReady = some 0) (hn : ¬ HostAccepts (count - t) s) :
    TransferWaits true t rem s (.emit rem count (t + m)) (Machine.emitted t m s) where
  frame := rfl
  inv := h.emitted t m
  wait := ⟨by omega, hc, hx, hu, hr⟩
  silent := .inr ⟨rfl, fun ha => hn fun n hn => Nat.le_trans (by omega) (ha n hn)⟩
  amount := by
    have he : t + m - t = m := by omega
    refine ⟨0, t + m, by omega, by omega, rfl, (by rw [zext32]; exact (BitVec.add_zero _).symm), ?_, ?_,
      .inr ⟨rfl, hr, count, t + m, by omega, rfl⟩⟩
    · rw [he]
      rfl
    · rw [he]
      rfl

/-- READ_FULL from byte `t` of a round on. -/
theorem readFullFrom_spec {s : State} (h : DataInv s) (hu : s.u = 0) {fuel rem count t : Nat}
    (hx : s.xfer.toNat + rem < 2 ^ 24) (hc : count = min rem (s.j - s.i)) (ht : t ≤ count)
    (hf : rem ≤ fuel + count) :
    (readFullFrom fuel rem count t s).Sat (fun _ r => Moved true t rem s r)
      (fun w r => (w = .raised ∧ TransferShort true t rem s r) ∨ ∃ v, w = .waits v ∧ TransferWaits true t rem s v r) := by
  induction fuel generalizing s rem count t with
  | zero =>
    have h3 := h.cursor.2.2.1
    rw [readFullFrom]
    refine Res.Sat.bind ((emitLoop_spec h rem count (count - t) t (by omega)).mono (fun _ _ p => p) ?_) ?_
    · rintro w r ⟨m, hm, rfl, rfl, hr, hn⟩
      exact .inr ⟨_, rfl, .emitting h hc ht (by omega) hx hu hr hn⟩
    · rintro _ r rfl
      simp only
      rw [if_pos (by omega)]
      have hrc : rem = count := by omega
      exact hrc ▸ Moved.emitRound h (by omega) (by omega)
  | succ fuel ih =>
    have h3 := h.cursor.2.2.1
    rw [readFullFrom]
    refine Res.Sat.bind ((emitLoop_spec h rem count (count - t) t (by omega)).mono (fun _ _ p => p) ?_) ?_
    · rintro w r ⟨m, hm, rfl, rfl, hr, hn⟩
      exact .inr ⟨_, rfl, .emitting h hc ht (by omega) hx hu hr hn⟩
    · rintro _ r rfl
      have hm : Moved true t count s (advance count (emitted t (count - t) s)) :=
        Moved.emitRound h (by omega) (by omega)
      have hxr := xfer_toNat (x := s.xfer) (n := count) (by omega)
      simp only
      split
      · have hrc : rem = count := by omega
        exact hrc ▸ hm
      · rename_i hne
        have hij : (advance count (emitted t (count - t) s)).i = (advance count (emitted t (count - t) s)).j := by
          simp only [advance_i, advance_j, emitted]
          omega
        have hxa : (advance count (emitted t (count - t) s)).xfer.toNat + (rem - count) < 2 ^ 24 := by
          simp only [advance_xfer, emitted, hxr]
          omega
        refine Res.Sat.bind ((needBytes_transfer hm.inv hij (rem := rem - count) (by omega) hxa hu true
          (.readFull (rem - count)) rfl).mono (fun _ _ p => p) ?_) ?_
        · rintro w q (⟨rfl, p⟩ | ⟨v, rfl, p⟩)
          · exact .inl ⟨rfl, p.of_moved hm ht⟩
          · exact .inr ⟨v, rfl, p.of_moved hm ht (by omega)⟩
        · rintro _ q ⟨hq, hlt⟩
          rw [copyCount, if_neg hne, Res.ok_bind]
          have hmq := hm.trans hq ht
          rw [Nat.add_zero] at hmq
          have hqx : q.xfer.toNat + (rem - count) < 2 ^ 24 := by
            rw [hmq.xfer, hxr]
            omega
          refine (ih hq.inv (by rw [hq.frame.u]; exact hu) hqx rfl (Nat.zero_le _)
            (by have : unreadLen q = q.j - q.i := rfl; omega)).mono ?_ ?_
          · intro _ r p
            have := hmq.trans p ht
            rwa [show count + (rem - count) = rem by omega] at this
          · rintro w r (⟨rfl, p⟩ | ⟨v, rfl, p⟩)
            · exact .inl ⟨rfl, p.of_moved hmq ht⟩
            · exact .inr ⟨v, rfl, p.of_moved hmq ht (by omega)⟩

/-- READ_FULL's loop for at least one byte. -/
theorem readFullLoop_spec {s : State} (h : DataInv s) (hu : s.u = 0) {rem : Nat} (hr : 0 < rem)
    (hx : s.xfer.toNat + rem < 2 ^ 24) :
    (readFullLoop rem s).Sat (fun _ r => Moved true 0 rem s r)
      (fun w r => (w = .raised ∧ TransferShort true 0 rem s r) ∨ ∃ v, w = .waits v ∧ TransferWaits true 0 rem s v r) := by
  rw [readFullLoop, copyCount, if_neg (by omega), Res.ok_bind]
  exact readFullFrom_spec h hu hx rfl (Nat.zero_le _) (by rw [roundsFor]; omega)

/-- IGNORE's loop. -/
theorem ignoreFrom_spec {s : State} (h : DataInv s) (hu : s.u = 0) {fuel rem : Nat}
    (hx : s.xfer.toNat + rem < 2 ^ 24) (hf : rem ≤ fuel + min (s.j - s.i) rem) :
    (ignoreFrom fuel rem s).Sat (fun _ r => Moved false 0 rem s r)
      (fun w r => (w = .raised ∧ TransferShort false 0 rem s r) ∨ ∃ v, w = .waits v ∧ TransferWaits false 0 rem s v r) := by
  induction fuel generalizing s rem with
  | zero =>
    have h3 := h.cursor.2.2.1
    unfold ignoreFrom
    generalize hm : min (unreadLen s) rem = m
    have hm : min (s.j - s.i) rem = m := hm
    simp only
    rw [if_pos (by omega)]
    have hrc : m = rem := by omega
    subst hrc
    exact Moved.skipRound h (by omega) (by omega)
  | succ fuel ih =>
    have h3 := h.cursor.2.2.1
    unfold ignoreFrom
    generalize hc : min (unreadLen s) rem = m
    have hc : min (s.j - s.i) rem = m := hc
    have hm : Moved false 0 m s (advance m s) := Moved.skipRound h (by omega) (by omega)
    have hxr := xfer_toNat (x := s.xfer) (n := m) (by omega)
    simp only
    split
    · have hrc : m = rem := by omega
      subst hrc
      exact hm
    · rename_i hne
      have hij : (advance m s).i = (advance m s).j := by
        simp only [advance_i, advance_j]
        omega
      have hxa : (advance m s).xfer.toNat + (rem - m) < 2 ^ 24 := by
        simp only [advance_xfer, hxr]
        omega
      refine Res.Sat.bind ((needBytes_transfer hm.inv hij (rem := rem - m) (by omega) hxa hu false
        (.ignore (rem - m)) rfl).mono (fun _ _ p => p) ?_) ?_
      · rintro w q (⟨rfl, p⟩ | ⟨v, rfl, p⟩)
        · exact .inl ⟨rfl, p.of_moved hm (Nat.zero_le _)⟩
        · exact .inr ⟨v, rfl, p.of_moved hm (Nat.zero_le _) (by omega)⟩
      · rintro _ q ⟨hq, hlt⟩
        have hmq := hm.trans hq (Nat.zero_le _)
        rw [Nat.add_zero] at hmq
        have hqx : q.xfer.toNat + (rem - m) < 2 ^ 24 := by
          rw [hmq.xfer, hxr]
          omega
        refine (ih hq.inv (by rw [hq.frame.u]; exact hu) hqx (by omega)).mono ?_ ?_
        · intro _ r p
          have := hmq.trans p (Nat.zero_le _)
          rwa [show m + (rem - m) = rem by omega] at this
        · rintro w r (⟨rfl, p⟩ | ⟨v, rfl, p⟩)
          · exact .inl ⟨rfl, p.of_moved hmq (Nat.zero_le _)⟩
          · exact .inr ⟨v, rfl, p.of_moved hmq (Nat.zero_le _) (by omega)⟩

theorem ignoreLoop_spec {s : State} (h : DataInv s) (hu : s.u = 0) {rem : Nat}
    (hx : s.xfer.toNat + rem < 2 ^ 24) :
    (ignoreLoop rem s).Sat (fun _ r => Moved false 0 rem s r)
      (fun w r => (w = .raised ∧ TransferShort false 0 rem s r) ∨ ∃ v, w = .waits v ∧ TransferWaits false 0 rem s v r) :=
  ignoreFrom_spec h hu hx (by rw [roundsFor]; omega)

/-! ## The precondition step -/

theorem DataInv.accShift8 {s : State} (h : DataInv s) : DataInv (accShift8 s) where
  cfg := h.cfg
  cursor := h.cursor
  storage := h.storage
  window := h.window
  source := h.source
  latch := h.latch
  count := h.count
  acc := by
    obtain ⟨h1, h2, h3⟩ := h.acc
    simp only [AccInv, accShift8_accN, accShift8_accF1, accShift8_accF2, accShift8_cfg]
    refine ⟨by omega, ?_, ?_⟩
    · exact Nat.lt_of_le_of_lt (Nat.shiftRight_le ..) h2
    · exact Nat.lt_of_le_of_lt (Nat.shiftRight_le ..) h3

theorem DataInv.giveBack {s : State} (h : DataInv s) : DataInv (giveBack s) :=
  h.setCursor (by have := h.cursor; unfold CursorInv at this; omega) (Nat.zero_le _) (Nat.zero_le _)

theorem DataInv.unreadSeq {s : State} (h : DataInv s) : DataInv (unreadSeq s) := by
  unfold Machine.unreadSeq
  split
  · exact h.accShift8.giveBack
  · exact h.giveBack

theorem DataInv.precondition {s : State} (h : DataInv s) : DataInv (precondition s) := by
  unfold Machine.precondition
  split
  · split
    · exact h.unreadSeq.setCursor h.unreadSeq.cursor.2.2.1 (Nat.zero_le _) (Nat.zero_le _)
    · exact h.setCursor h.cursor.2.2.1 (Nat.zero_le _) (Nat.zero_le _)
  · exact h

theorem precondition_u (s : State) : (precondition s).u = 0 := by
  unfold precondition
  split
  · rfl
  · rename_i h
    simpa using h

@[simp] theorem startTransfer_xfer (s : State) : (startTransfer s).xfer = 0 := rfl

theorem DataInv.startTransfer {s : State} (h : DataInv s) : DataInv (startTransfer s) where
  cfg := h.precondition.cfg
  cursor := h.precondition.cursor
  storage := h.precondition.storage
  window := h.precondition.window
  source := h.precondition.source
  latch := h.precondition.latch
  count := ⟨h.precondition.count.1, by rw [startTransfer_xfer]; decide⟩
  acc := h.precondition.acc

@[simp] theorem startTransfer_u (s : State) : (startTransfer s).u = 0 := precondition_u s

end Sys2Proof.Machine
end

