-- ==== Sys2Proof/Laws/Arrival.lean ====
section
/-! SUPPORT. A pull that waited and goes on, and the independence of a transfer from its bound on rounds. -/

namespace Sys2Proof.Machine

/-- The same state on a source that has revealed more. -/
def revealed (src : Source) (s : State) : State := { s with source := src }

/-- The loop of a pull on a source that reveals more than it had: where it went on, it goes on alike; where
it waited, it does what the rest of it does. -/
theorem pullLoop_revealed {src : Source} {bs : List Byte} (k : PullFor) (room got : Nat) (s : State)
    (hs : src.seq = s.source.seq ++ bs) (he : s.source.ended = false) (hr : room = s.cfg.bufCap - s.j) :
    (pullLoop room got k s).Sat (fun n t => pullLoop room got k (revealed src s) = .ok n (revealed src t))
      (fun w t => ∀ n k', w = .waits (.pull n k') → k' = k ∧
        pullLoop room got k (revealed src s) = pull n k (revealed src t)) := by
  induction room generalizing got s with
  | zero => exact rfl
  | succ room ih =>
    by_cases hse : s.srcEnd = true
    · have h1 : pullLoop (room + 1) got k s = pullDone got s := by rw [pullLoop, if_pos hse]
      have h2 : pullLoop (room + 1) got k (revealed src s) = pullDone got (revealed src s) := by
        rw [pullLoop, if_pos (show (revealed src s).srcEnd = true from hse)]
      rw [h1, h2]
      exact rfl
    · by_cases hlt : s.sp < s.source.seq.length
      · have hb : srcPull (revealed src s) = .byte s.source.seq[s.sp]
            (revealed src { s with sp := s.sp + 1, consumed := s.consumed ++ [s.source.seq[s.sp]] }) := by
          have : (revealed src s).source.seq[(revealed src s).sp]? = some s.source.seq[s.sp] := by
            simp only [revealed, hs]
            rw [List.getElem?_append_left hlt, List.getElem?_eq_getElem hlt]
          rw [srcPull, this]
          rfl
        have hj : s.j < s.cfg.bufCap := by omega
        have h1 : pullLoop (room + 1) got k s = pullLoop room (got + 1) k (afterByte s s.source.seq[s.sp]) := by
          rw [pullLoop, if_neg hse, srcPull_byte hlt]
          simp only
          rw [memWrite_of_lt (by exact hj), Res.ok_bind]
          rfl
        have h2 : pullLoop (room + 1) got k (revealed src s) =
            pullLoop room (got + 1) k (revealed src (afterByte s s.source.seq[s.sp])) := by
          rw [pullLoop, if_neg (by exact hse), hb]
          simp only
          rw [memWrite_of_lt (by exact hj), Res.ok_bind]
          rfl
        rw [h1, h2]
        exact ih (got + 1) (afterByte s s.source.seq[s.sp]) hs he
          (show room = s.cfg.bufCap - (s.j + 1) by omega)
      · have h1 : pullLoop (room + 1) got k s = .stop (.waits (.pull got k)) s := by
          rw [pullLoop, if_neg hse, srcPull_none (by omega), he]
          rfl
        rw [h1]
        intro n k' hw
        injection hw with hw
        injection hw with hn hk
        subst hn hk
        refine ⟨rfl, ?_⟩
        rw [pull, ← show room + 1 = (revealed src s).cfg.bufCap - (revealed src s).j from hr]

/-- The same of a whole refill. -/
theorem refill_revealed {src : Source} {bs : List Byte} {s : State} (k : PullFor) (hj : s.j ≤ s.cfg.bufCap)
    (hs : src.seq = s.source.seq ++ bs) (he : s.source.ended = false) :
    (refill k s).Sat (fun n t => refill k (revealed src s) = .ok n (revealed src t))
      (fun w t => ∀ n k', w = .waits (.pull n k') → k' = k ∧
        refill k (revealed src s) = pull n k (revealed src t)) := by
  have hc : carried (revealed src s) = revealed src (carried s) := by
    unfold carried revealed
    split <;> rfl
  have hcs : (carried s).source = s.source := (carried_refillFrame s).source
  rw [refill_eq k s hj, refill_eq k (revealed src s) hj, hc]
  exact pullLoop_revealed k _ 0 (carried s) (by rw [hcs]; exact hs) (by rw [hcs]; exact he) rfl

/-- Two continuations that agree wherever the first part can end. -/
theorem Res.bind_congr {α β : Type} {r : Res α} {f g : α → State → Res β} {P : α → State → Prop}
    {Q : Stop → State → Prop} (h : r.Sat P Q) (hfg : ∀ a s, P a s → f a s = g a s) : r.bind f = r.bind g := by
  cases r with
  | ok a s => exact hfg a s h
  | stop w s => rfl

/-- READ_FULL does the same whatever bound on its rounds is enough (log 14). -/
theorem readFullFrom_fuel {s : State} (h : DataInv s) (hu : s.u = 0) {f g rem count t : Nat}
    (hx : s.xfer.toNat + rem < 2 ^ 24) (hc : count = min rem (s.j - s.i)) (ht : t ≤ count)
    (hf : rem ≤ f + count) (hg : rem ≤ g + count) :
    readFullFrom f rem count t s = readFullFrom g rem count t s := by
  induction f generalizing s g rem count t with
  | zero =>
    rw [readFullFrom, readFullFrom]
    refine congrArg _ (funext fun _ => funext fun r => ?_)
    simp only
    rw [if_pos (by omega), if_pos (by omega)]
  | succ f ih =>
    have h3 := h.cursor.2.2.1
    rw [readFullFrom, readFullFrom]
    refine Res.bind_congr (emitLoop_spec h rem count (count - t) t (by omega)) ?_
    rintro _ r rfl
    have hm : Moved true t count s (advance count (emitted t (count - t) s)) :=
      Moved.emitRound h (by omega) (by omega)
    have hxr := xfer_toNat (x := s.xfer) (n := count) (by omega)
    simp only
    by_cases hne : rem - count = 0
    · rw [if_pos hne, if_pos hne]
    · rw [if_neg hne, if_neg hne]
      cases g with
      | zero => omega
      | succ g =>
        have hij : (advance count (emitted t (count - t) s)).i = (advance count (emitted t (count - t) s)).j := by
          simp only [advance_i, advance_j, emitted]
          omega
        have hxa : (advance count (emitted t (count - t) s)).xfer.toNat + (rem - count) < 2 ^ 24 := by
          simp only [advance_xfer, emitted, hxr]
          omega
        refine Res.bind_congr (needBytes_transfer hm.inv hij (rem := rem - count) (by omega) hxa hu true
          (.readFull (rem - count)) rfl) ?_
        rintro _ q ⟨hq, hlt⟩
        rw [copyCount, if_neg hne, Res.ok_bind, Res.ok_bind]
        have hmq := hm.trans hq ht
        rw [Nat.add_zero] at hmq
        refine ih hq.inv (by rw [hq.frame.u]; exact hu) (by rw [hmq.xfer, hxr]; omega) rfl (Nat.zero_le _) ?_ ?_ <;>
          (have : unreadLen q = q.j - q.i := rfl; omega)

/-- The same of IGNORE. -/
theorem ignoreFrom_fuel {s : State} (h : DataInv s) (hu : s.u = 0) {f g rem : Nat}
    (hx : s.xfer.toNat + rem < 2 ^ 24) (hf : rem ≤ f + min (s.j - s.i) rem) (hg : rem ≤ g + min (s.j - s.i) rem) :
    ignoreFrom f rem s = ignoreFrom g rem s := by
  induction f generalizing s g rem with
  | zero =>
    unfold ignoreFrom
    generalize hm : min (unreadLen s) rem = m
    have hm : min (s.j - s.i) rem = m := hm
    simp only
    rw [if_pos (by omega), if_pos (by omega)]
  | succ f ih =>
    have h3 := h.cursor.2.2.1
    unfold ignoreFrom
    generalize hc : min (unreadLen s) rem = m
    have hc : min (s.j - s.i) rem = m := hc
    have hm : Moved false 0 m s (advance m s) := Moved.skipRound h (by omega) (by omega)
    have hxr := xfer_toNat (x := s.xfer) (n := m) (by omega)
    simp only
    by_cases hne : rem - m = 0
    · rw [if_pos hne, if_pos hne]
    · rw [if_neg hne, if_neg hne]
      cases g with
      | zero => omega
      | succ g =>
        have hij : (advance m s).i = (advance m s).j := by
          simp only [advance_i, advance_j]
          omega
        have hxa : (advance m s).xfer.toNat + (rem - m) < 2 ^ 24 := by
          simp only [advance_xfer, hxr]
          omega
        refine Res.bind_congr (needBytes_transfer hm.inv hij (rem := rem - m) (by omega) hxa hu false
          (.ignore (rem - m)) rfl) ?_
        rintro _ q ⟨hq, hlt⟩
        have hmq := hm.trans hq (Nat.zero_le _)
        rw [Nat.add_zero] at hmq
        exact ih hq.inv (by rw [hq.frame.u]; exact hu) (by rw [hmq.xfer, hxr]; omega) (by omega) (by omega)

end Sys2Proof.Machine
end

