-- ==== Sys2Proof/Laws/Encoding.lean ====
section
/-! SUPPORT. The fields of a command word as numbers. -/

namespace Sys2Proof

theorem opField_toNat (w : Word) : (opField w).toNat = w.toNat % 16 := by
  simp [opField, BitVec.extractLsb'_toNat]

theorem rsvField_toNat (w : Word) : (rsvField w).toNat = w.toNat / 16 % 16 := by
  simp [rsvField, BitVec.extractLsb'_toNat, Nat.shiftRight_eq_div_pow]

theorem lenField_eq (w : Word) : lenField w = w.toNat / 256 := by
  simp only [lenField, BitVec.extractLsb'_toNat, Nat.shiftRight_eq_div_pow]
  omega

theorem rsvField_eq_zero (w : Word) : rsvField w = 0 ↔ w.toNat / 16 % 16 = 0 := by
  rw [← rsvField_toNat]
  exact ⟨fun h => by rw [h]; rfl, fun h => BitVec.eq_of_toNat_eq h⟩

theorem lenOperand_lt {i : Instr} (h : i.wf = true) : lenOperand i < 2 ^ 24 := by
  cases i <;> first | decide | exact of_decide_eq_true h

theorem encode_toNat {i : Instr} (h : i.wf = true) :
    (encode i).toNat = lenOperand i * 256 + (opcode i).toNat := by
  have hl := lenOperand_lt h
  have ho := (opcode i).isLt
  have h0 : (0 : BitVec 4).toNat = 0 := rfl
  simp only [encode, BitVec.toNat_append, BitVec.toNat_ofNat]
  rw [← Nat.shiftLeft_add_eq_or_of_lt ho, ← Nat.shiftLeft_add_eq_or_of_lt (by decide), h0]
  simp only [Nat.shiftLeft_eq]
  omega

end Sys2Proof
end

