-- ==== Sys2Proof/Laws/Exact.lean ====
section
/-! SUPPORT. The exact state and storage after a refill, and the precondition step in closed form. -/

namespace Sys2Proof.Machine

theorem refillCount_le (s : State) : refillCount s ≤ refillRoom s := by
  unfold refillCount
  split
  · exact Nat.zero_le _
  · exact Nat.min_le_left ..

theorem refillRoom_pos {s : State} (h : s.cfg.Valid) : 0 < refillRoom s := by
  have := h.1
  unfold refillRoom
  omega

/-- Storage after carry-forward and a run of received bytes. -/
theorem storedByRefill_append {s : State} {n : Nat}
    (hn : n ≤ s.source.seq.length - s.sp) :
    StoredByRefill s n ((carried s).buf.writeAll (min s.j 2) ((s.source.seq.drop s.sp).take n)) := by
  have hlen : ((s.source.seq.drop s.sp).take n).length = n := by
    simp only [List.length_take, List.length_drop]
    omega
  refine ⟨fun hj => ?_, fun k hk => ?_, fun k h1 h2 => ?_⟩
  · have h0 := Memory.read?_writeAll_other (carried s).buf (min s.j 2) 0 ((s.source.seq.drop s.sp).take n)
      (.inl (by omega))
    have h1 := Memory.read?_writeAll_other (carried s).buf (min s.j 2) 1 ((s.source.seq.drop s.sp).take n)
      (.inl (by omega))
    constructor
    · rw [storageByte, h0]
      simp [carried, hj, Memory.read?_write]
    · rw [storageByte, h1]
      simp [carried, hj]
  · have hr := Memory.read?_writeAll_run (carried s).buf (min s.j 2) k ((s.source.seq.drop s.sp).take n) (by omega)
    rw [List.getElem?_take_of_lt hk, List.getElem?_drop, List.getElem?_eq_getElem (by omega)] at hr
    rw [storageByte_of_read? hr, List.getElem?_eq_getElem (by omega)]
  · have hr := Memory.read?_writeAll_other (carried s).buf (min s.j 2) k ((s.source.seq.drop s.sp).take n)
      (by rw [hlen]; omega)
    rw [storageByte, hr]
    by_cases hj : 2 < s.j
    · have hk : ¬ k < 2 := fun hk => h1 ⟨hj, hk⟩
      simp only [carried, hj, if_true]
      rw [Memory.read?_write_other _ _ (by omega), Memory.read?_write_other _ _ (by omega)]
      rfl
    · simp only [carried, hj, if_false]
      rfl

/-- Carry-forward where the unread portion is empty. -/
theorem carried_eq {s : State} (hi : s.i = s.j) :
    carried s = { s with buf := (carried s).buf, i := min s.j 2, j := min s.j 2 } := by
  by_cases hj : 2 < s.j
  · have : min s.j 2 = 2 := by omega
    simp only [carried, hj, if_true, this]
  · have hm : min s.j 2 = s.j := by omega
    have : carried s = s := by simp [carried, hj]
    rw [this, hm]
    exact congrArg (fun x : Nat => ({ s with i := x } : State)) hi

/-- `min s.j 2` and the bytes taken, after a refill that received `n` bytes and has not ended its pull. -/
def refilledBy (s : State) (n : Nat) (m : Memory) : State :=
  { s with
    buf := m
    i := min s.j 2
    j := min s.j 2 + n
    sp := s.sp + n
    consumed := s.consumed ++ (s.source.seq.drop s.sp).take n }

theorem appendBytes_carried {s : State} (hi : s.i = s.j) {n : Nat} (hn : n ≤ s.source.seq.length - s.sp) :
    appendBytes ((s.source.seq.drop s.sp).take n) (carried s) =
      refilledBy s n ((carried s).buf.writeAll (min s.j 2) ((s.source.seq.drop s.sp).take n)) := by
  have hl : ((s.source.seq.drop s.sp).take n).length = n := by
    simp only [List.length_take, List.length_drop]
    omega
  rw [appendBytes, hl, carried_eq hi]
  rfl

/-- `Refill()` in closed form on a state with no unread data. -/
theorem refill_closed {s : State} (hj : s.j ≤ s.cfg.bufCap) (hi : s.i = s.j) (k : PullFor) :
    refill k s =
      let n := min (refillRoom s) (s.source.seq.length - s.sp)
      let t := appendBytes ((s.source.seq.drop s.sp).take n) (carried s)
      if s.srcEnd then pullDone 0 (carried s)
      else if n = refillRoom s then pullDone n t
      else if s.source.ended then pullDone n (setSrcEnd t)
      else .stop (.waits (.pull n k)) t := by
  have hc := carried_eq hi
  rw [refill_eq k s hj, pull_eq 0 k _ (by rw [hc]; simp only; omega)]
  have hroom : (carried s).cfg.bufCap - (carried s).j = refillRoom s := by
    rw [hc]
    rfl
  have hrec : receivable (refillRoom s) (carried s) =
      (s.source.seq.drop s.sp).take (min (refillRoom s) (s.source.seq.length - s.sp)) := by
    rw [receivable, hc]
    simp only
    by_cases h : refillRoom s ≤ s.source.seq.length - s.sp
    · rw [Nat.min_eq_left h]
    · rw [List.take_of_length_le (by simp only [List.length_drop]; omega),
        List.take_of_length_le (by simp only [List.length_drop]; omega)]
  have hlen : (receivable (refillRoom s) (carried s)).length = min (refillRoom s) (s.source.seq.length - s.sp) := by
    rw [receivable_length, hc]
  have he : (carried s).srcEnd = s.srcEnd := by rw [hc]
  have hs : (carried s).source = s.source := by rw [hc]
  simp only [hroom, he, hs, hlen, Nat.zero_add]
  rw [hrec]
  split
  · rfl
  · split
    · rename_i h
      rw [h]
    · rfl

/-- A refill that does not wait. -/
theorem refill_answers {s : State} (hj : s.j ≤ s.cfg.bufCap) (hi : s.i = s.j) (h : PullAnswers s) (k : PullFor) :
    ∃ m, StoredByRefill s (refillCount s) m ∧ refill k s = .ok (refillCount s) (afterRefill s m) := by
  have hn : refillCount s ≤ s.source.seq.length - s.sp := by
    unfold refillCount
    split <;> omega
  refine ⟨_, storedByRefill_append hn, ?_⟩
  rw [refill_closed hj hi]
  simp only
  by_cases he : s.srcEnd = true
  · have h0 : refillCount s = 0 := by simp [refillCount, he]
    rw [if_pos he, pullDone, carried_eq hi, afterRefill, h0]
    simp [he, Memory.writeAll]
  · have hc : refillCount s = min (refillRoom s) (s.source.seq.length - s.sp) := by simp [refillCount, he]
    simp only [Bool.not_eq_true] at he
    rw [← hc, appendBytes_carried hi hn, he]
    simp only [Bool.false_eq_true, if_false]
    split
    · rename_i hfull
      simp [pullDone, refilledBy, afterRefill, he, hfull]
    · rename_i hnot
      have hlt : refillCount s < refillRoom s := by have := refillCount_le s; omega
      have hend : s.source.ended = true := by
        rcases h with h | h | h
        · simp [he] at h
        · exact h
        · omega
      rw [if_pos hend]
      simp [pullDone, refilledBy, afterRefill, setSrcEnd, hlt]

/-- A refill on a silent source. -/
theorem refill_silent {s : State} (hj : s.j ≤ s.cfg.bufCap) (hi : s.i = s.j) (h : ¬ PullAnswers s) (k : PullFor) :
    ∃ m, StoredByRefill s (s.source.seq.length - s.sp) m ∧
      refill k s = .stop (.waits (.pull (s.source.seq.length - s.sp) k))
        (refilledBy s (s.source.seq.length - s.sp) m) := by
  unfold PullAnswers at h
  simp only [not_or, Bool.not_eq_true, Nat.not_le] at h
  obtain ⟨h1, h2, h3⟩ := h
  refine ⟨_, storedByRefill_append (Nat.le_refl _), ?_⟩
  rw [refill_closed hj hi]
  simp only [h1, h2, Bool.false_eq_true, if_false]
  have hm : min (refillRoom s) (s.source.seq.length - s.sp) = s.source.seq.length - s.sp := by omega
  rw [hm, if_neg (by omega), appendBytes_carried hi (Nat.le_refl _)]

/-- The precondition step in closed form (44_read_full_ignore.md R182). -/
theorem precondition_eq (s : State) : precondition s = rewound s := by
  unfold precondition rewound
  by_cases hu : s.u = 0
  · rw [if_neg (by simp [hu]), if_neg (by simp [hu])]
    rw [← hu]
  · rw [if_pos hu]
    by_cases ha : 8 ≤ s.accN
    · simp only [if_pos ha, hu, ne_eq, not_false_eq_true, true_and, unreadSeq, giveBack, accShift8,
        Nat.shiftRight_eq_div_pow]
    · simp only [if_neg ha, hu, ne_eq, not_false_eq_true, true_and]

theorem startTransfer_eq (s : State) : startTransfer s = { rewound s with xfer := 0 } := by
  rw [startTransfer, precondition_eq]

/-- Everything the precondition step leaves alone. -/
theorem rewound_frame (s : State) : rewound s = { s with
    i := (rewound s).i, u := 0, accN := (rewound s).accN, accF1 := (rewound s).accF1, accF2 := (rewound s).accF2 } := by
  unfold rewound
  split <;> rfl

theorem DataInv.rewound {s : State} (h : DataInv s) : DataInv (rewound s) :=
  precondition_eq s ▸ h.precondition

end Sys2Proof.Machine
end

