-- ==== Sys2Proof/Laws/PerInstr.lean ====
section
/-! SUPPORT. Statements about every command as syntax, one lemma per constructor: an encoding has the bits
the opcode table fixes for its command (30_encoding.md R74). -/

namespace Sys2Proof.Laws.EncodingFixedBits

/-- The encoding of a command that has one matches its row of the opcode table. -/
def Statement (i : Instr) : Prop := i.wf = true → encode i &&& fixedMask i = fixedMatch i

theorem refill : Statement .refill := fun _ => by decide

theorem readByte : Statement .readByte := fun _ => by decide

theorem readStuffed : Statement .readStuffed := fun _ => by decide

theorem unread : Statement .unread := fun _ => by decide

/-- The low byte of an encoding is OP, RSV being 0, whatever LEN is. -/
theorem low_byte_of_encode {i : Instr} (h : i.wf = true) :
    encode i &&& (0x000000FF : Word) = (opcode i).setWidth 32 := by
  apply BitVec.eq_of_toNat_eq
  have ho := (opcode i).isLt
  have hm : (0x000000FF : Word).toNat = 2 ^ 8 - 1 := rfl
  rw [BitVec.toNat_and, hm, Nat.and_two_pow_sub_one_eq_mod, encode_toNat h, BitVec.toNat_setWidth]
  omega

theorem readFull (n : Nat) : Statement (.readFull n) := fun h => low_byte_of_encode h

theorem ignore (n : Nat) : Statement (.ignore n) := fun h => low_byte_of_encode h

theorem init : Statement .init := fun _ => by decide

end Sys2Proof.Laws.EncodingFixedBits
end

