-- ==== Sys2Proof/Laws/Run.lean ====
section
/-! SUPPORT. What no command touches, and the path of a run. -/

namespace Sys2Proof.Machine

/-! ## The parameters, the pending moves, and what leaves and enters the block -/

/-- What no command touches: the parameters and the pending moves stay, the bytes consumed and delivered are
only added to. -/
structure SameOutside (s t : State) : Prop where
  cfg : t.cfg = s.cfg
  inputs : t.inputs = s.inputs
  consumed : s.consumed <+: t.consumed
  dataOut : s.dataOut <+: t.dataOut

theorem SameOutside.of_eq {s t : State} (hc : t.cfg = s.cfg) (hi : t.inputs = s.inputs)
    (hs : t.consumed = s.consumed) (hd : t.dataOut = s.dataOut) : SameOutside s t :=
  ⟨hc, hi, hs ▸ List.prefix_refl _, hd ▸ List.prefix_refl _⟩

theorem SameOutside.trans {s t r : State} (h : SameOutside s t) (h' : SameOutside t r) : SameOutside s r :=
  ⟨h'.cfg.trans h.cfg, h'.inputs.trans h.inputs, h.consumed.trans h'.consumed, h.dataOut.trans h'.dataOut⟩

/-- A piece of pseudocode leaves them alone, however it ends. -/
def Untouched {α : Type} (s : State) (r : Res α) : Prop :=
  r.Sat (fun _ t => SameOutside s t) (fun _ t => SameOutside s t)

theorem Untouched.bind {α β : Type} {s : State} {r : Res α} {f : α → State → Res β} (h : Untouched s r)
    (hf : ∀ a t, Untouched t (f a t)) : Untouched s (r.bind f) :=
  Res.Sat.bind h fun a t ht => (hf a t).mono (fun _ _ h' => ht.trans h') fun _ _ h' => ht.trans h'

/-- After a change that leaves them alone too. -/
theorem Untouched.of_same {α : Type} {s t : State} {r : Res α} (h : Untouched t r) (hs : SameOutside s t) :
    Untouched s r :=
  h.mono (fun _ _ h' => hs.trans h') fun _ _ h' => hs.trans h'

theorem memRead_untouched (k : Nat) (s : State) : Untouched s (memRead k s) := by
  unfold memRead
  split <;> exact SameOutside.of_eq rfl rfl rfl rfl

theorem memWrite_untouched (k : Nat) (v : Byte) (s : State) : Untouched s (memWrite k v s) := by
  unfold memWrite
  split <;> exact SameOutside.of_eq rfl rfl rfl rfl

theorem raise_untouched {α : Type} (f : FaultKind) (v : Word) (s : State) : Untouched s (raise f v s : Res α) :=
  (SameOutside.of_eq rfl rfl rfl rfl)

theorem pullLoop_untouched (room got : Nat) (k : PullFor) (s : State) : Untouched s (pullLoop room got k s) := by
  induction room generalizing got s with
  | zero => exact SameOutside.of_eq rfl rfl rfl rfl
  | succ room ih =>
    rw [pullLoop]
    split
    · exact SameOutside.of_eq rfl rfl rfl rfl
    · unfold srcPull
      cases s.source.seq[s.sp]? with
      | some v =>
        refine Untouched.bind (.of_same (memWrite_untouched _ _ _) ⟨rfl, rfl, List.prefix_append .., List.prefix_refl _⟩) fun _ t => ?_
        exact .of_same (ih _ _) (.of_eq rfl rfl rfl rfl)
      | none => cases s.source.ended <;> exact SameOutside.of_eq rfl rfl rfl rfl

theorem pull_untouched (got : Nat) (k : PullFor) (s : State) : Untouched s (pull got k s) :=
  pullLoop_untouched _ _ _ _

theorem carryForward_untouched (s : State) : Untouched s (carryForward s) := by
  unfold carryForward
  split
  · refine (memRead_untouched _ s).bind fun _ _ => (memRead_untouched _ _).bind fun _ _ =>
      (memWrite_untouched _ _ _).bind fun _ _ => (memWrite_untouched _ _ _).bind fun _ _ => SameOutside.of_eq rfl rfl rfl rfl
  · exact SameOutside.of_eq rfl rfl rfl rfl

theorem refill_untouched (k : PullFor) (s : State) : Untouched s (refill k s) :=
  (carryForward_untouched s).bind fun _ _ => pull_untouched _ _ _

theorem checkReceived_untouched (need got : Nat) (s : State) : Untouched s (checkReceived need got s) := by
  unfold checkReceived
  split <;> exact SameOutside.of_eq rfl rfl rfl rfl

theorem needBytes_untouched (need : Nat) (k : PullFor) (s : State) : Untouched s (needBytes need k s) :=
  (refill_untouched k s).bind fun _ _ => checkReceived_untouched _ _ _

theorem resumeNeedBytes_untouched (need got : Nat) (k : PullFor) (s : State) :
    Untouched s (resumeNeedBytes need got k s) :=
  (pull_untouched got k s).bind fun _ _ => checkReceived_untouched _ _ _

theorem plainTake_untouched (s : State) : Untouched s (plainTake s) :=
  (memRead_untouched _ s).bind fun _ _ => SameOutside.of_eq rfl rfl rfl rfl

theorem plainRead_untouched (k : PullFor) (s : State) : Untouched s (plainRead k s) := by
  unfold plainRead
  refine Untouched.bind ?_ fun _ _ => plainTake_untouched _
  split
  · exact needBytes_untouched _ _ _
  · exact SameOutside.of_eq rfl rfl rfl rfl

theorem resumePlainRead_untouched (got : Nat) (k : PullFor) (s : State) : Untouched s (resumePlainRead got k s) :=
  (resumeNeedBytes_untouched 1 got k s).bind fun _ _ => plainTake_untouched _

theorem stuffedFast_untouched (s : State) : Untouched s (stuffedFast s) := by
  refine (memRead_untouched _ s).bind fun x t => ?_
  simp only
  split
  · exact SameOutside.of_eq rfl rfl rfl rfl
  · refine Untouched.bind (.of_same (memRead_untouched _ _) (.of_eq rfl rfl rfl rfl)) fun y r => ?_
    split <;> exact SameOutside.of_eq rfl rfl rfl rfl

theorem stuffedAfterSecond_untouched (y : Byte) (s : State) : Untouched s (stuffedAfterSecond y s) := by
  unfold stuffedAfterSecond
  split <;> exact SameOutside.of_eq rfl rfl rfl rfl

theorem stuffedAfterFirst_untouched (x : Byte) (s : State) : Untouched s (stuffedAfterFirst x s) := by
  unfold stuffedAfterFirst
  simp only
  split
  · exact SameOutside.of_eq rfl rfl rfl rfl
  · exact Untouched.bind (.of_same (plainRead_untouched _ _) (.of_eq rfl rfl rfl rfl)) stuffedAfterSecond_untouched

theorem readStuffed_untouched (s : State) : Untouched s (readStuffed s) := by
  unfold readStuffed
  split
  · exact stuffedFast_untouched s
  · exact (plainRead_untouched _ s).bind stuffedAfterFirst_untouched

theorem emitLoop_untouched (rem count left t : Nat) (s : State) : Untouched s (emitLoop rem count left t s) := by
  induction left generalizing t s with
  | zero => exact SameOutside.of_eq rfl rfl rfl rfl
  | succ left ih =>
    refine (memRead_untouched _ s).bind fun v r => ?_
    unfold emit
    cases h : r.outReady with
    | none => exact .of_same (ih _ _) ⟨rfl, rfl, List.prefix_refl _, List.prefix_append ..⟩
    | some n =>
      cases n with
      | zero => exact SameOutside.of_eq rfl rfl rfl rfl
      | succ n => exact .of_same (ih _ _) ⟨rfl, rfl, List.prefix_refl _, List.prefix_append ..⟩

theorem copyCount_untouched (rem avail : Nat) (s : State) : Untouched s (copyCount rem avail s) := by
  unfold copyCount
  split <;> exact SameOutside.of_eq rfl rfl rfl rfl

theorem readFullFrom_untouched (fuel rem count t : Nat) (s : State) : Untouched s (readFullFrom fuel rem count t s) := by
  induction fuel generalizing rem count t s with
  | zero =>
    rw [readFullFrom]
    refine (emitLoop_untouched _ _ _ _ s).bind fun _ r => ?_
    simp only
    split <;> exact SameOutside.of_eq rfl rfl rfl rfl
  | succ fuel ih =>
    rw [readFullFrom]
    refine (emitLoop_untouched _ _ _ _ s).bind fun _ r => ?_
    simp only
    split
    · exact SameOutside.of_eq rfl rfl rfl rfl
    · exact Untouched.bind (.of_same (needBytes_untouched _ _ _) (.of_eq rfl rfl rfl rfl)) fun _ q =>
        (copyCount_untouched _ _ q).bind fun _ q => ih _ _ _ _

theorem readFullLoop_untouched (rem : Nat) (s : State) : Untouched s (readFullLoop rem s) :=
  (copyCount_untouched _ _ s).bind fun _ _ => readFullFrom_untouched _ _ _ _ _

theorem ignoreFrom_untouched (fuel rem : Nat) (s : State) : Untouched s (ignoreFrom fuel rem s) := by
  induction fuel generalizing rem s with
  | zero =>
    unfold ignoreFrom
    simp only
    split <;> exact SameOutside.of_eq rfl rfl rfl rfl
  | succ fuel ih =>
    unfold ignoreFrom
    simp only
    split
    · exact SameOutside.of_eq rfl rfl rfl rfl
    · exact Untouched.bind (.of_same (needBytes_untouched _ _ _) (.of_eq rfl rfl rfl rfl)) fun _ q => ih _ _

theorem ignoreLoop_untouched (rem : Nat) (s : State) : Untouched s (ignoreLoop rem s) := ignoreFrom_untouched _ _ _

theorem startTransfer_same (s : State) : SameOutside s (startTransfer s) := by
  unfold startTransfer precondition
  split
  · split
    · unfold unreadSeq
      split <;> exact SameOutside.of_eq rfl rfl rfl rfl
    · exact SameOutside.of_eq rfl rfl rfl rfl
  · exact SameOutside.of_eq rfl rfl rfl rfl

/-- The rest of a waiting command leaves them alone. -/
theorem continueFrom_untouched (w : Wait) (s : State) : Untouched s (continueFrom w s) := by
  cases w with
  | pull got k =>
    cases k with
    | refill => exact (pull_untouched _ _ s).bind fun _ _ => SameOutside.of_eq rfl rfl rfl rfl
    | readByte => exact (resumePlainRead_untouched _ _ s).bind fun _ _ => SameOutside.of_eq rfl rfl rfl rfl
    | stuffedFirst => exact (resumePlainRead_untouched _ _ s).bind stuffedAfterFirst_untouched
    | stuffedSecond => exact (resumePlainRead_untouched _ _ s).bind stuffedAfterSecond_untouched
    | readFull rem => exact (resumeNeedBytes_untouched _ _ _ s).bind fun _ _ => readFullLoop_untouched _ _
    | ignore rem => exact (resumeNeedBytes_untouched _ _ _ s).bind fun _ _ => ignoreLoop_untouched _ _
  | emit rem count t => exact readFullFrom_untouched _ _ _ _ s

/-- The state a command answers has the parameters and pending moves its pseudocode left. -/
theorem Untouched.finish {s t : State} {r : Res Unit} (h : Untouched s r) (ht : finish r = .next t) : SameOutside s t := by
  obtain ⟨q, rfl, rfl⟩ | ⟨q, rfl, rfl⟩ | ⟨w, q, rfl, rfl⟩ := finish_cases ht <;>
    exact SameOutside.trans h (.of_eq rfl rfl rfl rfl)

/-- A command leaves them alone too, INIT included. -/
theorem exec_same {s t : State} {i : Instr} (h : exec i s = .next t) : SameOutside s t := by
  cases i with
  | refill =>
    refine Untouched.finish ?_ h
    split
    · exact raise_untouched _ _ s
    · exact (refill_untouched _ s).bind fun _ _ => SameOutside.of_eq rfl rfl rfl rfl
  | readByte =>
    exact Untouched.finish ((plainRead_untouched .readByte s).bind
      (f := giveResult) fun _ _ => SameOutside.of_eq rfl rfl rfl rfl) h
  | readStuffed => exact Untouched.finish (readStuffed_untouched s) h
  | unread =>
    refine Untouched.finish (r := .ok () (unreadSeq s)) (?_ : SameOutside s (unreadSeq s)) h
    unfold unreadSeq
    split <;> exact .of_eq rfl rfl rfl rfl
  | readFull n => exact Untouched.finish (.of_same (readFullLoop_untouched _ _) (startTransfer_same s)) h
  | ignore n => exact Untouched.finish (.of_same (ignoreLoop_untouched _ _) (startTransfer_same s)) h
  | init =>
    exact Untouched.finish (r := .ok () (attachNext (clearSession s)))
      (SameOutside.of_eq rfl rfl rfl rfl) h

/-- INIT leaves the state a run starts from (70_reset_and_hazards.md R284). -/
theorem init_runStart {s t : State} (h : DataInv s) (ht : exec .init s = .next t) : RunStart t := by
  injection ht with ht
  subst ht
  have hd : DataInv (endCommand (attachNext (clearSession s))) :=
    { cfg := h.cfg
      cursor := ⟨Nat.zero_le _, Nat.le_refl _, Nat.le_refl _, Nat.zero_le _⟩
      storage := h.storage
      window := ⟨Nat.le_refl _, Nat.zero_le _, fun k hk => absurd hk (Nat.not_lt_zero k)⟩
      source := ⟨(fun he => nomatch he), List.nil_suffix⟩
      latch := ⟨fun _ => ⟨rfl, rfl⟩, fun hf => nomatch hf⟩
      count := ⟨Nat.zero_le _, show (0 : Word).toNat < 2 ^ 24 by decide⟩
      acc := h.acc }
  have hs : statusWord (endCommand (attachNext (clearSession s))) = 0 := by
    show (0 : BitVec 20) ++ (0 : BitVec 4) ++ (0 : BitVec 3) ++ flagBit false ++ flagBit false ++ flagBit false
      ++ flagBit false ++ flagBit false = 0
    decide
  exact ⟨⟨hd, rfl, (fun hb => nomatch hb), fun w hw => nomatch hw⟩, rfl, rfl, rfl, rfl, hs, rfl, rfl, rfl, rfl⟩

/-! ## The path of a run -/

/-- Where a run has ended it goes no further. -/
theorem RunReaches.of_ended {s t : State} (h : RunReaches s t) (he : RunEnded s) : t = s := by
  cases h with
  | here => rfl
  | onward hs _ _ => exact absurd he hs

/-- The first step of a run. -/
theorem RunReaches.cases_step {s r t : State} (h : RunReaches s t) (hr : step s = .next r) : t = s ∨ RunReaches r t := by
  cases h with
  | here => exact .inl rfl
  | onward _ hr' ht =>
    rw [hr] at hr'
    injection hr' with hr'
    exact .inr (hr' ▸ ht)

/-- A run has one path: of two states it reaches one comes first. -/
theorem RunReaches.linear {s t r : State} (h : RunReaches s t) (h' : RunReaches s r) :
    RunReaches t r ∨ RunReaches r t := by
  induction h with
  | here s => exact .inl h'
  | onward hs hr ht ih =>
    obtain rfl | h'' := h'.cases_step hr
    · exact .inr (.onward hs hr ht)
    · exact ih h''

end Sys2Proof.Machine
end

