-- ==== Sys2Proof/Laws/Stuffed.lean ====
section
/-! SUPPORT. What READ_STUFFED does from a state that meets the data invariants, on both paths. -/

namespace Sys2Proof.Machine

theorem ReadFrame.trans {s t r : State} (h : ReadFrame s t) (h' : ReadFrame t r) : ReadFrame s r := by
  unfold ReadFrame at *
  rw [h'] at *
  rw [h]

theorem RefillFrame.readFrame {s t : State} (h : RefillFrame s t) : ReadFrame s t := by
  unfold ReadFrame
  rw [h]

theorem ReadFrame.setU {s t : State} (h : ReadFrame s t) (n : Nat) : ReadFrame s { t with u := n } := by
  unfold ReadFrame at *
  rw [h]

theorem ReadFrame.source {s t : State} (h : ReadFrame s t) : t.source = s.source := by rw [h]
theorem ReadFrame.cfg {s t : State} (h : ReadFrame s t) : t.cfg = s.cfg := by rw [h]
theorem ReadFrame.fault {s t : State} (h : ReadFrame s t) : t.fault = s.fault := by rw [h]
theorem ReadFrame.fcode {s t : State} (h : ReadFrame s t) : t.fcode = s.fcode := by rw [h]
theorem ReadFrame.result {s t : State} (h : ReadFrame s t) : t.result = s.result := by rw [h]

/-- READ_STUFFED completes: `t` is the state before RESULT is written with `x` (41_stuffed_reader.md R124). -/
structure StuffedRead (x : Byte) (s t : State) : Prop where
  frame : ReadFrame s t
  inv : DataInv t
  byte : s.source.seq[streamPos s]? = some x
  zero : x = 0xFF → s.source.seq[streamPos s + 1]? = some 0x00
  u : t.u = if x = 0xFF then 2 else 1
  pos : streamPos t = streamPos s + t.u

/-- The state after the first byte, an 0xFF, has been read (41_stuffed_reader.md R123). -/
structure FirstRead (x : Byte) (s t : State) : Prop where
  frame : ReadFrame s t
  inv : DataInv t
  byte : s.source.seq[streamPos s]? = some x
  pos : streamPos t = streamPos s + 1
  u : t.u = 1

/-- The stuffing zero is missing: `t` is the state before the fault is latched (41_stuffed_reader.md R125). -/
structure ZeroMissing (y : Byte) (s t : State) : Prop where
  frame : ReadFrame s t
  inv : DataInv t
  byte : s.source.seq[streamPos s]? = some 0xFF
  next : s.source.seq[streamPos s + 1]? = some y
  nonzero : y ≠ 0x00
  u : t.u = if s.i + 2 ≤ s.j then 1 else 0
  pos : streamPos t = streamPos s + (if s.i + 2 ≤ s.j then 1 else 2)
  cursor : s.i + 2 ≤ s.j → t.i = s.i + 1

/-- The ways READ_STUFFED stops. -/
inductive StuffedStop (s : State) : Stop → State → Prop where
  | missing (y : Byte) (t : State) (h : ZeroMissing y s t) :
    StuffedStop s .raised (latchFault .missingFF00 (y.setWidth 32) t)
  | firstEnds (t : State) (hi : s.i = s.j) (h : OutOfBytes 1 s t) : StuffedStop s .raised t
  | firstWaits (n : Nat) (t : State) (hi : s.i = s.j) (h : RefillWaits n s t) :
    StuffedStop s (.waits (.pull n .stuffedFirst)) t
  | secondEnds (r t : State) (hr : FirstRead 0xFF s r) (hi : r.i = r.j) (h : OutOfBytes 1 r t) : StuffedStop s .raised t
  | secondWaits (n : Nat) (r t : State) (hr : FirstRead 0xFF s r) (hi : r.i = r.j) (h : RefillWaits n r t) :
    StuffedStop s (.waits (.pull n .stuffedSecond)) t

/-- READ_STUFFED completes with a byte, or stops in one of those ways. -/
def StuffedDone (s : State) (r : Res Unit) : Prop :=
  r.Sat (fun _ q => ∃ x t, StuffedRead x s t ∧ q = { t with result := x }) (StuffedStop s)

/-- The fast path (41_stuffed_reader.md R122). -/
theorem stuffedFast_spec {s : State} (h : DataInv s) (hij : s.i + 2 ≤ s.j) : StuffedDone s (stuffedFast s) := by
  obtain ⟨-, -, -, hjc⟩ := h.cursor
  have hw := h.window.1
  have hb := h.cursorByte (by omega : s.i < s.j)
  unfold StuffedDone stuffedFast
  rw [memRead_of_lt (by omega), Res.ok_bind]
  simp only
  have h1 : DataInv { s with i := s.i + 1, u := 1 } := h.setCursor (by omega) (by omega) (by omega)
  have hb1 := h1.cursorByte (by simp only; omega)
  have hp1 : streamPos { s with i := s.i + 1, u := 1 } = streamPos s + 1 := by
    simp only [streamPos]
    omega
  rw [hp1] at hb1
  simp only at hb1
  split
  · rename_i hx
    exact ⟨_, { s with i := s.i + 1, u := 1 },
      ⟨rfl, h1, hb, fun hx' => absurd hx' hx, by rw [if_neg hx], hp1⟩, rfl⟩
  · rename_i hx
    simp only [ne_eq, Decidable.not_not] at hx
    rw [hx] at hb
    rw [memRead_of_lt (by simp only; omega), Res.ok_bind]
    simp only
    split
    · rename_i hy
      exact .missing _ _ ⟨rfl, h1, hb, hb1, hy, by rw [if_pos hij], by rw [if_pos hij]; exact hp1, fun _ => rfl⟩
    · rename_i hy
      simp only [ne_eq, Decidable.not_not] at hy
      rw [hy] at hb1
      refine ⟨_, { s with i := s.i + 1 + 1, u := 2 }, ⟨rfl, h.setCursor (by omega) (by omega) (by omega), hb, fun _ => hb1, rfl, ?_⟩, rfl⟩
      simp only [streamPos]
      omega

/-- The fallback path after its first plain read (41_stuffed_reader.md R123). -/
theorem stuffedAfterFirst_spec {s t : State} {x : Byte} (p : PlainlyRead x s t) (hij : ¬ s.i + 2 ≤ s.j) :
    StuffedDone s (stuffedAfterFirst x t) := by
  have hi := p.i
  have hr : FirstRead x s { t with u := 1 } :=
    ⟨p.frame.setU 1, p.inv.setCursor p.inv.cursor.2.2.1 hi (by omega), p.byte, p.pos, rfl⟩
  unfold StuffedDone stuffedAfterFirst
  simp only
  split
  · rename_i hx
    exact ⟨x, _, ⟨hr.frame, hr.inv, hr.byte, fun hx' => absurd hx' hx, by rw [if_neg hx], hr.pos⟩, rfl⟩
  · rename_i hx
    simp only [ne_eq, Decidable.not_not] at hx
    subst hx
    refine Res.Sat.bind ((plainRead_spec hr.inv .stuffedSecond).mono (fun _ _ p => p) ?_) ?_
    · rintro w q ⟨hij', ⟨rfl, ho⟩ | ⟨n, rfl, hw⟩⟩
      · exact .secondEnds _ _ hr hij' ho
      · exact .secondWaits n _ _ hr hij' hw
    · intro y q pq
      have hb := pq.byte
      rw [hr.pos, hr.frame.source] at hb
      have hpos := pq.pos
      rw [hr.pos] at hpos
      unfold stuffedAfterSecond
      split
      · rename_i hy
        exact .missing _ _ ⟨hr.frame.trans pq.frame, pq.inv, hr.byte, hb, hy, by rw [if_neg hij]; exact pq.u,
          by rw [if_neg hij]; exact hpos, fun h => absurd h hij⟩
      · rename_i hy
        simp only [ne_eq, Decidable.not_not] at hy
        subst hy
        have hq2 : 2 ≤ q.i := by
          have h1 := pq.kept
          have h2 := pq.cursor
          have h3 := hr.inv.cursor.2.2.1
          simp only at h1 h2 h3
          by_cases he : t.i = t.j
          · rw [h2 he]
            omega
          · rw [h1 (by omega)]
            simp only
            omega
        exact ⟨0xFF, { q with u := 2 }, ⟨(hr.frame.trans pq.frame).setU 2, pq.inv.setCursor pq.inv.cursor.2.2.1 hq2 (by omega),
          hr.byte, fun _ => hb, rfl, hpos⟩, rfl⟩

/-- READ_STUFFED (41_stuffed_reader.md R121). -/
theorem readStuffed_spec {s : State} (h : DataInv s) : StuffedDone s (readStuffed s) := by
  unfold readStuffed
  split
  · rename_i hij
    exact stuffedFast_spec h hij
  · rename_i hij
    refine Res.Sat.bind ((plainRead_spec h .stuffedFirst).mono (fun _ _ p => p) ?_) ?_
    · rintro w q ⟨hi, ⟨rfl, ho⟩ | ⟨n, rfl, hw⟩⟩
      · exact .firstEnds _ hi ho
      · exact .firstWaits n _ hi hw
    · intro x t p
      exact stuffedAfterFirst_spec p hij

end Sys2Proof.Machine
end

