-- ==== Sys2Proof/Tests/Slice0.lean ====
section
/-! SUPPORT. Small tests whose expected results are 95_test_vectors.md's or are worked out by hand from a
rule named beside them, and for each obligation with hypotheses a state that meets them. -/

open Sys2Proof Sys2Proof.Machine

namespace Sys2Proof.Tests

/-! ## States to test on (95_test_vectors.md, Conventions: `sp = j`, storage holds the last `j` bytes) -/

/-- Storage listing these bytes from an index on. -/
def cells (k : Nat) : List Byte → Memory
  | [] => []
  | v :: vs => (k, v) :: cells (k + 1) vs

/-- Capacity 4; storage is `buf`, and `left` is what the source has revealed beyond it. -/
def st (i u : Nat) (buf left : List Byte) (ended : Bool) : State :=
  { State.afterReset .standard 0 0 0 { seq := buf ++ left, ended := ended } with
    buf := cells 0 buf, i := i, j := buf.length, u := u, sp := buf.length, consumed := buf }

/-- The same with an accumulator. -/
def stAcc (i u : Nat) (buf left : List Byte) (n f1 f2 : Nat) : State :=
  { st i u buf left true with accN := n, accF1 := f1, accF2 := f2 }

/-- The state after the host has written a command word. -/
def after (w : Word) (s : State) : Option State := nextState? (step (s.withFetchWord 32 w.toNat))

/-- What the vectors show of a state. -/
structure View where
  i : Nat
  j : Nat
  u : Nat
  result : Byte
  status : Word
  finfo : Word
  pullcnt : Word
  pos : Nat
  deriving DecidableEq, Repr

/-- What the vectors show of this state. -/
def view (s : State) : View :=
  { i := s.i, j := s.j, u := s.u, result := s.result, status := statusWord s, finfo := s.finfo,
    pullcnt := s.pullcnt, pos := streamPos s }

/-- The first bytes of storage. -/
def stored (n : Nat) (s : State) : List (Option Byte) := (List.range n).map s.buf.read?

/-! ## Which commands have an encoding (30_encoding.md R79) -/

theorem test_wf_refuses_long_readFull : (Instr.readFull (2 ^ 24)).wf = false := by decide

theorem test_wf_refuses_long_ignore : (Instr.ignore (2 ^ 24)).wf = false := by decide

theorem test_wf_takes_longest : (Instr.readFull (2 ^ 24 - 1)).wf = true ∧ (Instr.ignore 0).wf = true := by decide

/-! ## Decoding: words written out as LEN, RSV, OP (30_encoding.md R70, R74; 95_test_vectors.md section 2) -/

theorem test_decode_refill : decode 0b000000000000000000000000_0000_0001 = .ok .refill := by decide

theorem test_decode_readByte : decode 0b000000000000000000000000_0000_0010 = .ok .readByte := by decide

theorem test_decode_readStuffed : decode 0b000000000000000000000000_0000_0011 = .ok .readStuffed := by decide

theorem test_decode_unread : decode 0b000000000000000000000000_0000_0100 = .ok .unread := by decide

theorem test_decode_readFull : decode 0b100000000000000000000000_0000_0101 = .ok (.readFull 8388608) := by decide

theorem test_decode_ignore : decode 0b111111111111111111111111_0000_0110 = .ok (.ignore 16777215) := by decide

theorem test_decode_init : decode 0b000000000000000000000000_0000_1111 = .ok .init := by decide

theorem test_decode_zero_lengths : decode 0x00000005 = .ok (.readFull 0) ∧ decode 0x00000006 = .ok (.ignore 0) := by
  decide

theorem test_decode_reserved_op :
    decode 0x00000000 = .error (.reservedOp 0x0) ∧ decode 0x00000007 = .error (.reservedOp 0x7) ∧
      decode 0x0000000E = .error (.reservedOp 0xE) := by decide

theorem test_decode_reserved_bits :
    decode 0x00000013 = .error (.reservedBits 1) ∧ decode 0xFFFFFFFF = .error (.reservedBits 0xF) := by decide

theorem test_decode_unused_length :
    decode 0x00000101 = .error (.unusedLength 1) ∧ decode 0x0000010F = .error (.unusedLength 1) := by decide

theorem test_encode_words :
    encode (.readFull 3) = 0x00000305 ∧ encode (.ignore 16777215) = 0xFFFFFF06 ∧ encode .init = 0x0000000F := by
  decide

theorem test_table_word : decodeTableWord 32 0x00000405 = some (.readFull 4) ∧ decodeTableWord 33 1 = none := by
  decide

/-! ## The textual syntax (30_encoding.md R79; 95_test_vectors.md PROG-2) -/

theorem test_assemble_count : assembleWord "read_full 3         ; 0x00000305".toList = some 0x00000305 := by decide

theorem test_assemble_hex : assembleWord "ignore 0x40".toList = some 0x00004006 := by decide

theorem test_assemble_out_of_range :
    assembleLine "ignore 16777216".toList = .error (.outOfRange 16777216) := by decide

theorem test_assemble_comment_only : assembleLine " ; nothing".toList = .ok none := by decide

/-! ## REFILL (RF-3, RF-4) -/

theorem test_refill_overlap : (after 0x00000001 (st 3 0 [0xAA, 0xBB, 0xCC] [0xDD] true)).map
    (fun t => (view t, stored 3 t)) =
    some (⟨2, 3, 0, 0, 0x4, 0, 1, 3⟩, [some 0xBB, some 0xCC, some 0xDD]) := by decide

theorem test_refill_unread_bytes : (after 0x00000001 (st 1 0 [0xAA, 0xBB, 0xCC] [0xDD] true)).map view =
    some ⟨1, 3, 0, 0, 0x102, 2, 0, 1⟩ := by decide

/-! ## READ_BYTE (RB-3, RB-4) -/

theorem test_readByte_refills : (after 0x00000002 (st 4 0 [1, 2, 3, 4] [5] true)).map
    (fun t => (view t, stored 3 t)) =
    some (⟨3, 3, 0, 5, 0x4, 0, 1, 5⟩, [some 3, some 4, some 5]) := by decide

theorem test_readByte_end : (after 0x00000002 (st 0 0 [] [] true)).map view =
    some ⟨0, 0, 0, 0, 0x306, 1, 0, 0⟩ := by decide

/-! ## READ_STUFFED (RS-7, RS-2b) -/

theorem test_readStuffed_across_refill :
    (after 0x00000003 (st 3 0 [0x10, 0x20, 0x30, 0xFF] [0x00, 0x55] true)).map (fun t => (view t, stored 4 t)) =
    some (⟨3, 4, 2, 0xFF, 0x0, 0, 2, 5⟩, [some 0x30, some 0xFF, some 0x00, some 0x55]) := by decide

theorem test_readStuffed_missing_zero : (after 0x00000003 (st 0 0 [0xFF, 0x01, 0x22, 0x33] [] true)).map view =
    some ⟨1, 4, 1, 0, 0x202, 1, 0, 1⟩ := by decide

/-! ## UNREAD (UN-1, UN-2) -/

theorem test_unread_shifts :
    (after 0x00000004 { stAcc 5 2 [1, 2, 3, 0xFF, 0] [] 12 0xABCD 0xFFFF with
      cfg := { Config.standard with bufCap := 8 } }).map
      (fun t => (t.i, t.u, t.accN, t.accF1, t.accF2)) = some (3, 0, 4, 0xAB, 0xFF) := by decide

theorem test_unread_few_bits : (after 0x00000004 (stAcc 3 1 [1, 2, 3] [] 7 0x7F 0x3)).map
    (fun t => (t.i, t.u, t.accN, t.accF1, t.accF2)) = some (2, 0, 7, 0x7F, 0x3) := by decide

/-! ## READ_FULL (RFU-1, RFU-4) -/

theorem test_readFull_refills : (after 0x00000405 (st 1 0 [0xAA, 0xBB, 0xCC] [0xDD, 0xEE] true)).map
    (fun t => (view t, t.dataOut, t.xfer)) =
    some (⟨4, 4, 0, 0, 0x0, 0, 2, 5⟩, [0xBB, 0xCC, 0xDD, 0xEE], 4) := by decide +kernel

theorem test_readFull_zero : (after 0x00000005 (stAcc 2 2 [0xFF, 0x00] [] 8 0xFF00 0x1)).map
    (fun t => (view t, t.dataOut, t.accN, t.accF1, t.accF2)) =
    some (⟨0, 2, 0, 0, 0x402, 0, 0, 0⟩, [], 0, 0xFF, 0x0) := by decide +kernel

/-! ## IGNORE (IG-1, IG-3) -/

theorem test_ignore_refills : (after 0x00000606 (st 0 0 [0x10, 0x11, 0x12, 0x13] [0x14, 0x15, 0x16] true)).map
    (fun t => (view t, t.xfer, stored 4 t)) =
    some (⟨4, 4, 0, 0, 0x0, 0, 2, 6⟩, 6, [some 0x12, some 0x13, some 0x14, some 0x15]) := by decide +kernel

theorem test_ignore_end : (after 0x00000706 (st 0 0 [] [1, 2, 3, 4, 5] true)).map
    (fun t => (view t, t.xfer, stored 2 t)) =
    some (⟨2, 2, 0, 0, 0x306, 2, 0, 5⟩, 5, [some 4, some 5]) := by decide +kernel

/-! ## INIT, acceptance (AC-1, AC-5, AC-6, AC-7) -/

/-- The state of AC-1 with a fault latched. -/
def faulted : State := latchFault .illegalCommand 7 (st 0 0 [1] [] true)

/-- A READ_BYTE that waits on a source that is still live. -/
def waitingRead : State := park (.pull 0 .readByte) (st 0 0 [] [] false)

theorem test_init_clears : (after 0x0000000F { faulted with srcEnd := true, accN := 9 }).map
    (fun t => (view t, t.accN)) = some (⟨0, 0, 0, 0, 0x0, 0, 0, 0⟩, 9) := by decide

theorem test_illegal_word : (after 0x00000007 (st 0 0 [1] [] true)).map view =
    some ⟨0, 1, 0, 0, 0x502, 7, 0, 0⟩ := by decide

theorem test_refused_word : (after 0x0000010F faulted).map view = some ⟨0, 1, 0, 0, 0x512, 7, 0, 0⟩ := by decide

theorem test_dropped_word : (after 0x0000000F waitingRead).map (fun t => (view t, t.waiting)) =
    some (⟨0, 0, 0, 0, 0x9, 0, 0, 0⟩, some (.pull 0 .readByte)) := by decide

/-- 46_session_control.md R232 with 40_refill.md R105: the byte that ends the wait is the result; the pull
takes what the source has and, the source being over, reads SRC_END. -/
theorem test_wait_ends :
    (nextState? (step { waitingRead with
      source := { seq := [0x41], ended := false }, inputs := [.sourceEnd] })).map view =
    some ⟨1, 1, 0, 0x41, 0x4, 0, 1, 1⟩ := by decide

/-- 70_reset_and_hazards.md R281: reset abandons a waiting command. -/
theorem test_reset_abandons : (nextState? (step { waitingRead with inputs := [.reset] })).map
    (fun t => (view t, t.waiting)) = some (⟨0, 0, 0, 0, 0x0, 0, 0, 0⟩, none) := by decide

/-- 10_state.md R35: CAPR is at 0x24. -/
theorem test_read_capr : (nextState? (step { st 0 0 [] [] true with inputs := [.busRead 0x24 4] })).map
    (fun t => t.reads) = some [4] := by decide

/-! ## The copy primitive (CP-1 to CP-6) -/

theorem test_copy_empty_dest :
    copy [] [(0x01 : Byte)] = .error .copyEmptyDest ∧ copy [] ([] : List Byte) = .error .copyEmptyDest := by decide

theorem test_copy_lengths :
    copy [0x09, 0x09] ([] : List Byte) = .ok ([0x09, 0x09], 0) ∧
    copy [0x09, 0x09, 0x09] [(0x01 : Byte), 0x02] = .ok ([0x01, 0x02, 0x09], 2) ∧
    copy [0x09, 0x09] [(0x01 : Byte), 0x02] = .ok ([0x01, 0x02], 2) ∧
    copy [0x09] [(0x01 : Byte), 0x02] = .ok ([0x01], 1) := by decide

/-! ## States that meet the obligations' hypotheses -/

/-- `DataInv` as one question that can be decided on a concrete state. -/
theorem dataInv_of {s : State}
    (h : s.cfg.Valid ∧ (s.u ≤ 2 ∧ s.u ≤ s.i ∧ s.i ≤ s.j ∧ s.j ≤ s.cfg.bufCap) ∧
      (s.buf.wf = true ∧ ∀ c ∈ s.buf, c.1 < s.cfg.bufCap) ∧
      (s.j ≤ s.sp ∧ s.sp ≤ s.source.seq.length ∧
        ∀ k, k < s.j → s.buf.read? k = s.source.seq[s.sp - s.j + k]?) ∧
      ((s.srcEnd = true → s.source.ended = true ∧ s.sp = s.source.seq.length) ∧
        s.source.seq.take s.sp <:+ s.consumed) ∧
      ((s.fault = false → s.fcode = 0 ∧ s.finfo = 0) ∧
        (s.fault = true → 1 ≤ s.fcode.toNat ∧ s.fcode.toNat ≤ 5)) ∧
      (s.pullcnt.toNat ≤ s.cfg.bufCap ∧ s.xfer.toNat < 2 ^ 24) ∧
      (s.accN ≤ s.cfg.accNMax ∧ s.accF1 < 2 ^ s.cfg.accW ∧ s.accF2 < 2 ^ s.cfg.accW)) : DataInv s :=
  ⟨h.1, h.2.1, h.2.2.1, h.2.2.2.1, h.2.2.2.2.1, h.2.2.2.2.2.1, h.2.2.2.2.2.2.1, h.2.2.2.2.2.2.2⟩

/-- `DataInv` does not speak of the host's readiness. -/
theorem dataInv_ready {s : State} (h : DataInv s) (o : Option Nat) : DataInv { s with outReady := o } :=
  ⟨h.cfg, h.cursor, h.storage, h.window, h.source, h.latch, h.count, h.acc⟩

/-- Between commands `DataInv` is the whole invariant. -/
theorem inv_of_idle {s : State} (h : DataInv s) (hb : s.busy = false) (hw : s.waiting = none) : Inv s :=
  ⟨h, by rw [hb, hw]; rfl, fun hb' => by rw [hb] at hb'; contradiction,
    fun w hw' => by rw [hw] at hw'; contradiction⟩

/-- Idle, between commands, four unread bytes or fewer; `DataInv` holds. -/
theorem witness_buffered : DataInv (st 1 0 [0x12, 0xFF, 0x00, 0x34] [0x56] true) := dataInv_of (by decide)

theorem witness_DecodeOfEncode : (Instr.readFull (2 ^ 24 - 1)).wf = true ∧ Instr.init.wf = true := by decide

theorem witness_EncodeOfDecode : ∃ i, decode 0xFFFFFF06 = .ok i := ⟨.ignore 16777215, by decide⟩

theorem witness_AssembleOfText : (Instr.ignore (2 ^ 24 - 1)).wf = true := by decide

/-- A window with room for unlisted offsets, and a base address that is not 0. -/
def wide : State := { st 1 0 [0x12, 0xFF] [] true with
  cfg := { Config.standard with base := 0x100, window := 0x30 } }

theorem wide_valid : wide.cfg.Valid := by decide

theorem witness_StepRunsAcceptedCommand :
    (∃ s : State, s.cfg.Valid ∧ s.inputs = [.busWrite s.cfg.base 4 0x2] ∧ s.busy = false ∧
      decode 0x2 = .ok .readByte ∧ s.fault = false) ∧
    (∃ s : State, s.cfg.Valid ∧ s.inputs = [.busWrite s.cfg.base 4 0xF] ∧ s.busy = false ∧
      decode 0xF = .ok .init ∧ s.fault = true) :=
  ⟨⟨{ wide with inputs := [.busWrite 0x100 4 0x2] }, by decide⟩,
    ⟨{ wide with inputs := [.busWrite 0x100 4 0xF], fault := true, fcode := 3 }, by decide⟩⟩

theorem witness_FetchedWordRuns :
    wide.cfg.Valid ∧ wide.busy = false ∧ wide.fault = false ∧ decodeTableWord 32 0x305 = some (.readFull 3) := by
  decide

theorem witness_BusyDropsCommands :
    ∃ s : State, s.cfg.Valid ∧ s.inputs = [.busWrite s.cfg.base 4 0xF] ∧ s.busy = true :=
  ⟨{ waitingRead with inputs := [.busWrite 0 4 0xF] }, by decide⟩

theorem witness_FaultRefusesCommands :
    ∃ s : State, s.cfg.Valid ∧ s.inputs = [.busWrite s.cfg.base 4 0x10F] ∧ s.busy = false ∧ s.fault = true ∧
      decode 0x10F ≠ .ok .init :=
  ⟨{ faulted with inputs := [.busWrite 0 4 0x10F] }, by decide⟩

theorem witness_IllegalWordRaises :
    (∃ s : State, s.inputs = [.busWrite s.cfg.base 4 0x7] ∧ Inv s ∧ s.busy = false ∧
      (decode 0x7).toOption = none ∧ s.fault = false) ∧
    (∃ s : State, s.inputs = [.busWrite s.cfg.base 4 0x0] ∧ Inv s ∧ s.busy = false ∧
      (decode 0x0).toOption = none ∧ s.fault = true) :=
  ⟨⟨{ st 0 0 [1] [] true with inputs := [.busWrite 0 4 0x7] }, rfl,
      inv_of_idle (dataInv_of (by decide)) rfl rfl, rfl, by decide, rfl⟩,
    ⟨{ faulted with inputs := [.busWrite 0 4 0x0] }, rfl,
      inv_of_idle (dataInv_of (by decide)) rfl rfl, rfl, by decide, rfl⟩⟩

/-- Every offset of the register map, and the unlisted ones at its end. -/
theorem witness_RegisterReadsAnswer :
    ∀ off ∈ [0x00, 0x04, 0x08, 0x0C, 0x10, 0x14, 0x18, 0x1C, 0x20, 0x24, 0x28, 0x2C],
      ∃ s : State, s.cfg.Valid ∧ off % 4 = 0 ∧ off < s.cfg.window ∧
        s.inputs = [.busRead (s.cfg.base + off) 4] ∧ s.busy = false :=
  fun off h => ⟨{ wide with inputs := [.busRead (0x100 + off) 4] }, wide_valid,
    (by decide : ∀ o ∈ [0x00, 0x04, 0x08, 0x0C, 0x10, 0x14, 0x18, 0x1C, 0x20, 0x24, 0x28, 0x2C], o % 4 = 0) off h,
    (by decide : ∀ o ∈ [0x00, 0x04, 0x08, 0x0C, 0x10, 0x14, 0x18, 0x1C, 0x20, 0x24, 0x28, 0x2C], o < 0x30) off h,
    rfl, rfl⟩

theorem witness_BusyReadsAnswer :
    ∀ off ∈ [0x00, 0x04, 0x24, 0x28], ∃ s : State, s.cfg.Valid ∧ off % 4 = 0 ∧ off < s.cfg.window ∧
      s.inputs = [.busRead (s.cfg.base + off) 4] ∧ s.busy = true :=
  fun off h => ⟨{ wide with inputs := [.busRead (0x100 + off) 4], busy := true }, wide_valid,
    (by decide : ∀ o ∈ [0x00, 0x04, 0x24, 0x28], o % 4 = 0) off h,
    (by decide : ∀ o ∈ [0x00, 0x04, 0x24, 0x28], o < 0x30) off h, rfl, rfl⟩

theorem witness_OtherWritesIgnored :
    ∀ off ∈ [0x04, 0x24, 0x28], ∃ s : State, s.cfg.Valid ∧ off % 4 = 0 ∧ off < s.cfg.window ∧ off ≠ 0 ∧
      s.inputs = [.busWrite (s.cfg.base + off) 4 0xFFFFFFFF] :=
  fun off h => ⟨{ wide with inputs := [.busWrite (0x100 + off) 4 0xFFFFFFFF] }, wide_valid,
    (by decide : ∀ o ∈ [0x04, 0x24, 0x28], o % 4 = 0) off h,
    (by decide : ∀ o ∈ [0x04, 0x24, 0x28], o < 0x30) off h,
    (by decide : ∀ o ∈ [0x04, 0x24, 0x28], o ≠ 0) off h, rfl⟩

theorem witness_OddAccessesRefused :
    (∃ s : State, s.cfg.Valid ∧ 0x2F < s.cfg.window ∧ 0x2F % 4 ≠ 0 ∧
      s.inputs = [.busWrite (s.cfg.base + 0x2F) 4 1]) ∧
    (∃ s : State, s.cfg.Valid ∧ 0x04 < s.cfg.window ∧ 2 ≠ 4 ∧ s.inputs = [.busRead (s.cfg.base + 0x04) 2]) :=
  ⟨⟨{ wide with inputs := [.busWrite 0x12F 4 1] }, by decide⟩,
    ⟨{ wide with inputs := [.busRead 0x104 2] }, by decide⟩⟩

theorem witness_AccumulatorMovesBetweenCommands :
    (∃ s : State, s.inputs = [.accSet 1 1 1] ∧ s.busy = true) ∧
    (∃ s : State, s.inputs = [.accSet 32 (2 ^ 32 - 1) 0] ∧ s.busy = false ∧ 32 ≤ s.cfg.accNMax ∧
      2 ^ 32 - 1 < 2 ^ s.cfg.accW ∧ 0 < 2 ^ s.cfg.accW) :=
  ⟨⟨{ waitingRead with inputs := [.accSet 1 1 1] }, by decide⟩,
    ⟨{ wide with inputs := [.accSet 32 (2 ^ 32 - 1) 0] }, by decide⟩⟩

/-- All of storage read, the source over. -/
def drained : State := st 4 1 [0x10, 0x20, 0x30, 0xFF] [] true

/-- All of storage read, an 0x00 next. -/
def refillable : State := st 4 1 [0x10, 0x20, 0x30, 0xFF] [0x00, 0x55] true

/-- All of storage read, one byte there, the source then silent. -/
def silent : State := st 4 1 [0x10, 0x20, 0x30, 0xFF] [0x00] false

theorem witness_RefillResult :
    (DataInv refillable ∧ refillable.i = refillable.j ∧ PullAnswers refillable) ∧
    (DataInv drained ∧ drained.i = drained.j ∧ PullAnswers drained) :=
  ⟨⟨dataInv_of (by decide), rfl, .inr (.inl rfl)⟩, ⟨dataInv_of (by decide), rfl, .inr (.inl rfl)⟩⟩

theorem witness_OnlyRefillRaisesUnreadBytes :
    (∃ s : State, DataInv s ∧ s.i ≠ s.j) ∧
    (∃ s t : State, s.fcode = 0 ∧ Instr.unread ≠ .refill ∧ exec .unread s = .next t) ∧
    (∃ s t : State, s.fcode = 0 ∧ resume s = .next t) :=
  ⟨⟨_, witness_buffered, by decide⟩, ⟨wide, _, rfl, by decide, rfl⟩,
    ⟨waitingRead, _, rfl, rfl⟩⟩

theorem witness_RefillKeepsStreamPosition :
    ∃ t, DataInv silent ∧ exec .refill silent = .next t := ⟨_, dataInv_of (by decide), rfl⟩

/-- For each clause; READ_STUFFED with nothing left, and with a last 0xFF. -/
theorem witness_SilentSourceWaits :
    (DataInv silent ∧ silent.i = silent.j ∧ ¬ PullAnswers silent) ∧
    (∃ s : State, DataInv s ∧ s.source.ended = false ∧ s.source.seq[streamPos s]? = none) ∧
    (∃ s : State, DataInv s ∧ s.source.ended = false ∧ s.source.seq[streamPos s]? = some 0xFF ∧
      s.source.seq[streamPos s + 1]? = none ∧ s.i + 1 = s.j) :=
  ⟨⟨dataInv_of (by decide), rfl, by unfold PullAnswers; decide⟩,
    ⟨st 4 1 [1, 2, 3, 4] [] false, dataInv_of (by decide), rfl, by decide⟩,
    ⟨st 3 0 [1, 2, 3, 0xFF] [] false, dataInv_of (by decide), rfl, by decide⟩⟩

theorem witness_ReadByteBuffered : ∃ s : State, DataInv s ∧ s.i < s.j := ⟨_, witness_buffered, by decide⟩

theorem witness_ReadByteRefills :
    DataInv refillable ∧ refillable.i = refillable.j ∧ PullAnswers refillable ∧ 0 < refillCount refillable :=
  ⟨dataInv_of (by decide), rfl, .inr (.inl rfl), by decide⟩

theorem witness_ReadsRaiseEndOfStream :
    DataInv drained ∧ drained.i = drained.j ∧ PullAnswers drained ∧ refillCount drained = 0 :=
  ⟨dataInv_of (by decide), rfl, .inr (.inl rfl), by decide⟩

/-- One state for each case, each with exactly two unread bytes. -/
theorem witness_StuffedFastPath :
    ∀ xy ∈ [((0x12 : Byte), (0x34 : Byte)), (0xFF, 0x00), (0xFF, 0xFF)],
      ∃ s : State, DataInv s ∧ s.i + 2 ≤ s.j ∧ storageByte s.buf s.i = xy.1 ∧
        storageByte s.buf (s.i + 1) = xy.2 := by
  intro xy h
  simp only [List.mem_cons, List.not_mem_nil, or_false] at h
  obtain rfl | rfl | rfl := h
  · exact ⟨st 0 0 [0x12, 0x34] [] true, dataInv_of (by decide), by decide⟩
  · exact ⟨st 0 0 [0xFF, 0x00] [] true, dataInv_of (by decide), by decide⟩
  · exact ⟨st 0 0 [0xFF, 0xFF] [] true, dataInv_of (by decide), by decide⟩

theorem witness_StuffedLastByte :
    ∃ s : State, DataInv s ∧ s.i + 1 = s.j ∧ storageByte s.buf s.i ≠ 0xFF :=
  ⟨st 3 0 [1, 2, 3, 0x44] [] true, dataInv_of (by decide), by decide⟩

/-- The state of RS-7. -/
def acrossRefill : State := st 3 0 [0x10, 0x20, 0x30, 0xFF] [0x00, 0x55] true

theorem witness_StuffedAcrossRefill :
    DataInv acrossRefill ∧ acrossRefill.i + 1 = acrossRefill.j ∧ 2 < acrossRefill.j ∧
      storageByte acrossRefill.buf acrossRefill.i = 0xFF ∧ PullAnswers acrossRefill ∧
      0 < refillCount acrossRefill ∧ acrossRefill.source.seq[acrossRefill.sp]? = some 0x00 :=
  ⟨dataInv_of (by decide), by decide, by decide, by decide, .inr (.inl rfl), by decide, by decide⟩

theorem witness_StuffedReadsStream :
    (DataInv acrossRefill ∧ SourceAnswers 2 acrossRefill ∧
      acrossRefill.source.seq[streamPos acrossRefill]? = some 0xFF ∧
      acrossRefill.source.seq[streamPos acrossRefill + 1]? = some 0x00) ∧
    (∃ s : State, DataInv s ∧ SourceAnswers 2 s ∧ s.source.seq[streamPos s]? = some 0x12 ∧
      (0x12 : Byte) ≠ 0xFF) :=
  ⟨⟨dataInv_of (by decide), .inl rfl, by decide, by decide⟩,
    ⟨st 0 0 [] [0x12] true, dataInv_of (by decide), .inl rfl, by decide, by decide⟩⟩

/-- On the fast path and on the fallback path. -/
theorem witness_StuffedMissingZero :
    (∃ s : State, DataInv s ∧ SourceAnswers 2 s ∧ s.source.seq[streamPos s]? = some 0xFF ∧
      s.source.seq[streamPos s + 1]? = some 0x01 ∧ (0x01 : Byte) ≠ 0x00 ∧ s.i + 2 ≤ s.j) ∧
    (∃ s : State, DataInv s ∧ SourceAnswers 2 s ∧ s.source.seq[streamPos s]? = some 0xFF ∧
      s.source.seq[streamPos s + 1]? = some 0x07 ∧ (0x07 : Byte) ≠ 0x00 ∧ s.j < s.i + 2) :=
  ⟨⟨st 0 0 [0xFF, 0x01] [] true, dataInv_of (by decide), .inl rfl, by decide⟩,
    ⟨st 3 0 [1, 2, 3, 0xFF] [0x07, 0x55] true, dataInv_of (by decide), .inl rfl, by decide⟩⟩

theorem witness_StuffedEndOfStream :
    (DataInv drained ∧ drained.source.ended = true ∧ drained.source.seq[streamPos drained]? = none) ∧
    (∃ s : State, DataInv s ∧ s.source.ended = true ∧ s.source.seq[streamPos s]? = some 0xFF ∧
      s.source.seq[streamPos s + 1]? = none) :=
  ⟨⟨dataInv_of (by decide), rfl, by decide⟩,
    ⟨st 0 0 [0xFF] [] true, dataInv_of (by decide), rfl, by decide⟩⟩

theorem witness_UnreadResult :
    (∃ s : State, s.u ≤ s.i ∧ s.accN = 8) ∧ (∃ s : State, s.u ≤ s.i ∧ s.accN = 7) :=
  ⟨⟨stAcc 2 2 [0xFF, 0x00] [] 8 0xFF00 1, by decide⟩, ⟨stAcc 2 2 [0xFF, 0x00] [] 7 0x7F 1, by decide⟩⟩

theorem witness_UnreadUndoesReadStuffed :
    ∃ t, DataInv acrossRefill ∧ acrossRefill.fault = false ∧ exec .readStuffed acrossRefill = .next t ∧
      t.busy = false ∧ t.fault = false := ⟨_, dataInv_of (by decide), rfl, rfl, rfl, rfl⟩

theorem witness_ReadFullBuffered :
    ∃ s : State, DataInv s ∧ 0 < 3 ∧ 3 < 2 ^ 24 ∧ 3 ≤ s.j - (rewound s).i ∧ HostAccepts 3 s :=
  ⟨_, witness_buffered, by decide, by decide, by decide, fun _ h => by contradiction⟩

theorem witness_ReadFullDelivers :
    ∃ s : State, DataInv s ∧ 0 < 6 ∧ 6 < 2 ^ 24 ∧ SourceAnswers 6 (rewound s) ∧ HostAccepts 6 s ∧
      streamPos (rewound s) + 6 ≤ s.source.seq.length :=
  ⟨{ stAcc 4 1 [0x10, 0x20, 0x30, 0xFF] [0, 1, 2, 3, 4] 8 0 0 with outReady := some 6 },
    dataInv_of (by decide), by decide, by decide, .inl rfl,
    fun m h => by rw [← Option.some.inj h], by decide⟩

theorem witness_ReadFullEndOfStream :
    (∃ s : State, DataInv s ∧ 7 < 2 ^ 24 ∧ s.source.ended = true ∧ HostAccepts 7 s ∧
      s.source.seq.length < streamPos (rewound s) + 7) :=
  ⟨st 0 0 [] [1, 2, 3, 4, 5, 6] true, dataInv_of (by decide), by decide, rfl, fun _ h => by contradiction, by decide⟩

theorem witness_IgnoreBuffered :
    ∀ n ∈ [0, 3], ∃ s : State, DataInv s ∧ n < 2 ^ 24 ∧ n ≤ s.j - (rewound s).i :=
  fun n h => ⟨_, witness_buffered, (by decide : ∀ k ∈ [0, 3], k < 2 ^ 24) n h,
    (by decide : ∀ k ∈ [0, 3], k ≤ (st 1 0 [0x12, 0xFF, 0x00, 0x34] [0x56] true).j -
      (rewound (st 1 0 [0x12, 0xFF, 0x00, 0x34] [0x56] true)).i) n h⟩

/-- A source that is still live, with a storage full beyond the bytes skipped. -/
theorem witness_IgnoreSkips :
    ∃ s : State, DataInv s ∧ 2 < 2 ^ 24 ∧ SourceAnswers 2 (rewound s) ∧
      streamPos (rewound s) + 2 ≤ s.source.seq.length :=
  ⟨st 0 0 [] [1, 2, 3, 4, 5, 6] false, dataInv_of (by decide), by decide, .inr (by decide), by decide⟩

theorem witness_IgnoreEndOfStream :
    ∃ s : State, DataInv s ∧ 7 < 2 ^ 24 ∧ s.source.ended = true ∧
      s.source.seq.length < streamPos (rewound s) + 7 :=
  ⟨st 0 0 [] [1, 2, 3, 4, 5] true, dataInv_of (by decide), by decide, rfl, by decide⟩

/-- A source with all the bytes, and one that ends before the first part's end, at it, and inside the second part. -/
theorem witness_TransfersSplit :
    (∃ s : State, DataInv s ∧ 3 + 3 < 2 ^ 24 ∧ (0 < 3 ∧ HostAccepts (3 + 3) s) ∧ SourceAnswers (3 + 3) (rewound s) ∧
      streamPos (rewound s) + (3 + 3) ≤ s.source.seq.length) ∧
    (∀ a ∈ [7, 6, 5], ∃ s : State, DataInv s ∧ a + 2 < 2 ^ 24 ∧ (0 < a ∧ HostAccepts (a + 2) s) ∧
      s.source.ended = true ∧ s.source.seq.length < streamPos (rewound s) + (a + 2)) :=
  ⟨⟨st 0 0 [] [1, 2, 3, 4, 5, 6] true, dataInv_of (by decide), by decide, ⟨by decide, fun _ h => by contradiction⟩,
      .inl rfl, by decide⟩,
    fun a h => ⟨st 0 0 [] [1, 2, 3, 4, 5, 6] true, dataInv_of (by decide),
      (by decide : ∀ k ∈ [7, 6, 5], k + 2 < 2 ^ 24) a h,
      ⟨(by decide : ∀ k ∈ [7, 6, 5], 0 < k) a h, fun _ h => by contradiction⟩, rfl,
      (by decide : ∀ k ∈ [7, 6, 5], (st 0 0 [] [1, 2, 3, 4, 5, 6] true).source.seq.length <
        streamPos (rewound (st 0 0 [] [1, 2, 3, 4, 5, 6] true)) + (k + 2)) a h⟩⟩

theorem witness_ResetAbandonsCommand : ∃ s : State, s.inputs = [.reset] ∧ s.busy = true :=
  ⟨{ waitingRead with inputs := [.reset] }, by decide⟩

theorem witness_AttachedSourceStartsSession : ∃ s : State, s.inputs = [.attach .fresh] :=
  ⟨{ wide with inputs := [.attach .fresh] }, rfl⟩

theorem witness_SessionsAreIndependent :
    faulted.nextSource = drained.nextSource ∧ faulted.accN = drained.accN ∧ faulted.accF1 = drained.accF1 ∧
      faulted.accF2 = drained.accF2 ∧ faulted.outReady = drained.outReady ∧ faulted.dataOut = drained.dataOut := by
  decide

theorem witness_CopyLaws : ([] : List Byte) = [] ∧ [(0x09 : Byte)] ≠ [] := by decide

/-- At the least `BUF_CAP` and `ACC_W` with a full accumulator, and at the greatest `BUF_CAP` with an empty one. -/
theorem witness_ResetMeetsInvariants :
    (∃ (c : Config) (n f1 f2 : Nat), c.bufCap = 3 ∧ c.accW = 8 ∧ n = c.accNMax ∧ f1 + 1 = 2 ^ c.accW ∧
      c.Valid ∧ n ≤ c.accNMax ∧ f1 < 2 ^ c.accW ∧ f2 < 2 ^ c.accW) ∧
    (∃ c : Config, c.bufCap = 2 ^ 31 ∧ c.Valid ∧ 0 ≤ c.accNMax ∧ 0 < 2 ^ c.accW) :=
  ⟨⟨⟨3, 8, 7, 0x1000, 0x28⟩, 7, 255, 255, by decide⟩, ⟨⟨2 ^ 31, 64, 64, 4, 0x40⟩, by decide⟩⟩

/-- A host write that starts a READ_BYTE which then waits, from a state that meets the invariants. -/
theorem witness_StepKeepsInvariants :
    ∃ s t : State, Inv s ∧ step s = .next t ∧ t.busy = true :=
  ⟨{ st 4 1 [0x10, 0x20, 0x30, 0xFF] [] false with inputs := [.busWrite 0 4 0x2] }, _, inv_of_idle (dataInv_of (by decide)) rfl rfl, rfl, rfl⟩

theorem witness_StepNeverFaults : Inv refillable := inv_of_idle (dataInv_of (by decide)) rfl rfl

theorem witness_EveryCommandAnswers : DataInv refillable ∧ (Instr.readFull (2 ^ 24 - 1)).wf = true :=
  ⟨dataInv_of (by decide), by decide⟩

theorem witness_ParametersNeverChange : ∃ t, step refillable = .next t := ⟨_, rfl⟩

theorem witness_FaultIsSticky :
    ∃ s t : State, Inv s ∧ s.fault = true ∧ step s = .next t ∧ (∀ rest, s.inputs ≠ .reset :: rest) ∧
      (∀ w rest, s.inputs = .busWrite s.cfg.base 4 w :: rest → decode w ≠ .ok .init) :=
  ⟨{ faulted with inputs := [.busWrite 0 4 0x4] }, _, inv_of_idle (dataInv_of (by decide)) rfl rfl, rfl, rfl,
    fun rest h => by simp at h,
    fun w rest h => by
      injection h with h
      injection h with _ _ h
      rw [← h]
      decide⟩

theorem witness_OnlyCompletedReadsWriteResult :
    (∃ s t : State, s.fault = false ∧ exec .unread s = .next t ∧ Instr.unread ≠ .init ∧
      Instr.unread ≠ .readByte ∧ Instr.unread ≠ .readStuffed) ∧
    (∃ t, (st 4 1 [1, 2, 3, 4] [] false).fault = false ∧ exec .readByte (st 4 1 [1, 2, 3, 4] [] false) = .next t ∧ t.busy = true) ∧
    (∃ t, drained.fault = false ∧ exec .readByte drained = .next t ∧ t.fault = true) :=
  ⟨⟨wide, _, rfl, rfl, by decide, by decide, by decide⟩, ⟨_, rfl, rfl, rfl⟩, ⟨_, rfl, rfl, rfl⟩⟩

/-- A READ_FULL that waits after the byte the source had. -/
theorem witness_ArrivalMakesNoDifference :
    ∃ t n k, DataInv silent ∧ (Instr.readFull 3).wf = true ∧ exec (.readFull 3) silent = .next t ∧
      t.waiting = some (.pull n k) := ⟨_, _, _, dataInv_of (by decide), by decide, rfl, rfl⟩

theorem witness_AcceptanceMakesNoDifference :
    ∃ (s t : State) (m w c p : Nat), DataInv s ∧ 3 < 2 ^ 24 ∧ s.outReady = some m ∧
      exec (.readFull 3) s = .next t ∧ t.waiting = some (.emit w c p) :=
  ⟨{ st 0 0 [1, 2, 3, 4] [] true with outReady := some 2 }, _, _, _, _, _, dataInv_of (by decide), by decide,
    rfl, rfl, rfl⟩

/-- One stream held with capacity 4 and with capacity 3. -/
theorem witness_ChunkingMakesNoDifference :
    ∃ s t : State, DataInv s ∧ DataInv t ∧ SameStream s t ∧ s.source.ended = true ∧ s.outReady = none ∧
      Instr.readStuffed ≠ .refill ∧ Instr.readStuffed.wf = true ∧ s.cfg ≠ t.cfg ∧ s.i ≠ t.i :=
  ⟨acrossRefill, { acrossRefill with
      cfg := { Config.standard with bufCap := 3 }, buf := cells 0 [0x20, 0x30, 0xFF], i := 2, j := 3 },
    dataInv_of (by decide), dataInv_of (by decide),
    ⟨rfl, rfl, by decide, rfl, rfl, rfl, rfl, rfl, rfl, rfl, rfl, rfl, rfl, rfl⟩, rfl, rfl, by decide, rfl,
    by decide, by decide⟩

theorem witness_StorageReadAfterWrite : Memory.wf (cells 0 [1, 2, 3]) = true := by decide

/-- A source that is live and short of bytes, and one that has enough to fill storage. -/
theorem witness_TransfersWaitForSource :
    (∃ s : State, DataInv s ∧ 0 < 7 ∧ 7 < 2 ^ 24 ∧ s.source.ended = false ∧ HostAccepts 7 s ∧
      s.source.seq.length < streamPos (rewound s) + 7) ∧
    (∃ s : State, DataInv s ∧ 0 < 2 ∧ 2 < 2 ^ 24 ∧ s.source.ended = false ∧ HostAccepts 2 s ∧
      streamPos (rewound s) + 2 ≤ s.source.seq.length) :=
  ⟨⟨st 0 0 [] [1, 2, 3, 4, 5, 6] false, dataInv_of (by decide), by decide, by decide, rfl,
      fun _ h => by contradiction, by decide⟩,
    ⟨st 0 0 [] [1, 2, 3, 4, 5, 6] false, dataInv_of (by decide), by decide, by decide, rfl,
      fun _ h => by contradiction, by decide⟩⟩

/-- A host that accepts nothing, and one that accepts a byte less than is wanted. -/
theorem witness_ReadFullWaitsForHost :
    ∀ m ∈ [0, 5], ∃ s : State, DataInv s ∧ 6 < 2 ^ 24 ∧ s.outReady = some m ∧ m < 6 ∧
      SourceAnswers (m + 1) (rewound s) ∧ streamPos (rewound s) + m < s.source.seq.length :=
  fun m h => ⟨{ st 0 0 [] [1, 2, 3, 4, 5, 6] true with outReady := some m },
    dataInv_ready (s := st 0 0 [] [1, 2, 3, 4, 5, 6] true) (dataInv_of (by decide)) (some m),
    by decide, rfl, (by decide : ∀ k ∈ [0, 5], k < 6) m h, .inl rfl,
    (by decide : ∀ k ∈ [0, 5], streamPos (rewound (st 0 0 [] [1, 2, 3, 4, 5, 6] true)) + k < 6) m h⟩

/-- For each way a run goes: it ends, it waits for ever, it comes to a move outside the model. -/
theorem witness_RunEndsOrWaits :
    (∃ s t, Inv s ∧ RunEndsAt s t) ∧ (∃ s, Inv s ∧ RunWaitsForEver s) ∧ (∃ s, Inv s ∧ RunRefused s) := by
  have hw : Inv waitingRead := ⟨dataInv_of (by decide), rfl, fun _ => rfl, fun w h => by
    have : w = .pull 0 .readByte := (Option.some.inj h).symm
    rw [this]
    exact ⟨rfl, by decide, rfl, rfl, rfl, trivial⟩⟩
  refine ⟨⟨refillable, refillable, inv_of_idle (dataInv_of (by decide)) rfl rfl, .here _, rfl, by decide⟩,
    ⟨waitingRead, hw, waitingRead, .here _, rfl, rfl⟩, ?_⟩
  refine ⟨{ refillable with inputs := [.busRead 2 4, .busWrite 0 4 1] },
    inv_of_idle (dataInv_of (by decide)) rfl rfl, _, .busAccess 2 4, .here _, ?_, rfl⟩
  exact fun h => absurd (h.2 (.busWrite 0 4 1) (.tail _ (.head _))) (by decide)

/-- 46_session_control.md R236: a run whose last command faulted is a faulted run, also when the next move
pending is a reset, which would clear the fault. -/
theorem test_faulted_run_with_reset_pending : RunFaulted { faulted with inputs := [.reset, .attach .fresh] } :=
  ⟨_, ⟨.here _, rfl, by decide⟩, rfl⟩

/-- The state after INIT in a machine that has delivered and consumed bytes before. -/
def secondSession : State :=
  clearSession { st 4 0 [1, 2, 3, 4] [] true with
    buf := [], dataOut := [1, 2, 3, 4], source := { seq := [7, 8, 9], ended := true }, result := 9, xfer := 4 }

/-- 46_session_control.md R236, R235: a run that starts after INIT counts its own bytes only. -/
theorem test_outcome_of_second_session :
    (nextState? (exec (.readFull 2) secondSession)).map (fun t => (runOutcome secondSession t).2) =
      some ([7, 8, 9], [7, 8]) := by decide +kernel

theorem witness_RunStart : RunStart secondSession ∧ RunStart State.reset :=
  ⟨⟨inv_of_idle (dataInv_of (by decide)) rfl rfl, by decide⟩, ⟨inv_of_idle (dataInv_of (by decide)) rfl rfl, by decide⟩⟩

/-- 46_session_control.md R236: the run is not over while the host still has a command to write. -/
theorem test_run_goes_on : ¬ RunEnded { refillable with inputs := [.reset, .busWrite 0 4 2] } :=
  fun h => absurd (h.2 (.busWrite 0 4 2) (.tail _ (.head _))) (by decide)

end Sys2Proof.Tests
end

section
/-! PROOFS. Storage, and the soundness of every step: no move reaches a storage index that does not exist.
A piece of pseudocode is sound when it keeps the data invariants, waits only where its port is silent, and never
stops with a fault of the model; every command, every resumed command and every move is sound. -/

namespace Sys2Proof.Machine

/-- Settles O57: each part is a law of storage. -/
theorem storageReadAfterWrite : Obligations.StorageReadAfterWrite := by
  intro m k v hm
  refine ⟨Memory.write_wf hm k v, ?_, fun l hl => ?_⟩
  · rw [storageByte_write, if_pos rfl]
  · rw [storageByte_write, if_neg hl]

/-! ## The fields the invariants do not read -/

/-- The data invariants read neither the command in progress, nor OVR and REFUSED, nor the outside agents' state. -/
theorem DataInv.of_control {s t : State} (h : DataInv s)
    (e : t = { s with
      busy := t.busy, waiting := t.waiting, ovr := t.ovr, refused := t.refused, nextSource := t.nextSource
      outReady := t.outReady, reads := t.reads, draws := t.draws, inputs := t.inputs }) : DataInv t := by
  rw [e]
  exact ⟨h.cfg, h.cursor, h.storage, h.window, h.source, h.latch, h.count, h.acc⟩

/-- The invariant of the machine reads neither OVR and REFUSED, nor what is pending outside the block. -/
theorem Inv.of_outside {s t : State} (h : Inv s)
    (e : t = { s with
      ovr := t.ovr, refused := t.refused, nextSource := t.nextSource
      reads := t.reads, draws := t.draws, inputs := t.inputs }) : Inv t := by
  rw [e]
  exact ⟨h.data.of_control rfl, h.busy, h.noFault, h.wait⟩

/-- Where no command is in progress the data invariants are the whole invariant. -/
theorem DataInv.inv_of_idle {s : State} (h : DataInv s) (hb : s.busy = false) (hw : s.waiting = none) : Inv s where
  data := h
  busy := by rw [hb, hw]; rfl
  noFault := fun hb' => by simp [hb] at hb'
  wait := fun w hw' => by simp [hw] at hw'

theorem Inv.waiting_of_idle {s : State} (h : Inv s) (hb : s.busy = false) : s.waiting = none := by
  simpa [hb] using h.busy

theorem DataInv.inv_endCommand {s : State} (h : DataInv s) : Inv (endCommand s) :=
  (h.of_control rfl : DataInv (endCommand s)).inv_of_idle rfl rfl

theorem DataInv.inv_park {s : State} {w : Wait} (h : DataInv s) (hw : WaitInv s w) (hf : s.fault = false) :
    Inv (park w s) where
  data := h.of_control rfl
  busy := rfl
  noFault := fun _ => hf
  wait := by
    rintro _ ⟨rfl⟩
    exact hw

theorem DataInv.i_le_j {s : State} (h : DataInv s) : s.i ≤ s.j := by
  obtain ⟨-, -, hij, -⟩ := h.cursor
  exact hij

/-! ## Sound pseudocode -/

/-- How pseudocode that began at `s` may stop: with the data invariants met, never with a fault of the model,
and waiting only where a port does not answer and no fault has been latched. -/
def SoundStop (s : State) : Stop → State → Prop
  | .raised, t => DataInv t
  | .waits w, t => DataInv t ∧ WaitInv t w ∧ t.fault = s.fault
  | .fault _, _ => False

/-- Pseudocode that began at `s` ends a command with the data invariants met, or stops as it may. -/
def SoundEnd (s : State) (r : Res Unit) : Prop := r.Sat (fun _ t => DataInv t) (SoundStop s)

/-- A sound command answers a state that meets the invariants. -/
theorem SoundEnd.finish {s : State} {r : Res Unit} (h : SoundEnd s r) :
    ∃ t, finish r = .next t ∧ (s.fault = false → Inv t) :=
  match r, h with
  | .ok () _, h => ⟨_, rfl, fun _ => DataInv.inv_endCommand h⟩
  | .stop .raised _, h => ⟨_, rfl, fun _ => DataInv.inv_endCommand h⟩
  | .stop (.waits _) _, ⟨hd, hw, hf⟩ => ⟨_, rfl, fun h0 => hd.inv_park hw (hf.trans h0)⟩

theorem SoundStop.of_fault_eq {s t r : State} {w : Stop} (h : SoundStop t w r) (hf : t.fault = s.fault) :
    SoundStop s w r :=
  match w, h with
  | .raised, h => h
  | .waits _, ⟨hd, hw, ht⟩ => ⟨hd, hw, ht.trans hf⟩

theorem SoundEnd.of_fault_eq {s t : State} {r : Res Unit} (h : SoundEnd t r) (hf : t.fault = s.fault) :
    SoundEnd s r :=
  h.mono (fun _ _ p => p) fun _ _ p => p.of_fault_eq hf

/-- Raising one of the block's own faults is sound. -/
theorem DataInv.soundEnd_raise {s t : State} (h : DataInv t) (f : FaultKind) (v : Word) :
    SoundEnd s (raise f v t) :=
  h.latchFault f v

theorem DataInv.soundEnd_giveResult {s t : State} (h : DataInv t) (x : Byte) : SoundEnd s (giveResult x t) :=
  h.setResult x

/-! ## The stops of pulls, reads and transfers -/

/-- A refill leaves what a waiting command still has to do. -/
theorem RefillFrame.pullForInv {s t : State} (h : RefillFrame s t) {k : PullFor} (hk : PullForInv s k) :
    PullForInv t k := by
  rw [h]
  cases k <;> exact hk

theorem OutOfBytes.dataInv {need : Nat} {s t : State} (h : OutOfBytes need s t) : DataInv t := by
  obtain ⟨r, p, rfl⟩ := h
  exact p.inv.latchFault _ _

theorem RefillWaits.soundStop {n : Nat} {s t : State} (p : RefillWaits n s t) {k : PullFor} (hk : PullForInv s k) :
    SoundStop s (.waits (.pull n k)) t :=
  ⟨p.inv, ⟨p.j.symm, p.room, p.srcEnd, p.silent.1, p.silent.2, p.frame.pullForInv hk⟩, p.frame.fault⟩

theorem PullWaits.soundStop {got n : Nat} {s t : State} (p : PullWaits got n s t) (hg : s.i + got = s.j)
    {k : PullFor} (hk : PullForInv s k) : SoundStop s (.waits (.pull n k)) t := by
  have hi := p.i
  have hj := p.j
  exact ⟨p.inv, ⟨by omega, p.room, p.srcEnd, p.silent.1, p.silent.2, p.frame.pullForInv hk⟩, p.frame.fault⟩

/-- The stops of a refill that must receive a byte (`needBytes_spec`, `plainRead_spec`). -/
theorem SoundStop.of_needBytes {need : Nat} {s t : State} {w : Stop} {k : PullFor} (hk : PullForInv s k)
    (h : (w = .raised ∧ OutOfBytes need s t) ∨ ∃ n, w = .waits (.pull n k) ∧ RefillWaits n s t) :
    SoundStop s w t := by
  obtain ⟨rfl, p⟩ | ⟨n, rfl, p⟩ := h
  · exact p.dataInv
  · exact p.soundStop hk

theorem SoundStop.of_stuffed {s t : State} {w : Stop} (h : StuffedStop s w t) : SoundStop s w t := by
  cases h with
  | missing y r p => exact p.inv.latchFault _ _
  | firstEnds _ _ p => exact p.dataInv
  | firstWaits n _ _ p => exact p.soundStop trivial
  | secondEnds r _ _ _ p => exact p.dataInv
  | secondWaits n r _ hr _ p => exact (p.soundStop (k := .stuffedSecond) hr.u).of_fault_eq hr.frame.fault

theorem TransferFrame.fault {s r : State} (h : TransferFrame s r) : r.fault = s.fault := by rw [h]

/-- The stops of READ_FULL and IGNORE (`readFullFrom_spec`, `ignoreFrom_spec`). -/
theorem SoundStop.of_transfer {out : Bool} {t rem : Nat} {s r : State} {w : Stop}
    (h : (w = .raised ∧ TransferShort out t rem s r) ∨ ∃ v, w = .waits v ∧ TransferWaits out t rem s v r) :
    SoundStop s w r := by
  obtain ⟨rfl, m, q, -, -, p, rfl, -⟩ | ⟨v, rfl, p⟩ := h
  · exact p.inv.latchFault _ _
  · exact ⟨p.inv, p.wait, p.frame.fault⟩

theorem readFullFrom_sound {s : State} (h : DataInv s) (hu : s.u = 0) {fuel rem count t : Nat}
    (hx : s.xfer.toNat + rem < 2 ^ 24) (hc : count = min rem (s.j - s.i)) (ht : t ≤ count)
    (hf : rem ≤ fuel + count) : SoundEnd s (readFullFrom fuel rem count t s) :=
  (readFullFrom_spec h hu hx hc ht hf).mono (fun _ _ p => p.inv) fun _ _ => .of_transfer

/-- READ_FULL's loop, also for no byte at all, where the copy faults (44_read_full_ignore.md R185). -/
theorem readFullLoop_sound {s : State} (h : DataInv s) (hu : s.u = 0) {rem : Nat} (hx : s.xfer.toNat + rem < 2 ^ 24) :
    SoundEnd s (readFullLoop rem s) := by
  obtain rfl | hr := Nat.eq_zero_or_pos rem
  · exact h.soundEnd_raise .copyEmptyDest 0
  · exact (readFullLoop_spec h hu hr hx).mono (fun _ _ p => p.inv) fun _ _ => .of_transfer

theorem ignoreLoop_sound {s : State} (h : DataInv s) (hu : s.u = 0) {rem : Nat} (hx : s.xfer.toNat + rem < 2 ^ 24) :
    SoundEnd s (ignoreLoop rem s) :=
  (ignoreLoop_spec h hu hx).mono (fun _ _ p => p.inv) fun _ _ => .of_transfer

/-! ## Commands -/

theorem startTransfer_fault (s : State) : (startTransfer s).fault = s.fault := by
  rw [startTransfer_eq, rewound_frame]

theorem startTransfer_xfer_lt {s : State} {n : Nat} (h : lenFits n = true) :
    (startTransfer s).xfer.toNat + n < 2 ^ 24 := by
  simpa [lenFits] using h

/-- Every command with an encoding answers a state, and one that meets the invariants where no fault was latched. -/
theorem exec_sound {s : State} (h : DataInv s) {i : Instr} (hi : i.wf = true) :
    ∃ t, exec i s = .next t ∧ (s.fault = false → Inv t) := by
  cases i with
  | refill =>
    refine SoundEnd.finish ?_
    split
    · exact h.soundEnd_raise _ _
    · rename_i hij
      simp only [ne_eq, Decidable.not_not] at hij
      refine Res.Sat.bind ((refill_spec h hij .refill).mono (fun _ _ p => p) ?_) fun _ _ p => p.inv
      rintro _ _ ⟨n, rfl, p⟩
      exact p.soundStop trivial
  | readByte =>
    exact SoundEnd.finish (Res.Sat.bind
      ((plainRead_spec h .readByte).mono (fun _ _ p => p) fun _ _ p => .of_needBytes (k := .readByte) trivial p.2)
      fun x _ p => p.inv.soundEnd_giveResult x)
  | readStuffed =>
    refine SoundEnd.finish ((readStuffed_spec h).mono ?_ fun _ _ => .of_stuffed)
    rintro _ _ ⟨x, t, p, rfl⟩
    exact p.inv.setResult x
  | unread => exact SoundEnd.finish (r := .ok () (unreadSeq s)) h.unreadSeq
  | readFull n =>
    have hl : SoundEnd _ (readFullLoop n (startTransfer s)) :=
      readFullLoop_sound h.startTransfer (startTransfer_u s) (startTransfer_xfer_lt hi)
    exact (hl.of_fault_eq (startTransfer_fault s)).finish
  | ignore n =>
    have hl : SoundEnd _ (ignoreLoop n (startTransfer s)) :=
      ignoreLoop_sound h.startTransfer (startTransfer_u s) (startTransfer_xfer_lt hi)
    exact (hl.of_fault_eq (startTransfer_fault s)).finish
  | init => exact ⟨_, rfl, fun _ => (init_runStart h rfl).1⟩

/-! ## Commands that go on after a wait -/

/-- What a waiting command needs in order to go on: what `WaitInv` says of it, without what it says of the port. -/
def Resumable (s : State) : Wait → Prop
  | .pull got k => s.i + got = s.j ∧ PullForInv s k
  | .emit rem count t => t < count ∧ count = min rem (s.j - s.i) ∧ s.xfer.toNat + rem < 2 ^ 24 ∧ s.u = 0

/-- A move of the source or of the host leaves the waiting command able to go on. -/
theorem WaitInv.resumable {s : State} {w : Wait} (h : WaitInv s w) (src : Source) (ready : Option Nat) :
    Resumable { s with source := src, outReady := ready } w := by
  cases w with
  | pull got k =>
    obtain ⟨hg, -, -, -, -, hk⟩ := h
    exact ⟨hg, by cases k <;> exact hk⟩
  | emit rem count p =>
    obtain ⟨ht, hc, hx, hu, -⟩ := h
    exact ⟨ht, hc, hx, hu⟩

/-- The rest of a `NeedBytes`: where it goes on there is a byte at the cursor, which has not moved. -/
theorem resumeNeedBytes_spec {s : State} (h : DataInv s) {need got : Nat} {k : PullFor} (hg : s.i + got = s.j)
    (hk : PullForInv s k) :
    (resumeNeedBytes need got k s).Sat (fun _ t => DataInv t ∧ RefillFrame s t ∧ t.i = s.i ∧ t.i < t.j)
      (SoundStop s) := by
  rw [resumeNeedBytes]
  refine Res.Sat.bind ((pull_spec h got hg k).mono (fun _ _ p => p) ?_) fun n t p => ?_
  · rintro _ _ ⟨n, rfl, p⟩
    exact p.soundStop hg hk
  · rw [checkReceived]
    split
    · exact p.inv.latchFault _ _
    · have hi := p.i
      have hj := p.j
      exact ⟨p.inv, p.frame, hi, by omega⟩

/-- The rest of a plain read: where it goes on the cursor has moved by one. -/
theorem resumePlainRead_spec {s : State} (h : DataInv s) {got : Nat} {k : PullFor} (hg : s.i + got = s.j)
    (hk : PullForInv s k) :
    (resumePlainRead got k s).Sat (fun _ t => DataInv t ∧ t.fault = s.fault ∧ t.i = s.i + 1) (SoundStop s) := by
  refine Res.Sat.bind (resumeNeedBytes_spec h hg hk) ?_
  rintro _ t ⟨hd, hf, hi, hij⟩
  rw [plainTake_spec hd hij]
  exact ⟨hd.setCursor hij (Nat.zero_le _) (Nat.zero_le _), hf.fault, congrArg (· + 1) hi⟩

theorem stuffedAfterSecond_sound {s t : State} (h : DataInv t) (hi : 2 ≤ t.i) (y : Byte) :
    SoundEnd s (stuffedAfterSecond y t) := by
  unfold stuffedAfterSecond
  split
  · exact h.soundEnd_raise _ _
  · exact (h.setCursor h.i_le_j hi (Nat.le_refl 2)).soundEnd_giveResult _

/-- A plain read after another byte of storage leaves two bytes before the cursor: a refill has kept the first. -/
theorem PlainlyRead.two_le_i {x : Byte} {s t : State} (p : PlainlyRead x s t) (h : DataInv s) (hi : 1 ≤ s.i) :
    2 ≤ t.i := by
  obtain hlt | he := Nat.lt_or_eq_of_le h.i_le_j
  · rw [p.kept hlt]
    exact Nat.succ_le_succ hi
  · rw [p.cursor he]
    omega

theorem stuffedAfterFirst_sound {t : State} (h : DataInv t) (hi : 1 ≤ t.i) (x : Byte) :
    SoundEnd t (stuffedAfterFirst x t) := by
  have h1 : DataInv { t with u := 1 } := h.setCursor h.i_le_j hi (by decide)
  unfold stuffedAfterFirst
  simp only
  split
  · exact h1.soundEnd_giveResult x
  · have hs : SoundEnd { t with u := 1 } ((plainRead .stuffedSecond { t with u := 1 }).bind stuffedAfterSecond) :=
      Res.Sat.bind ((plainRead_spec h1 .stuffedSecond).mono (fun _ _ p => p) fun _ _ p =>
        .of_needBytes (k := .stuffedSecond) rfl p.2) fun y _ p => stuffedAfterSecond_sound p.inv (p.two_le_i h1 hi) y
    exact hs.of_fault_eq rfl

/-- Every waiting command that can go on is sound. -/
theorem continueFrom_sound {s : State} {w : Wait} (h : DataInv s) (hw : Resumable s w) :
    SoundEnd s (continueFrom w s) := by
  cases w with
  | pull got k =>
    obtain ⟨hg, hk⟩ := hw
    cases k with
    | refill =>
      refine Res.Sat.bind ((pull_spec h got hg .refill).mono (fun _ _ p => p) ?_) fun _ _ p => p.inv
      rintro _ _ ⟨n, rfl, p⟩
      exact p.soundStop hg hk
    | readByte => exact Res.Sat.bind (resumePlainRead_spec h hg hk) fun x _ p => p.1.soundEnd_giveResult x
    | stuffedFirst =>
      refine Res.Sat.bind (resumePlainRead_spec h hg hk) ?_
      rintro x t ⟨hd, hf, hi⟩
      exact (stuffedAfterFirst_sound hd (by omega) x).of_fault_eq hf
    | stuffedSecond =>
      have hu : s.u = 1 := hk
      obtain ⟨-, hui, -⟩ := h.cursor
      refine Res.Sat.bind (resumePlainRead_spec h hg hk) ?_
      rintro y t ⟨hd, -, hi⟩
      exact stuffedAfterSecond_sound hd (by omega) y
    | readFull rem =>
      refine Res.Sat.bind (resumeNeedBytes_spec h hg hk) ?_
      rintro _ t ⟨hd, hf, -⟩
      obtain ⟨-, hx, hu⟩ := hf.pullForInv hk
      exact (readFullLoop_sound hd hu hx).of_fault_eq hf.fault
    | ignore rem =>
      refine Res.Sat.bind (resumeNeedBytes_spec h hg hk) ?_
      rintro _ t ⟨hd, hf, -⟩
      obtain ⟨-, hx, hu⟩ := hf.pullForInv hk
      exact (ignoreLoop_sound hd hu hx).of_fault_eq hf.fault
  | emit rem count t =>
    obtain ⟨ht, hc, hx, hu⟩ := hw
    exact readFullFrom_sound h hu hx hc (Nat.le_of_lt ht) (by rw [roundsFor]; omega)

/-! ## Moves -/

/-- A move is answered by a state that meets the invariants, or refused; it never ends in a fault of the model. -/
def SoundOutcome : Host.Outcome State Fault Refusal → Prop
  | .next t => Inv t
  | .fault _ => False
  | .refused _ => True

/-- A word that decodes has a command with an encoding: LEN has 24 bits (30_encoding.md R73). -/
theorem wf_of_decode {w : Word} {i : Instr} (h : decode w = .ok i) : i.wf = true := by
  have hlen : lenField w < 2 ^ 24 := (w.extractLsb' 8 24).isLt
  have hno : ∀ c : Instr, c.wf = true → noLength w c = .ok i → i.wf = true := by
    intro c hc hn
    unfold noLength at hn
    split at hn
    · injection hn with hn
      rwa [← hn]
    · contradiction
  unfold decode at h
  split at h
  · contradiction
  · split at h
    · exact hno _ rfl h
    · exact hno _ rfl h
    · exact hno _ rfl h
    · exact hno _ rfl h
    · injection h with h
      rw [← h]
      exact decide_eq_true hlen
    · injection h with h
      rw [← h]
      exact decide_eq_true hlen
    · exact hno _ rfl h
    · contradiction

/-- While FAULT = 1 only INIT is accepted, which meets the invariants whatever was latched. -/
theorem accept_sound {s : State} {w : Word} (h : DataInv s) (hf : s.fault = true → isInit w = true) :
    SoundOutcome (accept w s) := by
  have hb : DataInv (setBusy s) := h.of_control rfl
  unfold accept
  split
  · exact (hb.latchFault .illegalCommand w).inv_endCommand
  · rename_i i hi
    cases hs : s.fault with
    | false =>
      obtain ⟨t, ht, hinv⟩ := exec_sound hb (wf_of_decode hi)
      rw [ht]
      exact hinv hs
    | true =>
      have hinit := (isInit_iff w).1 (hf hs)
      rw [hi] at hinit
      injection hinit with hinit
      subst hinit
      exact (init_runStart hb rfl).1

theorem offer_sound {s : State} (h : Inv s) (w : Word) : SoundOutcome (offer w s) := by
  unfold offer
  split
  · exact h.of_outside rfl
  · split
    · exact h.of_outside rfl
    · rename_i hn
      exact accept_sound h.data fun hf => by simpa [hf] using hn

theorem busWrite_sound {s : State} (h : Inv s) (addr bytes : Nat) (w : Word) :
    SoundOutcome (busWrite addr bytes w s) := by
  unfold busWrite
  split
  · trivial
  · split
    · exact offer_sound h w
    · exact h

theorem readOffset_inv {s : State} (h : Inv s) (off : Nat) : Inv (readOffset off s) := by
  unfold readOffset
  split
  · exact h.of_outside rfl
  · split
    · exact h.of_outside rfl
    · exact h.of_outside rfl

theorem busRead_sound {s : State} (h : Inv s) (addr bytes : Nat) : SoundOutcome (busRead addr bytes s) := by
  unfold busRead
  split
  · trivial
  · exact readOffset_inv h _

/-- After a move of the source or of the host the command in progress, if any, goes on soundly. -/
theorem resume_sound {s : State} (h : Inv s) {src : Source} {ready : Option Nat}
    (hd : DataInv { s with source := src, outReady := ready }) :
    SoundOutcome (resume { s with source := src, outReady := ready }) := by
  unfold resume
  split
  · rename_i hw
    exact hd.inv_of_idle (h.busy.trans (by rw [hw]; rfl)) hw
  · rename_i w hw
    have hf : s.fault = false := h.noFault (h.busy.trans (Option.isSome_of_eq_some hw))
    obtain ⟨t, ht, hinv⟩ := (continueFrom_sound hd ((h.wait w hw).resumable src ready)).finish
    rw [ht]
    exact hinv hf

/-- Further bytes of a source that has not ended change nothing of what was received. -/
theorem DataInv.reveal {s : State} (h : DataInv s) (bs : List Byte) (he : s.source.ended = false) :
    DataInv { s with source := s.source.reveal bs } where
  cfg := h.cfg
  cursor := h.cursor
  storage := h.storage
  window := by
    obtain ⟨hjs, hsl, hwin⟩ := h.window
    refine ⟨hjs, ?_, fun k hk => ?_⟩
    · simp only [Source.reveal, List.length_append]
      omega
    · simp only at hk
      simp only [Source.reveal, hwin k hk]
      rw [List.getElem?_append_left (by omega)]
  source := by
    refine ⟨fun hs => ?_, ?_⟩
    · simp [(h.source.1 hs).1] at he
    · simp only [Source.reveal, List.take_append_of_le_length h.window.2.1]
      exact h.source.2
  latch := h.latch
  count := h.count
  acc := h.acc

theorem DataInv.endSource {s : State} (h : DataInv s) :
    DataInv { s with source := { s.source with ended := true } } where
  cfg := h.cfg
  cursor := h.cursor
  storage := h.storage
  window := h.window
  source := ⟨fun hs => ⟨rfl, (h.source.1 hs).2⟩, h.source.2⟩
  latch := h.latch
  count := h.count
  acc := h.acc

theorem sourceBytes_sound {s : State} (h : Inv s) (bs : List Byte) : SoundOutcome (sourceBytes bs s) := by
  unfold sourceBytes
  split
  · trivial
  · rename_i he
    exact resume_sound h (h.data.reveal bs (by simpa using he))

theorem accSet_sound {s : State} (h : Inv s) (n f1 f2 : Nat) : SoundOutcome (accSet n f1 f2 s) := by
  unfold accSet
  split
  · rename_i hr
    obtain ⟨hb, hacc⟩ := hr
    have hd : DataInv { s with accN := n, accF1 := f1, accF2 := f2 } :=
      ⟨h.data.cfg, h.data.cursor, h.data.storage, h.data.window, h.data.source, h.data.latch, h.data.count, hacc⟩
    exact hd.inv_of_idle hb (h.waiting_of_idle hb)
  · trivial

/-- The reset input leaves what INIT leaves, with storage unlisted. -/
theorem assertReset_inv {s : State} (h : DataInv s) : Inv (assertReset s) := by
  obtain ⟨⟨hd, -, -, -⟩, -⟩ := init_runStart h rfl
  have hr : DataInv (assertReset s) :=
    { cfg := hd.cfg
      cursor := hd.cursor
      storage := ⟨rfl, fun c hc => absurd hc List.not_mem_nil⟩
      window := ⟨Nat.le_refl _, Nat.zero_le _, fun k hk => absurd hk (Nat.not_lt_zero k)⟩
      source := hd.source
      latch := hd.latch
      count := hd.count
      acc := hd.acc }
  exact hr.inv_of_idle rfl rfl

theorem takeInput_sound {s : State} (h : Inv s) (a : Input) : SoundOutcome (takeInput a s) := by
  cases a with
  | busWrite addr bytes data => exact busWrite_sound h addr bytes data
  | busRead addr bytes => exact busRead_sound h addr bytes
  | hostAccept ready => exact resume_sound h (h.data.of_control rfl)
  | sourceBytes bs => exact sourceBytes_sound h bs
  | sourceEnd => exact resume_sound h h.data.endSource
  | attach src => exact h.of_outside rfl
  | accSet n f1 f2 => exact accSet_sound h n f1 f2
  | reset => exact assertReset_inv h.data

/-- Every step from a state that meets the invariants answers one that meets them, or refuses its move. -/
theorem step_sound {s : State} (h : Inv s) : SoundOutcome (step s) := by
  unfold step
  split
  · exact h
  · exact takeInput_sound (h.of_outside rfl) _

/-- Settles O49: a step that faulted would not be sound. -/
theorem stepNeverFaults : Obligations.StepNeverFaults := by
  intro s f h hf
  have hs := step_sound h
  rw [hf] at hs
  exact hs

end Sys2Proof.Machine
end

section
/-! PROOFS. The registers as the host reads them, the accumulator's moves, reset, the parameters, and what every step
keeps. -/

namespace Sys2Proof.Machine

/-! ## Invariants -/

/-- Settles O48: an answered step of a state that meets the invariants is sound. -/
theorem stepKeepsInvariants : Obligations.StepKeepsInvariants := by
  intro s t h ht
  have hs := step_sound h
  rw [ht] at hs
  exact hs

/-- The reset values meet the data invariants: nothing is listed in storage and nothing has been received. -/
theorem afterReset_dataInv {c : Config} {n f1 f2 : Nat} (hc : c.Valid) (hn : n ≤ c.accNMax)
    (h1 : f1 < 2 ^ c.accW) (h2 : f2 < 2 ^ c.accW) (src : Source) : DataInv (.afterReset c n f1 f2 src) where
  cfg := hc
  cursor := ⟨Nat.zero_le _, Nat.le_refl _, Nat.le_refl _, Nat.zero_le _⟩
  storage := ⟨rfl, fun _ h => absurd h List.not_mem_nil⟩
  window := ⟨Nat.le_refl _, Nat.zero_le _, fun k h => absurd h (Nat.not_lt_zero k)⟩
  source := ⟨(fun h => nomatch h), List.nil_suffix⟩
  latch := ⟨fun _ => ⟨rfl, rfl⟩, (fun h => nomatch h)⟩
  count := ⟨Nat.zero_le _, show (0 : Word).toNat < 2 ^ 24 by decide⟩
  acc := ⟨hn, h1, h2⟩

/-- Settles O47: the reset values meet the invariants, which do not read what the other agents hold. -/
theorem resetMeetsInvariants : Obligations.ResetMeetsInvariants := by
  refine ⟨fun c n f1 f2 src next ready moves hc hn h1 h2 => ?_, ?_⟩
  · exact ((afterReset_dataInv hc hn h1 h2 src).of_control rfl).inv_of_idle rfl rfl
  · exact (afterReset_dataInv (by decide) (by decide) (by decide) (by decide) .fresh).inv_of_idle rfl rfl

/-- Going on with a waiting command keeps the parameters. -/
theorem resume_cfg {s t : State} (h : resume s = .next t) : t.cfg = s.cfg := by
  obtain ⟨-, rfl⟩ | ⟨w, -, h⟩ := resume_cases h
  · rfl
  · exact ((continueFrom_untouched w s).finish h).cfg

/-- Offering a word to CMD keeps the parameters. -/
theorem offer_cfg {s t : State} {w : Word} (h : offer w s = .next t) : t.cfg = s.cfg := by
  obtain ⟨-, rfl⟩ | ⟨-, -, -, rfl⟩ | ⟨-, -, h⟩ := offer_cases h
  · rfl
  · rfl
  · obtain ⟨-, rfl⟩ | ⟨i, -, h⟩ := accept_cases h
    · rfl
    · exact (exec_same h).cfg

theorem readOffset_cfg (off : Nat) (s : State) : (readOffset off s).cfg = s.cfg := by
  unfold readOffset
  split
  · rfl
  · split <;> rfl

/-- Every move keeps the parameters. -/
theorem takeInput_cfg {s t : State} {a : Input} (h : takeInput a s = .next t) : t.cfg = s.cfg := by
  cases a with
  | busWrite addr bytes data =>
    obtain rfl | ⟨-, h⟩ := busWrite_cases h
    · rfl
    · exact offer_cfg h
  | busRead addr bytes =>
    simp only [takeInput, busRead] at h
    split at h
    · contradiction
    · injection h with h
      rw [← h, readOffset_cfg]
  | hostAccept ready => exact (resume_cfg h :)
  | sourceBytes bs =>
    simp only [takeInput, sourceBytes] at h
    split at h
    · contradiction
    · exact (resume_cfg h :)
  | sourceEnd => exact (resume_cfg h :)
  | attach src =>
    injection h with h
    rw [← h]
  | accSet n f1 f2 =>
    simp only [takeInput, accSet] at h
    split at h
    · injection h with h
      rw [← h]
    · contradiction
  | reset =>
    injection h with h
    rw [← h]
    rfl

/-- Settles O51: no move changes the parameters. -/
theorem parametersNeverChange : Obligations.ParametersNeverChange := by
  intro s t h
  obtain ⟨-, rfl⟩ | ⟨a, rest, -, h⟩ := step_cases h
  · rfl
  · exact (takeInput_cfg h :)

/-! ## Registers -/

/-- A flag joined to a word's low end is its bit 0. -/
theorem append_flagBit_toNat {n : Nat} (x : BitVec n) (b : Bool) :
    (x ++ flagBit b).toNat = 2 * x.toNat + b.toNat := by
  have hb : b.toNat < 2 ^ 1 := b.toNat_lt
  rw [flagBit, BitVec.toNat_append, BitVec.toNat_ofBool, ← Nat.shiftLeft_add_eq_or_of_lt hb, Nat.shiftLeft_eq]
  omega

/-- Settles O13: the flags are the low bits one after the other, and the fields above them stand side by side. -/
theorem statusLayout : Obligations.StatusLayout := by
  intro s
  have hc : ((0 : BitVec 20) ++ s.fcode ++ (0 : BitVec 3)).toNat = 8 * s.fcode.toNat := by
    rw [BitVec.toNat_append, BitVec.toNat_append]
    simp [Nat.shiftLeft_eq, Nat.mul_comm]
  rw [statusWord]
  simp only [append_flagBit_toNat, hc]
  omega

/-- A step that takes a move. -/
theorem step_of_inputs {s : State} {a : Input} {rest : List Input} (h : s.inputs = a :: rest) :
    step s = takeInput a { s with inputs := rest } := by
  rw [step, h]

/-- A step that takes an aligned read inside the window. -/
theorem step_busRead {s : State} {off : Nat} {rest : List Input} (hv : s.cfg.Valid) (h4 : off % 4 = 0)
    (hw : off < s.cfg.window) (hi : s.inputs = .busRead (s.cfg.base + off) 4 :: rest) :
    step s = .next (readOffset off { s with inputs := rest }) := by
  rw [step_of_inputs hi, takeInput, busRead, busOffset_ok hv h4 hw]

/-- What a register read answers while BUSY = 0: the register's contents, and 0 at an unlisted offset. -/
theorem readOffset_idle {s : State} (hb : s.busy = false) (off : Nat) :
    readOffset off s = answerRead ((regAt off).elim 0 (regValue · s)) s := by
  rw [readOffset]
  cases regAt off with
  | none => rfl
  | some r => simp [hb]

/-- The register map as one chain of offsets (10_state.md R35). -/
theorem regAt_elim {α : Type} (off : Nat) (z : α) (f : Reg → α) :
    (regAt off).elim z f =
      if off = 0x00 then f .cmd else if off = 0x04 then f .status else if off = 0x08 then f .result
      else if off = 0x0C then f .cursor else if off = 0x10 then f .bound else if off = 0x14 then f .ucnt
      else if off = 0x18 then f .pullcnt else if off = 0x1C then f .xfer else if off = 0x20 then f .finfo
      else if off = 0x24 then f .capr else z := by
  unfold regAt
  split
  case h_11 => simp_all
  all_goals rfl

/-- Settles O11: the chain of the statement is the register map, CMD answering 0 as an unlisted offset does. -/
theorem registerReadsAnswer : Obligations.RegisterReadsAnswer := by
  intro s off rest hv h4 hw hi hb
  rw [step_busRead hv h4 hw hi, readOffset_idle (s := { s with inputs := rest }) hb, regAt_elim]
  obtain rfl | h0 := eq_or_ne off 0
  · rfl
  · rw [if_neg h0, BitVec.ofNat_toNat]
    rfl

/-- From 0x28 on no register is listed. -/
theorem regAt_of_ge {off : Nat} (h : 0x28 ≤ off) : regAt off = none := by
  unfold regAt
  split
  case h_11 => rfl
  all_goals omega

/-- Below 0x28 every aligned offset lists a register, and only 0x04 lists STATUS. -/
theorem regAt_of_lt {off : Nat} (h4 : off % 4 = 0) (h : off < 0x28) (hs : off ≠ 0x04) :
    ∃ r, regAt off = some r ∧ r ≠ .status := by
  have ho : off = 0x00 ∨ off = 0x08 ∨ off = 0x0C ∨ off = 0x10 ∨ off = 0x14 ∨ off = 0x18 ∨ off = 0x1C ∨
      off = 0x20 ∨ off = 0x24 := by omega
  rcases ho with rfl | rfl | rfl | rfl | rfl | rfl | rfl | rfl | rfl <;> exact ⟨_, rfl, by decide⟩

/-- STATUS is answered whatever BUSY is (10_state.md R48). -/
theorem readOffset_status (s : State) : readOffset 0x04 s = answerRead (statusWord s) s :=
  if_neg fun h => h.2 rfl

/-- STATUS read while BUSY = 1 has bit 0 set. -/
theorem statusWord_busy {s : State} (hb : s.busy = true) : (statusWord s).toNat % 2 = 1 := by
  rw [statusLayout s, hb, Bool.toNat_true]
  omega

/-- Settles O12: STATUS, another register, or an unlisted offset. -/
theorem busyReadsAnswer : Obligations.BusyReadsAnswer := by
  intro s off rest hv h4 hw hi hb
  rw [step_busRead hv h4 hw hi]
  obtain h | h := Nat.lt_or_ge off 0x28
  · obtain rfl | hs := eq_or_ne off 0x04
    · refine ⟨statusWord s, ?_, fun _ => ⟨rfl, statusWord_busy hb⟩, fun h' => by omega⟩
      rw [readOffset_status, if_pos (.inl rfl)]
      rfl
    · obtain ⟨r, hr, hne⟩ := regAt_of_lt h4 h hs
      refine ⟨Config.busyRead s.draws, ?_, fun h' => absurd h' hs, fun h' => by omega⟩
      rw [readOffset, hr, if_neg (by omega)]
      exact congrArg _ (if_pos ⟨hb, hne⟩)
  · refine ⟨0, ?_, fun h' => by omega, fun _ => rfl⟩
    rw [readOffset, regAt_of_ge h, if_pos (.inr h)]
    rfl

/-- CMD stands at offset 0 alone. -/
theorem regAt_eq_cmd {off : Nat} (h : regAt off = some .cmd) : off = 0 := by
  unfold regAt at h
  split at h
  case h_1 => rfl
  all_goals simp at h

/-- Settles O14: only a write that reaches CMD offers a command. -/
theorem otherWritesIgnored : Obligations.OtherWritesIgnored := by
  intro s off w rest hv h4 hw h0 hi
  rw [step_of_inputs hi, takeInput, busWrite, busOffset_ok hv h4 hw]
  exact if_neg fun h => h0 (regAt_eq_cmd h)

/-! ## The accumulator and reset -/

/-- Settles O16: the accumulator's move asks for BUSY = 0 and for its ranges. -/
theorem accumulatorMovesBetweenCommands : Obligations.AccumulatorMovesBetweenCommands := by
  intro s n f1 f2 rest hi
  rw [step_of_inputs hi, takeInput, accSet]
  constructor
  · intro hb
    exact if_neg fun h => by simp [hb] at h
  · intro hb hn h1 h2
    exact if_pos ⟨hb, hn, h1, h2⟩

/-- Settles O43: each value is the one `State.afterReset` writes, and STATUS is made of flags that are 0. -/
theorem resetValues : Obligations.ResetValues := by
  intro c n f1 f2 src
  have hs : statusWord (.afterReset c n f1 f2 src) = 0 :=
    BitVec.eq_of_toNat_eq (statusLayout _)
  exact ⟨rfl, rfl, rfl, rfl, rfl, hs, rfl, rfl, rfl, rfl, rfl, rfl, rfl, rfl⟩

end Sys2Proof.Machine
end

section
/-! PROOFS. What the body of a command reads and writes. It reads neither BUSY nor the command in progress, it leaves
the source where it is, it latches no fault where it goes on, and it writes RESULT only as its last action. -/

namespace Sys2Proof.Machine

/-! ## Pseudocode inside a command -/

/-- The two fields that say whether a command is in progress (log 5). -/
def setControl (b : Bool) (w : Option Wait) (s : State) : State := { s with busy := b, waiting := w }

/-- The same result with its state changed. -/
def Res.onState {α : Type} (f : State → State) : Res α → Res α
  | .ok a s => .ok a (f s)
  | .stop w s => .stop w (f s)

/-- Pseudocode inside a command: what it does is the same whatever BUSY and the command in progress are; the source is
left alone; where it goes on FAULT is too, and RESULT unless `writes`; where it stops RESULT is left alone. -/
structure Within {α : Type} (writes : Bool) (op : State → Res α) : Prop where
  control : ∀ b w s, op (setControl b w s) = (op s).onState (setControl b w)
  kept : ∀ s, (op s).Sat
    (fun _ t => t.source = s.source ∧ t.fault = s.fault ∧ (writes = false → t.result = s.result))
    (fun _ t => t.source = s.source ∧ t.result = s.result)

/-- A change of the state that touches none of these fields. -/
structure Aside (f : State → State) : Prop where
  control : ∀ b w s, f (setControl b w s) = setControl b w (f s) := by intros; rfl
  source : ∀ s, (f s).source = s.source := by intros; rfl
  fault : ∀ s, (f s).fault = s.fault := by intros; rfl
  result : ∀ s, (f s).result = s.result := by intros; rfl

section
variable {α β γ : Type} {writes : Bool}

theorem Within.ok {f : State → State} (a : α) (hf : Aside f := by exact {}) : Within writes fun s => .ok a (f s) where
  control b w s := congrArg (Res.ok a) (hf.control b w s)
  kept s := ⟨hf.source s, hf.fault s, fun _ => hf.result s⟩

theorem Within.value (a : State → α) (ha : ∀ b w s, a (setControl b w s) = a s := by intros; rfl) :
    Within writes fun s => .ok (a s) s where
  control b w s := congrArg (Res.ok · (setControl b w s)) (ha b w s)
  kept _ := ⟨rfl, rfl, fun _ => rfl⟩

theorem Within.raise (f : FaultKind) (v : Word) : Within writes (raise f v : State → Res α) where
  control _ _ _ := rfl
  kept _ := ⟨rfl, rfl⟩

theorem Within.stop (w : Stop) : Within writes (Res.stop w : State → Res α) where
  control _ _ _ := rfl
  kept _ := ⟨rfl, rfl⟩

/-- A parameter may be read off the state. -/
theorem Within.param {op : γ → State → Res α} (h : ∀ x, Within writes (op x)) (a : State → γ)
    (ha : ∀ b w s, a (setControl b w s) = a s := by intros; rfl) : Within writes fun s => op (a s) s where
  control b w s := by rw [ha, (h _).control]
  kept s := (h _).kept s

theorem Within.after {op : State → Res α} (h : Within writes op) (f : State → State) (hf : Aside f := by exact {}) :
    Within writes fun s => op (f s) where
  control b w s := by rw [hf.control, h.control]
  kept s := by
    have hk := h.kept (f s)
    rwa [hf.source, hf.fault, hf.result] at hk

theorem Within.bind {op : State → Res α} {f : α → State → Res β} (h : Within false op)
    (hf : ∀ a, Within writes (f a)) : Within writes fun s => (op s).bind f where
  control b w s := by
    rw [h.control]
    cases op s with
    | ok a t => exact (hf a).control b w t
    | stop v t => rfl
  kept s := by
    refine Res.Sat.bind (h.kept s) ?_
    rintro a t ⟨hs, hft, hr⟩
    have hk := (hf a).kept t
    rwa [hs, hft, hr rfl] at hk

theorem Within.ite {f g : State → Res α} (p : State → Prop) [DecidablePred p] (hf : Within writes f)
    (hg : Within writes g) (hp : ∀ b w s, p (setControl b w s) ↔ p s := by intros; exact Iff.rfl) :
    Within writes fun s => if p s then f s else g s where
  control b w s := by
    simp only [hp]
    split
    · exact hf.control b w s
    · exact hg.control b w s
  kept s := by
    split
    · exact hf.kept s
    · exact hg.kept s

end

/-! ## The shared operations -/

section
variable {writes : Bool}

theorem memRead_within (k : Nat) : Within writes (memRead k) :=
  .ite (fun s => k < s.cfg.bufCap) (.value fun s => storageByte s.buf k) (.stop _)

theorem memWrite_within (k : Nat) (v : Byte) : Within writes (memWrite k v) :=
  .ite (fun s => k < s.cfg.bufCap) (.ok ()) (.stop _)

theorem pullDone_within (got : Nat) : Within writes (pullDone got) := .ok got

/-- A received byte is counted and recorded (10_state.md R33). -/
def afterPull (v : Byte) (s : State) : State := { s with sp := s.sp + 1, consumed := s.consumed ++ [v] }

/-- A stored byte moves the valid boundary (40_refill.md R105). -/
def growBoundary (s : State) : State := { s with j := s.j + 1 }

/-- One round of a pull, on the source's answer. -/
def pullRound (room got : Nat) (k : PullFor) (answer : Option Byte) (s : State) : Res Nat :=
  match answer with
  | some v => (memWrite s.j v (afterPull v s)).bind fun _ t => pullLoop room (got + 1) k (growBoundary t)
  | none => if s.source.ended then pullDone got (setSrcEnd s) else .stop (.waits (.pull got k)) s

theorem pullLoop_succ (room got : Nat) (k : PullFor) (s : State) :
    pullLoop (room + 1) got k s =
      if s.srcEnd then pullDone got s else pullRound room got k s.source.seq[s.sp]? s := by
  rw [pullLoop, srcPull]
  cases s.source.seq[s.sp]? with
  | some v => rfl
  | none => cases he : s.source.ended <;> simp [pullRound, he]

theorem pullLoop_within (room got : Nat) (k : PullFor) : Within writes (pullLoop room got k) := by
  induction room generalizing got with
  | zero => exact pullDone_within got
  | succ room ih =>
    rw [show pullLoop (room + 1) got k = _ from funext (pullLoop_succ room got k)]
    refine .ite _ (pullDone_within got) (.param (fun answer => ?_) fun s => s.source.seq[s.sp]?)
    cases answer with
    | some v =>
      exact .bind (.param (fun j => (memWrite_within j v).after (afterPull v)) State.j) fun _ =>
        (ih (got + 1)).after growBoundary
    | none => exact .ite _ ((pullDone_within got).after setSrcEnd) (.stop _)

theorem pull_within (got : Nat) (k : PullFor) : Within writes (pull got k) :=
  .param (fun room => pullLoop_within room got k) fun s => s.cfg.bufCap - s.j

theorem carryForward_within : Within writes carryForward :=
  .ite (fun s => 2 < s.j)
    (.bind (.param memRead_within fun s => s.j - 2) fun a => .bind (.param memRead_within fun s => s.j - 1) fun b =>
      (memWrite_within 0 a).bind fun _ => (memWrite_within 1 b).bind fun _ => .ok ())
    (.ok ())

theorem refill_within (k : PullFor) : Within writes (refill k) :=
  carryForward_within.bind fun _ => pull_within 0 k

theorem checkReceived_within (need got : Nat) : Within writes (checkReceived need got) :=
  .ite (fun _ => got = 0) (.raise _ _) (.ok ())

theorem needBytes_within (need : Nat) (k : PullFor) : Within writes (needBytes need k) :=
  (refill_within k).bind (checkReceived_within need)

theorem plainTake_within : Within writes plainTake :=
  .bind (.param memRead_within State.i) fun x => .ok x

theorem plainRead_within (k : PullFor) : Within writes (plainRead k) :=
  .bind (.ite (fun s => s.i = s.j) (needBytes_within 1 k) (.ok ())) fun _ => plainTake_within

/-! ## The transfers -/

theorem copyCount_within (rem : Nat) : Within writes fun s => copyCount rem (unreadLen s) s :=
  .ite (fun _ => rem = 0) (.raise _ _) (.value fun s => min rem (unreadLen s))

/-- The host has taken a byte (20_memory.md R55). -/
def delivered (v : Byte) (s : State) : State :=
  { s with dataOut := s.dataOut ++ [v], outReady := readyAfter 1 s.outReady }

theorem emitLoop_succ (rem count left t : Nat) (s : State) :
    emitLoop rem count (left + 1) t s =
      (memRead (s.i + t) s).bind fun v r =>
        if r.outReady = some 0 then .stop (.waits (.emit rem count t)) r
        else emitLoop rem count left (t + 1) (delivered v r) := by
  rw [emitLoop]
  refine congrArg _ (funext fun v => funext fun r => ?_)
  rw [emit_eq]
  by_cases h : r.outReady = some 0
  · simp only [if_pos h]
  · simp only [if_neg h, delivered]

theorem emitLoop_within (rem count left t : Nat) : Within writes (emitLoop rem count left t) := by
  induction left generalizing t with
  | zero => exact .ok ()
  | succ left ih =>
    rw [show emitLoop rem count (left + 1) t = _ from funext (emitLoop_succ rem count left t)]
    exact .bind (.param memRead_within fun s => s.i + t) fun v =>
      .ite (fun s => s.outReady = some 0) (.stop _) ((ih (t + 1)).after (delivered v))

theorem outOfRounds_within (k : PullFor) : Within writes (outOfRounds k) := .stop _

/-- The end of a round that leaves `rem` bytes owed (44_read_full_ignore.md R181, R192). -/
def roundEnd (rem : Nat) (onward : State → Res Unit) (s : State) : Res Unit :=
  if rem = 0 then .ok () s else onward s

theorem roundEnd_within {onward : State → Res Unit} (rem : Nat) (h : Within writes onward) :
    Within writes (roundEnd rem onward) :=
  .ite (fun _ => rem = 0) (.ok ()) h

theorem readFullFrom_within (fuel rem count t : Nat) : Within writes (readFullFrom fuel rem count t) := by
  induction fuel generalizing rem count t with
  | zero =>
    exact (emitLoop_within rem count (count - t) t).bind fun _ =>
      (roundEnd_within (rem - count) (.stop _)).after (advance count)
  | succ fuel ih =>
    exact (emitLoop_within rem count (count - t) t).bind fun _ =>
      (roundEnd_within (rem - count) ((needBytes_within _ _).bind fun _ =>
        (copyCount_within _).bind fun c => ih (rem - count) c 0)).after (advance count)

theorem readFullLoop_within (rem : Nat) : Within writes (readFullLoop rem) :=
  (copyCount_within rem).bind fun count => readFullFrom_within (roundsFor rem) rem count 0

theorem ignoreFrom_within (fuel rem : Nat) : Within writes (ignoreFrom fuel rem) := by
  induction fuel generalizing rem with
  | zero =>
    exact .param (fun m => (roundEnd_within (rem - m) (outOfRounds_within (.ignore (rem - m)))).after (advance m))
      fun s => min (unreadLen s) rem
  | succ fuel ih =>
    exact .param (fun m => (roundEnd_within (rem - m)
      ((needBytes_within (rem - m) (.ignore (rem - m))).bind fun _ => ih (rem - m))).after (advance m))
      fun s => min (unreadLen s) rem

end

/-! ## The readers, which write RESULT at their end -/

theorem giveResult_within (x : Byte) : Within true (giveResult x) where
  control _ _ _ := rfl
  kept _ := ⟨rfl, rfl, fun h => nomatch h⟩

theorem stuffedAfterSecond_within (y : Byte) : Within true (stuffedAfterSecond y) :=
  .ite (fun _ => y ≠ 0x00) (.raise _ _) ((giveResult_within 0xFF).after fun s => { s with u := 2 })

theorem stuffedAfterFirst_within (x : Byte) : Within true (stuffedAfterFirst x) :=
  Within.after
    (.ite (fun _ => x ≠ 0xFF) (giveResult_within x)
      ((plainRead_within .stuffedSecond).bind stuffedAfterSecond_within))
    fun s => { s with u := 1 }

theorem stuffedFast_within : Within true stuffedFast :=
  .bind (.param memRead_within State.i) fun x =>
    Within.after
      (.ite (fun _ => x ≠ 0xFF) (giveResult_within x)
        (.bind (.param memRead_within State.i) fun y =>
          .ite (fun _ => y ≠ 0x00) (.raise _ _)
            ((giveResult_within 0xFF).after fun s => { s with i := s.i + 1, u := 2 })))
      fun s => { s with i := s.i + 1, u := 1 }

theorem readStuffed_within : Within true readStuffed :=
  .ite (fun s => s.i + 2 ≤ s.j) stuffedFast_within ((plainRead_within .stuffedFirst).bind stuffedAfterFirst_within)

/-! ## Commands -/

theorem unreadSeq_aside : Aside unreadSeq where
  control b w s := by
    unfold unreadSeq setControl
    simp only
    split <;> rfl
  source s := by
    unfold unreadSeq
    split <;> rfl
  fault s := by
    unfold unreadSeq
    split <;> rfl
  result s := by
    unfold unreadSeq
    split <;> rfl

theorem startTransfer_aside : Aside startTransfer where
  control b w s := by
    rw [startTransfer_eq, startTransfer_eq]
    unfold rewound setControl
    simp only
    split <;> rfl
  source s := by
    rw [startTransfer_eq, rewound_frame]
  fault s := by
    rw [startTransfer_eq, rewound_frame]
  result s := by
    rw [startTransfer_eq, rewound_frame]

/-- The pseudocode of a command's body. -/
def body : Instr → State → Res Unit
  | .refill, s => if s.i ≠ s.j then raise .unreadBytes (zext32 (s.j - s.i)) s else (refill .refill s).bind refillDone
  | .readByte, s => (plainRead .readByte s).bind giveResult
  | .readStuffed, s => readStuffed s
  | .unread, s => .ok () (unreadSeq s)
  | .readFull n, s => readFullLoop n (startTransfer s)
  | .ignore n, s => ignoreLoop n (startTransfer s)
  | .init, s => .ok () (attachNext (clearSession s))

theorem exec_eq (i : Instr) (s : State) : exec i s = finish (body i s) := by
  cases i <;> rfl

/-- The commands that write RESULT when they complete (10_state.md R37). -/
def writesResult : Instr → Bool
  | .readByte => true
  | .readStuffed => true
  | .refill => false
  | .unread => false
  | .readFull _ => false
  | .ignore _ => false
  | .init => false

theorem writesResult_of_ne {i : Instr} (h1 : i ≠ .readByte) (h2 : i ≠ .readStuffed) : writesResult i = false := by
  cases i <;> simp_all [writesResult]

theorem body_within {i : Instr} (hi : i ≠ .init) : Within (writesResult i) (body i) := by
  cases i with
  | refill =>
    exact .ite (fun s => s.i ≠ s.j)
      (.param (fun v => .raise .unreadBytes v) fun s => zext32 (s.j - s.i))
      ((refill_within .refill).bind fun _ => .ok ())
  | readByte => exact (plainRead_within .readByte).bind giveResult_within
  | readStuffed => exact readStuffed_within
  | unread => exact .ok () unreadSeq_aside
  | readFull n => exact (readFullLoop_within n).after startTransfer startTransfer_aside
  | ignore n => exact (ignoreFrom_within (roundsFor n) n).after startTransfer startTransfer_aside
  | init => contradiction

/-- Settles O53: where the body goes on it latches no fault, and `finish` clears BUSY; elsewhere it has not reached the
write of RESULT. -/
theorem onlyCompletedReadsWriteResult : Obligations.OnlyCompletedReadsWriteResult := by
  intro s t i hf hi ht hc
  have hk := (body_within hi).kept s
  rw [exec_eq] at ht
  obtain ⟨q, hq, rfl⟩ | ⟨q, hq, rfl⟩ | ⟨w, q, hq, rfl⟩ := finish_cases ht <;> rw [hq] at hk
  · obtain ⟨-, hfq, hr⟩ := hk
    obtain ⟨h1, h2⟩ | hb | hft := hc
    · exact hr (writesResult_of_ne h1 h2)
    · contradiction
    · exact absurd (hft.symm.trans (hfq.trans hf)) (by decide)
  · exact hk.2
  · exact hk.2

end Sys2Proof.Machine
end

section
/-! PROOFS. When the source's bytes arrive makes no difference: pseudocode that waits in a pull goes on, when the source
has revealed more, as it would have gone on had the source revealed that from the start. -/

namespace Sys2Proof.Machine

/-! ## A source that reveals more -/

/-- What a source may come to: it reveals more while it has not ended, and stays as it is once it has
(10_state.md R32). -/
def Extends (a b : Source) : Prop := a.seq <+: b.seq ∧ (a.ended = true → b = a)

theorem Extends.refl (a : Source) : Extends a a := ⟨List.prefix_refl _, fun _ => rfl⟩

theorem revealed_self {src : Source} {s : State} (h : s.source = src) : revealed src s = s := by
  rw [← h]
  rfl

theorem DataInv.revealed {src : Source} {s : State} (h : DataInv s) (hx : Extends s.source src) :
    DataInv (revealed src s) := by
  obtain ⟨⟨bs, hbs⟩, hend⟩ := hx
  cases he : s.source.ended with
  | true => rwa [revealed_self (hend he).symm]
  | false =>
    have hr := h.reveal bs he
    obtain ⟨seq, ended⟩ := src
    obtain rfl : s.source.seq ++ bs = seq := hbs
    cases ended with
    | true => exact hr.endSource
    | false => rwa [Source.reveal, he] at hr

/-! ## Parts that do not pull -/

/-- It does not wait in a pull. -/
def NeverPulls {α : Type} (r : Res α) : Prop := ∀ n k t, r ≠ .stop (.waits (.pull n k)) t

theorem neverPulls_ok {α : Type} (a : α) (s : State) : NeverPulls (.ok a s) := fun _ _ _ h => nomatch h

theorem neverPulls_raise {α : Type} (f : FaultKind) (v : Word) (s : State) : NeverPulls (raise f v s : Res α) :=
  fun _ _ _ h => nomatch h

theorem NeverPulls.bind {α β : Type} {r : Res α} {f : α → State → Res β} (h : NeverPulls r)
    (hf : ∀ a t, NeverPulls (f a t)) : NeverPulls (r.bind f) := by
  cases r with
  | ok a t => exact hf a t
  | stop w t =>
    intro n k q hq
    injection hq with hw ht
    exact h n k t (by rw [hw])

theorem memRead_neverPulls (k : Nat) (s : State) : NeverPulls (memRead k s) := by
  unfold memRead
  split
  · exact neverPulls_ok _ _
  · exact fun _ _ _ h => nomatch h

theorem stuffedAfterSecond_neverPulls (y : Byte) (s : State) : NeverPulls (stuffedAfterSecond y s) := by
  unfold stuffedAfterSecond
  split
  · exact neverPulls_raise _ _ _
  · exact neverPulls_ok _ _

theorem stuffedFast_neverPulls (s : State) : NeverPulls (stuffedFast s) := by
  refine (memRead_neverPulls _ s).bind fun x t => ?_
  simp only
  split
  · exact neverPulls_ok _ _
  · refine (memRead_neverPulls _ _).bind fun y r => ?_
    split
    · exact neverPulls_raise _ _ _
    · exact neverPulls_ok _ _

theorem emitLoop_neverPulls (rem count left t : Nat) (s : State) : NeverPulls (emitLoop rem count left t s) := by
  induction left generalizing t s with
  | zero => exact neverPulls_ok _ _
  | succ left ih =>
    rw [emitLoop_succ]
    refine (memRead_neverPulls _ s).bind fun v r => ?_
    split
    · exact fun _ _ _ h => nomatch h
    · exact ih _ _

theorem memRead_revealed (src : Source) (k : Nat) (s : State) :
    memRead k (revealed src s) = (memRead k s).onState (revealed src) := by
  by_cases h : k < s.cfg.bufCap
  · rw [memRead_of_lt h, memRead_of_lt (s := revealed src s) h]
    rfl
  · rw [memRead_of_ge (Nat.le_of_not_lt h), memRead_of_ge (s := revealed src s) (Nat.le_of_not_lt h)]
    rfl

/-- A sequence is read on the revealed source as its parts are. -/
theorem Res.onState_bind {α β : Type} {r : Res α} {f g : α → State → Res β} {F : State → State}
    (h : ∀ a t, g a (F t) = (f a t).onState F) : (r.onState F).bind g = (r.bind f).onState F := by
  cases r with
  | ok a t => exact h a t
  | stop w t => rfl

theorem plainTake_revealed (src : Source) (s : State) :
    plainTake (revealed src s) = (plainTake s).onState (revealed src) := by
  unfold plainTake
  rw [memRead_revealed src (revealed src s).i s]
  exact Res.onState_bind fun _ _ => rfl

theorem emitLoop_revealed (src : Source) (rem count left t : Nat) (s : State) :
    emitLoop rem count left t (revealed src s) = (emitLoop rem count left t s).onState (revealed src) := by
  induction left generalizing t s with
  | zero => rfl
  | succ left ih =>
    rw [emitLoop_succ, emitLoop_succ, memRead_revealed src ((revealed src s).i + t) s]
    refine Res.onState_bind fun v r => ?_
    by_cases h : r.outReady = some 0
    · rw [if_pos h, if_pos (show (revealed src r).outReady = some 0 from h)]
      rfl
    · rw [if_neg h, if_neg (show ¬ (revealed src r).outReady = some 0 from h)]
      exact ih _ (delivered v r)

/-! ## Parts that pull -/

/-- `r'` is what `r` comes to on the source `src`: the same where `r` goes on, and `rest` of it where `r` waits in the
pull it makes for `k`, which it does only on a source that has not ended. -/
def Arrives {α : Type} (src : Source) (k : PullFor) (rest : Nat → State → Res α) (r r' : Res α) : Prop :=
  r.Sat (fun a t => r' = .ok a (revealed src t))
    (fun w t => ∀ n k', w = .waits (.pull n k') → k' = k ∧ t.source.ended = false ∧ r' = rest n (revealed src t))

theorem refill_arrives {src : Source} {s : State} (h : DataInv s) (hi : s.i = s.j) (hx : Extends s.source src)
    (k : PullFor) : Arrives src k (fun n => pull n k) (refill k s) (refill k (revealed src s)) := by
  have hspec := refill_spec h hi k
  obtain ⟨⟨bs, hbs⟩, hend⟩ := hx
  cases he : s.source.ended with
  | true =>
    rw [revealed_self (hend he).symm]
    generalize refill k s = r at hspec ⊢
    cases r with
    | ok a t => exact congrArg (Res.ok a) (revealed_self (hspec.frame.source.trans (hend he).symm)).symm
    | stop w t =>
      obtain ⟨n, -, p⟩ := hspec
      have hs := p.silent.1
      rw [p.frame.source, he] at hs
      contradiction
  | false =>
    obtain ⟨-, -, -, hj⟩ := h.cursor
    have hr := refill_revealed k hj hbs.symm he
    unfold Arrives
    generalize refill k s = r at hspec hr ⊢
    cases r with
    | ok a t => exact hr
    | stop w t =>
      obtain ⟨n, -, p⟩ := hspec
      exact fun m k' hw => ⟨(hr m k' hw).1, p.silent.1, (hr m k' hw).2⟩

/-- A part that pulls, with a part behind it that does not. -/
theorem Arrives.bind {α β : Type} {src : Source} {k : PullFor} {rest : Nat → State → Res α} {r r' : Res α}
    {f : α → State → Res β} (h : Arrives src k rest r r') (hf : ∀ a t, NeverPulls (f a t))
    (hr : ∀ a t, f a (revealed src t) = (f a t).onState (revealed src)) :
    Arrives src k (fun n s => (rest n s).bind f) (r.bind f) (r'.bind f) := by
  cases r with
  | ok a t =>
    have h : r' = .ok a (revealed src t) := h
    rw [h, Res.ok_bind, Res.ok_bind, hr]
    have hn := hf a t
    generalize f a t = q at hn ⊢
    cases q with
    | ok b v => rfl
    | stop w v => exact fun n k' hw => absurd (by rw [hw]) (hn n k' v)
  | stop w t =>
    intro n k' hw
    obtain ⟨hk, he, rfl⟩ := h n k' hw
    exact ⟨hk, he, rfl⟩

theorem needBytes_arrives {src : Source} {s : State} (h : DataInv s) (hi : s.i = s.j) (hx : Extends s.source src)
    (need : Nat) (k : PullFor) :
    Arrives src k (fun n => resumeNeedBytes need n k) (needBytes need k s) (needBytes need k (revealed src s)) := by
  refine (refill_arrives h hi hx k).bind (fun got t => ?_) fun got t => ?_ <;> unfold checkReceived <;> split
  · exact neverPulls_raise _ _ _
  · exact neverPulls_ok _ _
  · rfl
  · rfl

theorem plainRead_arrives {src : Source} {s : State} (h : DataInv s) (hx : Extends s.source src) (k : PullFor) :
    Arrives src k (fun n => resumePlainRead n k) (plainRead k s) (plainRead k (revealed src s)) := by
  have ht : ∀ t, NeverPulls (plainTake t) := fun t => (memRead_neverPulls _ t).bind fun _ _ => neverPulls_ok _ _
  refine Arrives.bind ?_ (fun _ => ht) fun _ => plainTake_revealed src
  by_cases hi : s.i = s.j
  · rw [if_pos hi, if_pos (show (revealed src s).i = (revealed src s).j from hi)]
    exact needBytes_arrives h hi hx 1 k
  · rw [if_neg hi, if_neg (show ¬ (revealed src s).i = (revealed src s).j from hi)]
    rfl

/-! ## Bodies -/

/-- Where `r` waits in a pull, its source has not ended, and `r'` is what the waiting command does on the
source `src`. -/
def GoesOn (src : Source) (r r' : Res Unit) : Prop :=
  ∀ n k t, r = .stop (.waits (.pull n k)) t → t.source.ended = false ∧ r' = continueFrom (.pull n k) (revealed src t)

theorem NeverPulls.goesOn {src : Source} {r r' : Res Unit} (h : NeverPulls r) : GoesOn src r r' :=
  fun n k t ht => absurd ht (h n k t)

/-- A part that pulls, and then the rest of the body. -/
theorem Arrives.goesOn {α : Type} {src : Source} {k : PullFor} {rest : Nat → State → Res α} {r r' : Res α}
    {f : α → State → Res Unit} {P : α → State → Prop} {Q : Stop → State → Prop} (h : Arrives src k rest r r')
    (hp : r.Sat P Q) (hk : ∀ n q, continueFrom (.pull n k) q = (rest n q).bind f)
    (hf : ∀ a t, P a t → GoesOn src (f a t) (f a (revealed src t))) : GoesOn src (r.bind f) (r'.bind f) := by
  cases r with
  | ok a t =>
    have h : r' = .ok a (revealed src t) := h
    rw [h]
    exact hf a t hp
  | stop w t =>
    intro n k' q hq
    injection hq with hw ht
    subst ht
    obtain ⟨rfl, he, rfl⟩ := h n k' hw
    exact ⟨he, (hk n _).symm⟩

/-- A part that does not pull, and then the rest of the body. -/
theorem NeverPulls.goesOn_bind {α : Type} {src : Source} {r r' : Res α} {f : α → State → Res Unit}
    {P : α → State → Prop} {Q : Stop → State → Prop} (h : NeverPulls r) (hr : r' = r.onState (revealed src))
    (hp : r.Sat P Q) (hf : ∀ a t, P a t → GoesOn src (f a t) (f a (revealed src t))) :
    GoesOn src (r.bind f) (r'.bind f) := by
  subst hr
  cases r with
  | ok a t => exact hf a t hp
  | stop w t =>
    intro n k q hq
    injection hq with hw ht
    exact absurd (by rw [hw]) (h n k t)

theorem stuffedAfterFirst_goesOn {src : Source} {t : State} (h : DataInv t) (hi : 1 ≤ t.i)
    (hx : Extends t.source src) (x : Byte) :
    GoesOn src (stuffedAfterFirst x t) (stuffedAfterFirst x (revealed src t)) := by
  have h1 : DataInv { t with u := 1 } := h.setCursor h.i_le_j hi (by decide)
  unfold stuffedAfterFirst
  simp only
  split
  · exact (neverPulls_ok _ _).goesOn
  · exact (plainRead_arrives h1 hx .stuffedSecond).goesOn (plainRead_spec h1 .stuffedSecond) (fun _ _ => rfl)
      fun y q _ => (stuffedAfterSecond_neverPulls y q).goesOn

theorem readStuffed_goesOn {src : Source} {s : State} (h : DataInv s) (hx : Extends s.source src) :
    GoesOn src (readStuffed s) (readStuffed (revealed src s)) := by
  unfold readStuffed
  by_cases hij : s.i + 2 ≤ s.j
  · rw [if_pos hij]
    exact (stuffedFast_neverPulls s).goesOn
  · rw [if_neg hij, if_neg (show ¬ (revealed src s).i + 2 ≤ (revealed src s).j from hij)]
    refine (plainRead_arrives h hx .stuffedFirst).goesOn (plainRead_spec h .stuffedFirst) (fun _ _ => rfl)
      fun x t p => ?_
    exact stuffedAfterFirst_goesOn p.inv p.i (by rw [p.frame.source]; exact hx) x

/-! ## The transfers -/

/-- A transfer that owes `rem` bytes, at the start of a round. -/
structure Owes (rem : Nat) (s : State) : Prop where
  inv : DataInv s
  u : s.u = 0
  xfer : s.xfer.toNat + rem < 2 ^ 24

theorem Owes.revealed {src : Source} {rem : Nat} {s : State} (h : Owes rem s) (hx : Extends s.source src) :
    Owes rem (revealed src s) :=
  ⟨h.inv.revealed hx, h.u, h.xfer⟩

theorem Owes.advance {rem count : Nat} {s : State} (h : Owes rem s) (hr : count ≤ rem) (hc : s.i + count ≤ s.j) :
    Owes (rem - count) (advance count s) where
  inv := h.inv.advance hc (by have := h.xfer; omega)
  u := h.u
  xfer := by
    have hx := h.xfer
    rw [advance_xfer, xfer_toNat (by omega)]
    omega

theorem Owes.startTransfer {s : State} {n : Nat} (h : DataInv s) (hn : lenFits n = true) : Owes n (startTransfer s) :=
  ⟨h.startTransfer, startTransfer_u s, startTransfer_xfer_lt hn⟩

/-- The end of a round of READ_FULL or IGNORE, whose refill waits for `k`, and its further rounds. -/
theorem roundEnd_goesOn {src : Source} {rem : Nat} {s : State} {loop : State → Res Unit} {k : PullFor} (h : Owes rem s)
    (hx : Extends s.source src) (hi : rem ≠ 0 → s.i = s.j)
    (hk : ∀ n q, continueFrom (.pull n k) q = (resumeNeedBytes rem n k q).bind fun _ => loop)
    (hloop : ∀ q, rem ≠ 0 → Owes rem q → q.i < q.j → Extends q.source src →
      GoesOn src (loop q) (loop (revealed src q))) :
    GoesOn src (roundEnd rem (fun r => (needBytes rem k r).bind fun _ => loop) s)
      (roundEnd rem (fun r => (needBytes rem k r).bind fun _ => loop) (revealed src s)) := by
  unfold roundEnd
  by_cases hr : rem = 0
  · rw [if_pos hr]
    exact (neverPulls_ok _ _).goesOn
  · rw [if_neg hr, if_neg hr]
    refine (needBytes_arrives h.inv (hi hr) hx rem k).goesOn (needBytes_spec h.inv (hi hr) rem k) hk ?_
    rintro _ q ⟨n, hn, p⟩
    have hj := p.j
    exact hloop q hr ⟨p.inv, by rw [p.frame.u, h.u], by rw [p.frame.xfer]; exact h.xfer⟩ (by omega)
      (by rw [p.frame.source]; exact hx)

/-- IGNORE's loop round by round, whatever bound on its rounds it was given (log 14). -/
theorem ignoreLoop_eq {rem : Nat} {s : State} (h : Owes rem s) :
    ignoreLoop rem s =
      let m := min (unreadLen s) rem
      roundEnd (rem - m) (fun r => (needBytes (rem - m) (.ignore (rem - m)) r).bind fun _ => ignoreLoop (rem - m))
        (advance m s) := by
  rw [ignoreLoop, ignoreFrom_fuel (g := roundsFor (rem - min (unreadLen s) rem) + 1) h.inv h.u h.xfer
    (by rw [roundsFor]; omega) (by rw [roundsFor, unreadLen]; omega)]
  rfl

/-- READ_FULL's loop round by round. -/
theorem readFullLoop_eq {rem : Nat} {s : State} (h : Owes rem s) (hr : rem ≠ 0) :
    readFullLoop rem s =
      let count := min rem (unreadLen s)
      (emitLoop rem count count 0 s).bind fun _ r =>
        roundEnd (rem - count)
          (fun r => (needBytes (rem - count) (.readFull (rem - count)) r).bind fun _ => readFullLoop (rem - count))
          (advance count r) := by
  have hl : unreadLen s = s.j - s.i := rfl
  rw [readFullLoop, copyCount, if_neg hr, Res.ok_bind, hl,
    readFullFrom_fuel (g := roundsFor (rem - min rem (s.j - s.i)) + 1) h.inv h.u h.xfer rfl (Nat.zero_le _)
      (by rw [roundsFor]; omega) (by rw [roundsFor]; omega)]
  rfl

/-- By induction on the bytes owed beyond the unread ones. -/
theorem ignoreLoop_goesOn {src : Source} (m : Nat) {rem : Nat} {s : State} (h : Owes rem s)
    (hx : Extends s.source src) (hm : rem ≤ m + min (unreadLen s) rem) :
    GoesOn src (ignoreLoop rem s) (ignoreLoop rem (revealed src s)) := by
  have hij := h.inv.i_le_j
  have hu : unreadLen s = s.j - s.i := rfl
  rw [ignoreLoop_eq h, ignoreLoop_eq (h.revealed hx)]
  refine roundEnd_goesOn (h.advance (Nat.min_le_right ..) (by omega)) hx (fun hr => ?_) (fun _ _ => rfl)
    fun q hr hq hlt hqx => ?_
  · rw [advance_i, advance_j]
    omega
  · cases m with
    | zero => omega
    | succ m =>
      have hlq : unreadLen q = q.j - q.i := rfl
      exact ignoreLoop_goesOn m hq hqx (by omega)

theorem readFullLoop_goesOn {src : Source} (m : Nat) {rem : Nat} {s : State} (h : Owes rem s)
    (hx : Extends s.source src) (hm : rem ≤ m + min rem (unreadLen s)) :
    GoesOn src (readFullLoop rem s) (readFullLoop rem (revealed src s)) := by
  have hij := h.inv.i_le_j
  have hu : unreadLen s = s.j - s.i := rfl
  by_cases h0 : rem = 0
  · subst h0
    exact (neverPulls_raise .copyEmptyDest 0 s).goesOn
  rw [readFullLoop_eq h h0, readFullLoop_eq (h.revealed hx) h0]
  refine (emitLoop_neverPulls _ _ _ _ s).goesOn_bind (emitLoop_revealed src _ _ _ _ s)
    (emitLoop_spec h.inv rem _ _ 0 (by omega)) ?_
  rintro _ r rfl
  have hr : Owes rem (emitted 0 (min rem (unreadLen s)) s) := ⟨h.inv.emitted _ _, h.u, h.xfer⟩
  refine roundEnd_goesOn (hr.advance (Nat.min_le_left ..) (by simp only [emitted]; omega)) hx (fun hr => ?_)
    (fun _ _ => rfl) fun q hr hq hlt hqx => ?_
  · simp only [advance_i, advance_j, emitted]
    omega
  · cases m with
    | zero => omega
    | succ m =>
      have hlq : unreadLen q = q.j - q.i := rfl
      exact readFullLoop_goesOn m hq hqx (by omega)

/-! ## Commands -/

theorem startTransfer_revealed (src : Source) (s : State) :
    startTransfer (revealed src s) = revealed src (startTransfer s) := by
  rw [startTransfer_eq, startTransfer_eq]
  unfold rewound revealed
  simp only
  split <;> rfl

/-- Every command that waits in a pull goes on as it would have run on the fuller source. -/
theorem body_goesOn {src : Source} {s : State} {i : Instr} (h : DataInv s) (hi : i.wf = true)
    (hx : Extends s.source src) : GoesOn src (body i s) (body i (revealed src s)) := by
  have hxt : Extends (startTransfer s).source src := by rwa [startTransfer_aside.source]
  cases i with
  | refill =>
    rw [body, body]
    by_cases hij : s.i = s.j
    · rw [if_neg (not_not_intro hij), if_neg (show ¬ (revealed src s).i ≠ (revealed src s).j from not_not_intro hij)]
      exact (refill_arrives h hij hx .refill).goesOn (refill_spec h hij .refill) (fun _ _ => rfl) fun _ _ _ =>
        (neverPulls_ok _ _).goesOn
    · rw [if_pos hij]
      exact (neverPulls_raise _ _ _).goesOn
  | readByte =>
    exact (plainRead_arrives h hx .readByte).goesOn (plainRead_spec h .readByte) (fun _ _ => rfl) fun _ _ _ =>
      (neverPulls_ok _ _).goesOn
  | readStuffed => exact readStuffed_goesOn h hx
  | unread => exact (neverPulls_ok _ _).goesOn
  | readFull n =>
    rw [body, body, startTransfer_revealed]
    exact readFullLoop_goesOn n (.startTransfer h hi) hxt (Nat.le_add_right ..)
  | ignore n =>
    rw [body, body, startTransfer_revealed]
    exact ignoreLoop_goesOn n (.startTransfer h hi) hxt (Nat.le_add_right ..)
  | init => exact (neverPulls_ok _ _).goesOn

theorem finish_onState_setControl (b : Bool) (w : Option Wait) (r : Res Unit) :
    finish (r.onState (setControl b w)) = finish r :=
  match r with
  | .ok _ _ => rfl
  | .stop .raised _ => rfl
  | .stop (.waits _) _ => rfl
  | .stop (.fault _) _ => rfl

/-- A command that waits in a pull has left its source, which has not ended, and when the source has come to `src` it
answers what the command would have answered on `src` from the start. -/
theorem exec_goesOn {src : Source} {s t : State} {i : Instr} {n : Nat} {k : PullFor} (h : DataInv s)
    (hi : i.wf = true) (hx : Extends s.source src) (ht : exec i s = .next t) (hw : t.waiting = some (.pull n k)) :
    t.source = s.source ∧ t.source.ended = false ∧
      resume (revealed src t) = exec i (revealed src s) := by
  have hni : i ≠ .init := by
    rintro rfl
    injection ht with ht
    rw [← ht] at hw
    contradiction
  have hbody := body_within hni
  rw [exec_eq] at ht
  obtain ⟨q, -, rfl⟩ | ⟨q, -, rfl⟩ | ⟨w, q, hq, rfl⟩ := finish_cases ht
  · contradiction
  · contradiction
  · obtain rfl : w = .pull n k := by injection hw
    have hkept := hbody.kept s
    rw [hq] at hkept
    have hgo := body_goesOn (s := setControl true (some (.pull n k)) s) (h.of_control rfl) hi hx
    rw [hbody.control, hq] at hgo
    obtain ⟨he, hrun⟩ := hgo n k _ rfl
    refine ⟨hkept.1, he, ?_⟩
    calc resume (revealed src (park (.pull n k) q))
        = finish (body i (setControl true (some (.pull n k)) (revealed src s))) := congrArg finish hrun.symm
      _ = exec i (revealed src s) := by rw [hbody.control, finish_onState_setControl, exec_eq]

/-- Settles O54: the source's further bytes, and its end, are two of the sources it may come to. -/
theorem arrivalMakesNoDifference : Obligations.ArrivalMakesNoDifference := by
  intro s t i n k bs h hi ht hw
  obtain ⟨hs, he, -⟩ := exec_goesOn h hi (Extends.refl s.source) ht hw
  rw [hs] at he
  have hx : ∀ b : Source, s.source.seq <+: b.seq → Extends s.source b := fun b hb => ⟨hb, fun h => by simp [he] at h⟩
  constructor
  · have hb := (exec_goesOn h hi (hx (s.source.reveal bs) (List.prefix_append ..)) ht hw).2.2
    rw [sourceBytes, hs, if_neg (by simp [he])]
    exact hb
  · rw [sourceEnd, hs]
    exact (exec_goesOn h hi (hx { s.source with ended := true } (List.prefix_refl _)) ht hw).2.2

end Sys2Proof.Machine
end

section
/-! PROOFS. The register accesses that are refused, and what INIT leaves of an old session. -/

namespace Sys2Proof.Machine

/-- A misaligned access inside the window, or one not of four bytes, reaches no offset. -/
theorem busOffset_refused {c : Config} {off bytes : Nat} (hv : c.Valid) (hw : off < c.window)
    (ho : off % 4 ≠ 0 ∨ bytes ≠ 4) :
    busOffset (c.base + off) bytes c = .error (.busAccess (c.base + off) bytes) := by
  obtain ⟨-, -, -, -, hb⟩ := hv
  unfold busOffset
  rw [if_neg (by omega), if_neg (by omega)]

/-- Settles O15: reads and writes reach the block through `busOffset` alone. -/
theorem oddAccessesRefused : Obligations.OddAccessesRefused := by
  intro s off bytes w rest hv hw ho
  constructor <;> intro hi
  · rw [step_of_inputs hi, takeInput, busWrite, busOffset_refused hv hw ho]
  · rw [step_of_inputs hi, takeInput, busRead, busOffset_refused hv hw ho]

/-- Settles O44: INIT writes every other part of the state, or takes it over from what the other agents hold. -/
theorem sessionsAreIndependent : Obligations.SessionsAreIndependent := by
  intro s t hn ha h1 h2 ho hd
  refine ⟨_, _, rfl, rfl, ⟨hn, rfl, rfl, rfl, ha, h1, h2, rfl, rfl, rfl, rfl, rfl, ho, hd⟩, ?_⟩
  simp only [attachNext, clearSession, endCommand, hn, ha, h1, h2, ho, hd]

end Sys2Proof.Machine
end

section
/-! PROOFS. READ_FULL and the host's readiness: it emits as many bytes as it uses up of it, so it waits for the host
with exactly the bytes delivered that the host accepted. -/

namespace Sys2Proof.Machine

/-! ## READ_FULL round by round -/

theorem Res.Sat.and {α : Type} {r : Res α} {P P' : α → State → Prop} {Q Q' : Stop → State → Prop} (h : r.Sat P Q)
    (h' : r.Sat P' Q') : r.Sat (fun a t => P a t ∧ P' a t) (fun w t => Q w t ∧ Q' w t) := by
  cases r with
  | ok a t => exact ⟨h, h'⟩
  | stop w t => exact ⟨h, h'⟩

/-- The rest of a READ_FULL behind the emissions of a round of `count` bytes (44_read_full_ignore.md R181). -/
def afterRound (rem count : Nat) (_ : Unit) (r : State) : Res Unit :=
  roundEnd (rem - count)
    (fun q => (needBytes (rem - count) (.readFull (rem - count)) q).bind fun _ => readFullLoop (rem - count))
    (advance count r)

/-- READ_FULL from byte `t` of a round on: the round's emissions, and the rest (log 14). -/
theorem readFullFrom_eq {rem count t : Nat} {s : State} (h : Owes rem s) (hc : count = min rem (unreadLen s))
    (ht : t ≤ count) :
    readFullFrom (roundsFor rem) rem count t s =
      (emitLoop rem count (count - t) t s).bind (afterRound rem count) := by
  rw [readFullFrom_fuel (g := roundsFor (rem - count) + 1) h.inv h.u h.xfer hc ht (by rw [roundsFor]; omega)
    (by rw [roundsFor]; omega)]
  rfl

/-- READ_FULL from the start of a round: the same with none of its bytes emitted. -/
theorem readFullLoop_round {rem : Nat} {s : State} (h : Owes rem s) (hr : rem ≠ 0) :
    readFullLoop rem s =
      (emitLoop rem (min rem (unreadLen s)) (min rem (unreadLen s)) 0 s).bind (afterRound rem (min rem (unreadLen s))) :=
  readFullLoop_eq h hr

/-- Emissions leave what is owed as it was: it goes down at the end of a round. -/
theorem Owes.emitted {rem : Nat} {s : State} (h : Owes rem s) (t m : Nat) : Owes rem (emitted t m s) :=
  ⟨h.inv.emitted t m, h.u, h.xfer⟩

/-- Induction over the rounds of READ_FULL: what holds of a transfer when it holds after its first round, where that
leaves bytes owed, holds of every transfer. Every round behind the first moves a byte. -/
theorem Owes.induction {P : Nat → State → Prop}
    (step : ∀ rem s, Owes rem s →
      (∀ q, rem - min rem (unreadLen s) ≠ 0 → Owes (rem - min rem (unreadLen s)) q → q.i < q.j →
        P (rem - min rem (unreadLen s)) q) → P rem s)
    {rem : Nat} {s : State} (h : Owes rem s) : P rem s := by
  have main : ∀ m rem s, Owes rem s → rem ≤ m + min rem (unreadLen s) → P rem s := by
    intro m
    induction m with
    | zero => exact fun rem s h hm => step rem s h fun q hne _ _ => absurd hm (by omega)
    | succ m ih =>
      intro rem s h hm
      refine step rem s h fun q _ hq hlt => ih _ q hq ?_
      have hl : unreadLen q = q.j - q.i := rfl
      omega
  exact main rem rem s h (Nat.le_add_right ..)

/-- After the emissions of a round nothing is owed any more, or bytes are owed, no byte is left unread and a refill
follows. -/
theorem afterRound_cases {rem : Nat} {s : State} (h : Owes rem s) :
    let count := min rem (unreadLen s)
    let r := emitted 0 count s
    (rem - count = 0 ∧ afterRound rem count () r = .ok () (advance count r)) ∨
    (rem - count ≠ 0 ∧ Owes (rem - count) (advance count r) ∧ (advance count r).i = (advance count r).j ∧
      afterRound rem count () r =
        (needBytes (rem - count) (.readFull (rem - count)) (advance count r)).bind fun _ =>
          readFullLoop (rem - count)) := by
  have hij := h.inv.i_le_j
  have hl : unreadLen s = s.j - s.i := rfl
  by_cases hr : rem - min rem (unreadLen s) = 0
  · exact .inl ⟨hr, if_pos hr⟩
  · refine .inr ⟨hr, (h.emitted _ _).advance (Nat.min_le_left ..) ?_, ?_, if_neg hr⟩
    · simp only [Machine.emitted]
      omega
    · simp only [advance_i, advance_j, Machine.emitted]
      omega

/-- Where a refill goes on, as much is owed as before, and a byte stands unread. -/
theorem Owes.refilled {rem n : Nat} {s q : State} (h : Owes rem s) (p : Refilled n s q) (hn : 0 < n) :
    Owes rem q ∧ q.i < q.j := by
  have hj := p.j
  exact ⟨⟨p.inv, by rw [p.frame.u, h.u], by rw [p.frame.xfer]; exact h.xfer⟩, by omega⟩

/-! ## A host that accepts so many bytes -/

/-- As many bytes have been delivered as the host's readiness has gone down by (20_memory.md R55). -/
def Metered (s t : State) : Prop :=
  ∀ a, s.outReady = some a → ∃ b, t.outReady = some b ∧ t.dataOut.length + b = s.dataOut.length + a

theorem Metered.of_eq {s t : State} (hr : t.outReady = s.outReady) (hd : t.dataOut = s.dataOut) : Metered s t :=
  fun a ha => ⟨a, hr.trans ha, by rw [hd]⟩

theorem Metered.trans {s t r : State} (h : Metered s t) (h' : Metered t r) : Metered s r := by
  intro a ha
  obtain ⟨b, hb, hab⟩ := h a ha
  obtain ⟨c, hc, hbc⟩ := h' b hb
  exact ⟨c, hc, by omega⟩

theorem RefillFrame.metered {s t : State} (h : RefillFrame s t) : Metered s t := .of_eq h.outReady h.dataOut

theorem metered_delivered {s : State} (v : Byte) (h : s.outReady ≠ some 0) : Metered s (delivered v s) := by
  intro a ha
  have h0 : a ≠ 0 := fun h0 => h (by rw [ha, h0])
  refine ⟨a - 1, by simp only [delivered, readyAfter, ha, Option.map_some], ?_⟩
  simp only [delivered, List.length_append, List.length_singleton]
  omega

/-- Pseudocode that delivers as many bytes as it takes of the host's readiness, however it ends. -/
def Meters {α : Type} (s : State) (r : Res α) : Prop := r.Sat (fun _ t => Metered s t) (fun _ t => Metered s t)

theorem Meters.after {α : Type} {s t : State} {r : Res α} (h : Meters t r) (hm : Metered s t) : Meters s r :=
  h.mono (fun _ _ => hm.trans) fun _ _ => hm.trans

theorem Meters.bind {α β : Type} {s : State} {r : Res α} {f : α → State → Res β} (h : Meters s r)
    (hf : ∀ a t, Meters t (f a t)) : Meters s (r.bind f) :=
  Res.Sat.bind h fun a t ht => (hf a t).after ht

theorem memRead_meters (k : Nat) (s : State) : Meters s (memRead k s) := by
  unfold memRead
  split
  · exact Metered.of_eq rfl rfl
  · exact Metered.of_eq rfl rfl

theorem emitLoop_meters (rem count left t : Nat) (s : State) : Meters s (emitLoop rem count left t s) := by
  induction left generalizing t s with
  | zero => exact Metered.of_eq rfl rfl
  | succ left ih =>
    rw [emitLoop_succ]
    refine (memRead_meters _ s).bind fun v r => ?_
    split
    · exact Metered.of_eq rfl rfl
    · rename_i h0
      exact (ih _ _).after (metered_delivered v h0)

theorem readFullLoop_meters {rem : Nat} {s : State} (h : Owes rem s) : Meters s (readFullLoop rem s) := by
  refine Owes.induction (P := fun rem s => Meters s (readFullLoop rem s)) (fun rem s h ih => ?_) h
  by_cases h0 : rem = 0
  · subst h0
    exact Metered.of_eq rfl rfl
  have hij := h.inv.i_le_j
  have hl : unreadLen s = s.j - s.i := rfl
  rw [readFullLoop_round h h0]
  refine Res.Sat.bind (((emitLoop_spec h.inv rem _ _ 0 (by omega)).and (emitLoop_meters _ _ _ _ s)).mono
    (fun _ _ p => p) fun _ _ p => p.2) ?_
  rintro _ _ ⟨rfl, hm⟩
  have hround : Metered s (advance (min rem (unreadLen s)) (emitted 0 (min rem (unreadLen s)) s)) :=
    hm.trans (.of_eq rfl rfl)
  obtain ⟨-, hr⟩ | ⟨hne, ho, he, hr⟩ := afterRound_cases h
  · rw [hr]
    exact hround
  · rw [hr]
    refine Res.Sat.bind ((needBytes_spec ho.inv he _ _).mono (fun _ _ p => p) ?_) ?_
    · rintro _ _ (⟨-, r, p, rfl⟩ | ⟨n, -, p⟩)
      · exact hround.trans p.frame.metered
      · exact hround.trans p.frame.metered
    · rintro _ q ⟨n, hn, p⟩
      obtain ⟨hq, hlt⟩ := ho.refilled p hn
      exact (ih q hne hq hlt).after (hround.trans p.frame.metered)

/-- How many bytes of the stream a metered piece of pseudocode has delivered. -/
theorem Metered.count {s t : State} (h : Metered s t) {m e pos : Nat} (hr : s.outReady = some m)
    (hd : t.dataOut = s.dataOut ++ (s.source.seq.drop pos).take e) (he : pos + e ≤ s.source.seq.length) :
    e ≤ m ∧ t.outReady = some (m - e) := by
  obtain ⟨b, hb, hl⟩ := h m hr
  rw [hd, List.length_append, List.length_take, List.length_drop] at hl
  exact ⟨by omega, by rw [hb]; congr 1; omega⟩

theorem DataInv.streamPos_add {s : State} (h : DataInv s) : streamPos s + unreadLen s = s.sp := by
  have hj := h.window.1
  rw [streamPos, unreadLen]
  omega

theorem DataInv.sp_le {s : State} (h : DataInv s) : s.sp ≤ s.source.seq.length := h.window.2.1

/-- Bytes that have been moved were there, and the host has accepted them. -/
theorem Moved.accepted {n m : Nat} {s r q : State} (h : Moved true 0 n s r) (hm : Metered s q)
    (hq : q.dataOut = r.dataOut) (hr : s.outReady = some m) :
    streamPos s + n ≤ s.source.seq.length ∧ n ≤ m := by
  have hp := h.pos
  have h1 := h.inv.streamPos_add
  have h2 := h.inv.sp_le
  rw [h.frame.source] at h2
  have hl : streamPos s + n ≤ s.source.seq.length := by omega
  exact ⟨hl, (hm.count hr (hq.trans h.dataOut) hl).1⟩

/-- READ_FULL on a host that accepts fewer bytes than are owed, on a source that answers for one byte more, waits for
the host with exactly those delivered. -/
theorem readFullLoop_waits_for_host {s : State} {n m : Nat} (h : Owes n s) (hr : s.outReady = some m) (hmn : m < n)
    (ha : SourceAnswers (m + 1) s) (hl : streamPos s + m < s.source.seq.length) :
    ∃ t count p, readFullLoop n s = .stop (.waits (.emit (n - (m - p)) count p)) t ∧ TransferFrame s t ∧ DataInv t ∧
      p ≤ m ∧ p < count ∧ WaitsAfter true 0 (m - p) m n s (.emit (n - (m - p)) count p) t ∧ t.outReady = some 0 := by
  have hspec := (readFullLoop_spec h.inv h.u (Nat.zero_lt_of_lt hmn) h.xfer).and (readFullLoop_meters h)
  generalize readFullLoop n s = r at hspec ⊢
  cases r with
  | ok a t =>
    obtain ⟨hmv, hm⟩ := hspec
    have := hmv.accepted hm rfl hr
    omega
  | stop w t =>
    obtain ⟨⟨-, k, r, hk, -, hmv, rfl, hend, -⟩ | ⟨v, rfl, hw⟩, hm⟩ := hspec
    · have := hmv.accepted hm rfl hr
      omega
    · obtain ⟨k, e, hwa⟩ := hw.amount
      have hpos := hwa.pos
      have hsum := hw.inv.streamPos_add
      have hsp := hw.inv.sp_le
      rw [hw.frame.source] at hsp
      obtain ⟨he, got, rfl⟩ | ⟨-, h0, count, p, he, rfl⟩ := hwa.port
      · obtain ⟨-, hcap, -, hlive, hall, -⟩ := hw.wait
        have hek := (hm.count hr hwa.dataOut (by omega)).1
        rw [hw.frame.source] at hlive hall
        rw [hw.frame.cfg] at hcap
        obtain hend | hlen := ha
        · simp [hend] at hlive
        · have hu : unreadLen t ≤ t.j := Nat.sub_le ..
          omega
      · obtain ⟨hp, hc, -⟩ := hw.wait
        have hu : unreadLen t = t.j - t.i := rfl
        obtain ⟨hem, hre⟩ := hm.count hr hwa.dataOut (by omega)
        rw [h0] at hre
        injection hre with hre
        obtain rfl : e = m := by omega
        obtain rfl : k = e - p := by omega
        exact ⟨t, count, p, rfl, hw.frame, hw.inv, by omega, hp, hwa, h0⟩

/-- Settles O59: the wait of READ_FULL's loop, after the precondition step. -/
theorem readFullWaitsForHost : Obligations.ReadFullWaitsForHost := by
  intro s n m h hn hr hmn ha hl
  have hs := startTransfer_eq s
  have ho : Owes n (startTransfer s) := .startTransfer h (decide_eq_true hn)
  have hro : (rewound s).outReady = s.outReady := by rw [rewound_frame]
  have hrd : (rewound s).dataOut = s.dataOut := by rw [rewound_frame]
  have hrs : (rewound s).source = s.source := by rw [rewound_frame]
  rw [hs] at ho
  obtain ⟨t, count, p, he, hf, hi, hpm, hpc, hw, h0⟩ :=
    readFullLoop_waits_for_host ho (hro.trans hr) hmn ha (by rw [hrs]; exact hl)
  refine ⟨park (.emit (n - (m - p)) count p) t, count, p, ?_, hi.of_control rfl, hpm, hpc, hw.pos, ?_⟩
  · rw [exec, execReadFull, hs, he]
    rfl
  · have hd : t.dataOut = s.dataOut ++ ((s.source.seq.drop (streamPos (rewound s))).take m) := by
      rw [← hrd, ← hrs]
      exact hw.dataOut
    have hx : t.xfer = BitVec.ofNat 32 (m - p) := hw.xfer.trans (BitVec.zero_add _)
    rw [← hd, ← hx, ← h0]
    exact congrArg (park _) hf

end Sys2Proof.Machine
end

section
/-! PROOFS. When the host accepts the data-out bytes makes no difference: READ_FULL that waits for the host goes on, when
the host accepts more, as it would have gone on had the host accepted that from the start. -/

namespace Sys2Proof.Machine

/-! ## A host that accepts more -/

/-- The same state on a host that accepts so many more bytes (none: every byte), where it does not accept every byte
already. -/
def granted (g : Option Nat) (s : State) : State := { s with outReady := Option.map₂ (· + ·) s.outReady g }

theorem granted_some {s : State} {m : Nat} (h : s.outReady = some m) (r : Nat) :
    granted (some r) s = { s with outReady := some (m + r) } := by
  rw [granted, h]
  rfl

theorem granted_none {s : State} {m : Nat} (h : s.outReady = some m) : granted none s = { s with outReady := none } := by
  rw [granted, h]
  rfl

theorem DataInv.granted {s : State} (h : DataInv s) (g : Option Nat) : DataInv (granted g s) := h.of_control rfl

theorem Owes.granted {rem : Nat} {s : State} (h : Owes rem s) (g : Option Nat) : Owes rem (granted g s) :=
  ⟨h.inv.granted g, h.u, h.xfer⟩

theorem startTransfer_granted (g : Option Nat) (s : State) :
    startTransfer (granted g s) = granted g (startTransfer s) := by
  rw [startTransfer_eq, startTransfer_eq]
  unfold rewound granted
  simp only
  split <;> rfl

/-! ## A refill does not read the host's readiness -/

theorem pull_granted (g : Option Nat) (got : Nat) (k : PullFor) {s : State} (h : s.j ≤ s.cfg.bufCap) :
    pull got k (granted g s) = (pull got k s).onState (granted g) := by
  rw [pull_eq got k s h, pull_eq got k (granted g s) h]
  simp only [apply_ite (Res.onState (granted g))]
  rfl

theorem refill_granted (g : Option Nat) (k : PullFor) {s : State} (h : s.j ≤ s.cfg.bufCap) :
    refill k (granted g s) = (refill k s).onState (granted g) := by
  have hc : carried (granted g s) = granted g (carried s) := by
    unfold carried granted
    split <;> rfl
  have hcap : (carried s).cfg = s.cfg := (carried_refillFrame s).cfg
  rw [refill_eq k s h, refill_eq k (granted g s) h, hc, pull_granted]
  rw [carried_j, hcap]
  omega

theorem needBytes_granted (g : Option Nat) (need : Nat) (k : PullFor) {s : State} (h : s.j ≤ s.cfg.bufCap) :
    needBytes need k (granted g s) = (needBytes need k s).onState (granted g) := by
  rw [needBytes, needBytes, refill_granted g k h]
  refine Res.onState_bind fun got t => ?_
  unfold checkReceived
  split <;> rfl

/-! ## Emissions -/

theorem delivered_granted {g : Option Nat} {s : State} (v : Byte) (h : s.outReady ≠ some 0) :
    delivered v (granted g s) = granted g (delivered v s) := by
  have hr : readyAfter 1 (Option.map₂ (· + ·) s.outReady g) = Option.map₂ (· + ·) (readyAfter 1 s.outReady) g := by
    cases hs : s.outReady with
    | none => rfl
    | some m =>
      have hm : m ≠ 0 := fun hm => h (by rw [hs, hm])
      cases g with
      | none => rfl
      | some r =>
        simp only [readyAfter, Option.map₂_coe_coe, Option.map_some]
        congr 1
        omega
  unfold delivered granted
  simp only [hr]

theorem granted_ready {g : Option Nat} {s : State} (h : s.outReady ≠ some 0) : (granted g s).outReady ≠ some 0 := by
  intro h'
  obtain ⟨m, r, hm, -, hmr⟩ := Option.map₂_eq_some_iff.1 h'
  obtain rfl : m = 0 := by omega
  exact h hm

/-- One round of the emissions, where the byte is inside storage. -/
theorem emitLoop_byte (rem count left t : Nat) {s : State} (h : s.i + t < s.cfg.bufCap) :
    emitLoop rem count (left + 1) t s =
      if s.outReady = some 0 then .stop (.waits (.emit rem count t)) s
      else emitLoop rem count left (t + 1) (delivered (storageByte s.buf (s.i + t)) s) := by
  rw [emitLoop_succ, memRead_of_lt h, Res.ok_bind]

/-- The emissions of a round: on a host that accepts more they go on alike where they went on, and where they waited for
the host they do what is left of them. -/
theorem emitLoop_granted (g : Option Nat) (rem count left t : Nat) (s : State) (hl : left = count - t) :
    (emitLoop rem count left t s).Sat (fun a r => emitLoop rem count left t (granted g s) = .ok a (granted g r))
      (fun w r => ∀ rem' count' p, w = .waits (.emit rem' count' p) →
        rem' = rem ∧ count' = count ∧ r.outReady = some 0 ∧
          emitLoop rem count left t (granted g s) = emitLoop rem count (count - p) p (granted g r)) := by
  induction left generalizing t s with
  | zero => exact rfl
  | succ left ih =>
    by_cases hlt : s.i + t < s.cfg.bufCap
    · rw [emitLoop_byte rem count left t hlt]
      by_cases h0 : s.outReady = some 0
      · rw [if_pos h0]
        rintro _ _ _ ⟨⟩
        exact ⟨rfl, rfl, h0, by rw [hl]⟩
      · rw [if_neg h0, emitLoop_byte (s := granted g s) rem count left t hlt, if_neg (granted_ready h0),
          delivered_granted _ h0]
        exact ih (t + 1) _ (by omega)
    · rw [emitLoop_succ, memRead_of_ge (Nat.le_of_not_lt hlt)]
      rintro _ _ _ ⟨⟩

/-! ## READ_FULL -/

/-- Where `r` waits for the host, the host's readiness is used up, and `r'` is what the waiting command does on a host
that accepts `g` more. -/
def EmitsLater (g : Option Nat) (r r' : Res Unit) : Prop :=
  ∀ rem count p t, r = .stop (.waits (.emit rem count p)) t →
    t.outReady = some 0 ∧ r' = continueFrom (.emit rem count p) (granted g t)

/-- A refill and the rounds behind it: the refill itself does not wait for the host. -/
theorem needBytes_emitsLater {g : Option Nat} {rem : Nat} {s : State} (h : Owes rem s) (hi : s.i = s.j)
    (hloop : ∀ q, Owes rem q → q.i < q.j → EmitsLater g (readFullLoop rem q) (readFullLoop rem (granted g q))) :
    EmitsLater g ((needBytes rem (.readFull rem) s).bind fun _ => readFullLoop rem)
      ((needBytes rem (.readFull rem) (granted g s)).bind fun _ => readFullLoop rem) := by
  obtain ⟨-, -, -, hj⟩ := h.inv.cursor
  have hspec := needBytes_spec h.inv hi rem (.readFull rem)
  rw [needBytes_granted g rem _ hj]
  generalize needBytes rem (.readFull rem) s = r at hspec ⊢
  cases r with
  | ok a q =>
    obtain ⟨n, hn, p⟩ := hspec
    obtain ⟨hq, hlt⟩ := h.refilled p hn
    exact hloop q hq hlt
  | stop w q =>
    rintro _ _ _ _ ⟨⟩
    obtain ⟨⟨⟩, -⟩ | ⟨n, ⟨⟩, -⟩ := hspec

theorem readFullLoop_emitsLater (g : Option Nat) {rem : Nat} {s : State} (h : Owes rem s) :
    EmitsLater g (readFullLoop rem s) (readFullLoop rem (granted g s)) := by
  refine Owes.induction (P := fun rem s => EmitsLater g (readFullLoop rem s) (readFullLoop rem (granted g s)))
    (fun rem s h ih => ?_) h
  by_cases h0 : rem = 0
  · subst h0
    rintro _ _ _ _ ⟨⟩
  have hij := h.inv.i_le_j
  have hl : unreadLen s = s.j - s.i := rfl
  have hemit := (emitLoop_spec h.inv rem (min rem (unreadLen s)) (min rem (unreadLen s)) 0 (by omega)).and
    (emitLoop_granted g rem (min rem (unreadLen s)) (min rem (unreadLen s)) 0 s (Nat.sub_zero _).symm)
  rw [readFullLoop_round h h0, readFullLoop_round (h.granted g) h0,
    show unreadLen (granted g s) = unreadLen s from rfl]
  generalize emitLoop rem (min rem (unreadLen s)) (min rem (unreadLen s)) 0 s = r at hemit ⊢
  cases r with
  | ok a r =>
    obtain ⟨rfl, hg⟩ := hemit
    rw [hg, Res.ok_bind, Res.ok_bind]
    obtain ⟨-, hr⟩ | ⟨hne, ho, he, hr⟩ := afterRound_cases h
    · rw [hr]
      rintro _ _ _ _ ⟨⟩
    · rw [hr, afterRound, roundEnd, if_neg hne]
      exact needBytes_emitsLater ho he fun q hq hlt => ih q hne hq hlt
  | stop w r =>
    obtain ⟨⟨m, hm, hw, hr, -⟩, hg⟩ := hemit
    rintro rem' count' p _ ⟨⟩
    obtain ⟨rfl, rfl, hr0, hrun⟩ := hg _ _ _ rfl
    injection hw with hw
    injection hw with _ _ hp
    have hor : Owes rem' r := hr ▸ h.emitted 0 m
    refine ⟨hr0, ?_⟩
    rw [hrun, continueFrom, readFullFrom_eq (hor.granted g) (by rw [hr]; rfl) (by omega)]

/-- A READ_FULL that waits for the host has used its readiness up, and on a host that accepts `g` more it answers what
the command would have answered had the host accepted that from the start. -/
theorem exec_emitsLater {s t : State} {n rem count p : Nat} (g : Option Nat) (h : DataInv s) (hn : n < 2 ^ 24)
    (ht : exec (.readFull n) s = .next t) (hw : t.waiting = some (.emit rem count p)) :
    t.outReady = some 0 ∧ resume (granted g t) = exec (.readFull n) (granted g s) := by
  have hbody : Within false (body (.readFull n)) := body_within (i := .readFull n) nofun
  rw [exec_eq] at ht
  obtain ⟨q, -, rfl⟩ | ⟨q, -, rfl⟩ | ⟨w, q, hq, rfl⟩ := finish_cases ht
  · contradiction
  · contradiction
  · obtain rfl : w = .emit rem count p := by injection hw
    have ho : Owes n (startTransfer (setControl true (some (.emit rem count p)) s)) :=
      .startTransfer (h.of_control rfl) (decide_eq_true hn)
    have hlater := readFullLoop_emitsLater g ho
    rw [← startTransfer_granted] at hlater
    have hrun := hbody.control true (some (.emit rem count p)) s
    rw [hq] at hrun
    obtain ⟨h0, hgo⟩ := hlater _ _ _ _ hrun
    refine ⟨h0, ?_⟩
    calc resume (granted g (park (.emit rem count p) q))
        = finish (body (.readFull n) (setControl true (some (.emit rem count p)) (granted g s))) :=
          congrArg finish hgo.symm
      _ = exec (.readFull n) (granted g s) := by rw [hbody.control, finish_onState_setControl, exec_eq]

/-- Settles O55: where the host's readiness is used up, setting it is granting it. -/
theorem acceptanceMakesNoDifference : Obligations.AcceptanceMakesNoDifference := by
  intro s t n m r w c p h hn hm ht hw
  obtain ⟨h0, hsome⟩ := exec_emitsLater (some r) h hn ht hw
  obtain ⟨-, hnone⟩ := exec_emitsLater none h hn ht hw
  rw [granted_some h0, granted_some hm, Nat.zero_add] at hsome
  rw [granted_none h0, granted_none hm] at hnone
  exact ⟨hsome, hnone⟩

end Sys2Proof.Machine
end

section
/-! PROOFS. How the stream has been cut into storage makes no difference: on an ended source, and a host that accepts
every byte, what a command does is settled by the stream at its position. -/

namespace Sys2Proof.Machine

/-! ## Two states at the same point of the same stream -/

/-- Everything a command on the stream leaves alone. -/
def StreamFrame (s p : State) : Prop :=
  p = { s with
    buf := p.buf, i := p.i, j := p.j, u := p.u, sp := p.sp
    consumed := p.consumed, srcEnd := p.srcEnd, pullcnt := p.pullcnt
    xfer := p.xfer, dataOut := p.dataOut, outReady := p.outReady }

theorem ReadFrame.streamFrame {s p : State} (h : ReadFrame s p) : StreamFrame s p := by
  unfold StreamFrame
  rw [h]

theorem TransferFrame.streamFrame {s p : State} (h : TransferFrame s p) : StreamFrame s p := by
  unfold StreamFrame
  rw [h]

theorem SameStream.of_frame {s t p q : State} (h : SameStream s t) (hp : StreamFrame s p) (hq : StreamFrame t q)
    (pos : streamPos p = streamPos q) (u : p.u = q.u) (xfer : p.xfer = q.xfer) (dataOut : p.dataOut = q.dataOut)
    (outReady : p.outReady = q.outReady) : SameStream p q where
  source := by rw [hp, hq]; exact h.source
  nextSource := by rw [hp, hq]; exact h.nextSource
  pos := pos
  u := u
  accN := by rw [hp, hq]; exact h.accN
  accF1 := by rw [hp, hq]; exact h.accF1
  accF2 := by rw [hp, hq]; exact h.accF2
  result := by rw [hp, hq]; exact h.result
  xfer := xfer
  fault := by rw [hp, hq]; exact h.fault
  fcode := by rw [hp, hq]; exact h.fcode
  finfo := by rw [hp, hq]; exact h.finfo
  outReady := outReady
  dataOut := dataOut

section
variable {s t : State} (h : SameStream s t)
include h

theorem SameStream.latchFault (f : FaultKind) (v : Word) : SameStream (latchFault f v s) (latchFault f v t) :=
  { h with fault := rfl, fcode := rfl, finfo := rfl }

theorem SameStream.setResult (x : Byte) : SameStream { s with result := x } { t with result := x } :=
  { h with result := rfl }

theorem SameStream.endCommand : SameStream (endCommand s) (endCommand t) := { h with }

theorem SameStream.accShift8 : SameStream (accShift8 s) (accShift8 t) :=
  { h with
    accN := congrArg (· - 8) h.accN
    accF1 := congrArg (· >>> 8) h.accF1
    accF2 := congrArg (· >>> 8) h.accF2 }

end

theorem streamPos_giveBack {s : State} (h : DataInv s) : streamPos (giveBack s) = streamPos s - s.u := by
  obtain ⟨-, hui, hij, -⟩ := h.cursor
  have hj := h.window.1
  simp only [streamPos, giveBack_sp, giveBack_j, giveBack_i]
  omega

theorem SameStream.giveBack {s t : State} (h : SameStream s t) (hs : DataInv s) (ht : DataInv t) :
    SameStream (giveBack s) (giveBack t) :=
  { h with
    pos := by rw [streamPos_giveBack hs, streamPos_giveBack ht, h.pos, h.u]
    u := rfl }

theorem SameStream.unreadSeq {s t : State} (h : SameStream s t) (hs : DataInv s) (ht : DataInv t) :
    SameStream (unreadSeq s) (unreadSeq t) := by
  unfold Machine.unreadSeq
  rw [← h.accN]
  split
  · exact h.accShift8.giveBack hs.accShift8 ht.accShift8
  · exact h.giveBack hs ht

theorem SameStream.startTransfer {s t : State} (h : SameStream s t) (hs : DataInv s) (ht : DataInv t) :
    SameStream (startTransfer s) (startTransfer t) := by
  have hp : SameStream (precondition s) (precondition t) := by
    unfold precondition
    rw [← h.u, ← h.accN]
    split
    · split
      · exact { h.unreadSeq hs ht with u := rfl }
      · exact { h with u := rfl }
    · exact h
  exact { hp with xfer := rfl }

/-! ## The readers -/

/-- How a reader ends: with a byte that took `d` raw bytes and left `u`, for want of a byte after `d` raw bytes, or for
want of the stuffing zero. -/
inductive ReadOutcome where
  | gives (x : Byte) (d u : Nat)
  | ends (d u : Nat)
  | noZero (y : Byte)

/-- How READ_BYTE ends, by the stream (43_plain_reader.md R161, R162). -/
def plainOutcome (s : State) : ReadOutcome :=
  match s.source.seq[streamPos s]? with
  | none => .ends 0 s.u
  | some x => .gives x 1 0

/-- How READ_STUFFED ends, by the stream (41_stuffed_reader.md R121 to R125). -/
def stuffedOutcome (s : State) : ReadOutcome :=
  match s.source.seq[streamPos s]? with
  | none => .ends 0 s.u
  | some x =>
    if x = 0xFF then
      match s.source.seq[streamPos s + 1]? with
      | none => .ends 1 1
      | some y => if y = 0x00 then .gives 0xFF 2 2 else .noZero y
    else .gives x 1 1

/-- A reader has come `d` raw bytes further. -/
structure ReadTo (s : State) (d u : Nat) (p : State) : Prop where
  frame : ReadFrame s p
  pos : streamPos p = streamPos s + d
  u : p.u = u

/-- What a reader that ends so leaves. -/
def EndsIn (s : State) : ReadOutcome → State → Prop
  | .gives x d u, q => ∃ p, ReadTo s d u p ∧ q = { p with result := x }
  | .ends d u, q => ∃ p, ReadTo s d u p ∧ q = latchFault .endOfStream (zext32 1) p
  | .noZero y, q => ∃ p, ReadFrame s p ∧ q = latchFault .missingFF00 (y.setWidth 32) p

theorem RefillWaits.not_ended {n : Nat} {s t : State} (h : RefillWaits n s t) : s.source.ended ≠ true :=
  fun he => h.not_answers (m := 0) (.inl he)

/-- A refill that received nothing leaves the position, at the end of the stream. -/
theorem OutOfBytes.readTo {s t : State} (h : OutOfBytes 1 s t) :
    s.source.seq[streamPos s]? = none ∧ ∃ p, ReadTo s 0 s.u p ∧ t = latchFault .endOfStream (zext32 1) p := by
  obtain ⟨p, hp, rfl⟩ := h
  obtain ⟨-, -, hend⟩ := hp.none
  exact ⟨List.getElem?_eq_none (Nat.le_of_eq hend.symm), p, ⟨hp.frame.readFrame, hp.pos, hp.frame.u⟩, rfl⟩

theorem readByte_endsIn {s : State} (h : DataInv s) (he : s.source.ended = true) :
    ∃ q, exec .readByte s = .next (endCommand q) ∧ EndsIn s (plainOutcome s) q := by
  have hspec := plainRead_spec h .readByte
  rw [exec, execReadByte]
  unfold plainOutcome
  generalize plainRead .readByte s = r at hspec ⊢
  cases r with
  | ok x p =>
    rw [hspec.byte]
    exact ⟨_, rfl, p, ⟨hspec.frame, hspec.pos, hspec.u⟩, rfl⟩
  | stop w t =>
    obtain ⟨-, ⟨rfl, ho⟩ | ⟨n, -, hw⟩⟩ := hspec
    · obtain ⟨hb, hp⟩ := ho.readTo
      rw [hb]
      exact ⟨t, rfl, hp⟩
    · exact absurd he hw.not_ended

theorem readStuffed_endsIn {s : State} (h : DataInv s) (he : s.source.ended = true) :
    ∃ q, exec .readStuffed s = .next (endCommand q) ∧ EndsIn s (stuffedOutcome s) q := by
  have hspec := readStuffed_spec h
  rw [exec, execReadStuffed]
  unfold stuffedOutcome
  generalize readStuffed s = r at hspec ⊢
  cases r with
  | ok a q =>
    obtain ⟨x, p, hp, rfl⟩ := hspec
    refine ⟨_, rfl, ?_⟩
    have hto : ReadTo s p.u p.u p := ⟨hp.frame, hp.pos, rfl⟩
    rw [hp.byte]
    by_cases hx : x = 0xFF
    · subst hx
      rw [hp.u] at hto
      simp only [hp.zero rfl, if_true]
      exact ⟨p, hto, rfl⟩
    · rw [hp.u, if_neg hx] at hto
      simp only [if_neg hx]
      exact ⟨p, hto, rfl⟩
  | stop w q =>
    cases hspec with
    | missing y p hp =>
      refine ⟨_, rfl, ?_⟩
      simp only [hp.byte, hp.next, if_true, if_neg hp.nonzero]
      exact ⟨p, hp.frame, rfl⟩
    | firstEnds _ hi ho =>
      obtain ⟨hb, hp⟩ := ho.readTo
      rw [hb]
      exact ⟨q, rfl, hp⟩
    | firstWaits n _ hi hw => exact absurd he hw.not_ended
    | secondEnds r _ hr hi ho =>
      obtain ⟨hb, p, hp, rfl⟩ := ho.readTo
      rw [hr.frame.source, hr.pos] at hb
      refine ⟨_, rfl, ?_⟩
      simp only [hr.byte, hb, if_true]
      exact ⟨p, ⟨hr.frame.trans hp.frame, hp.pos.trans hr.pos, hp.u.trans hr.u⟩, rfl⟩
    | secondWaits n r _ hr hi hw => exact absurd (by rw [hr.frame.source]; exact he) hw.not_ended

/-- What a claim about two ends of the same command may say (20_memory.md R58, 93_implementation_defined.md U3): the
same results, or MISSING_FF00 in both. -/
def SameResults (s t : State) : Prop :=
  SameStream s t ∨
    (s.fault = true ∧ s.fcode = 2 ∧ t.fault = true ∧ t.fcode = 2 ∧ s.finfo = t.finfo ∧ s.result = t.result ∧
      s.dataOut = t.dataOut)

theorem ReadTo.sameStream {s t p q : State} {d u : Nat} (hp : ReadTo s d u p) (hq : ReadTo t d u q)
    (h : SameStream s t) : SameStream p q := by
  refine h.of_frame hp.frame.streamFrame hq.frame.streamFrame ?_ (hp.u.trans hq.u.symm) ?_ ?_ ?_
  · rw [hp.pos, hq.pos, h.pos]
  · rw [hp.frame, hq.frame]
    exact h.xfer
  · rw [hp.frame, hq.frame]
    exact h.dataOut
  · rw [hp.frame, hq.frame]
    exact h.outReady

theorem EndsIn.sameResults {s t p q : State} {o : ReadOutcome} (hp : EndsIn s o p) (hq : EndsIn t o q)
    (h : SameStream s t) : SameResults (endCommand p) (endCommand q) := by
  cases o with
  | gives x d u =>
    obtain ⟨p, hp, rfl⟩ := hp
    obtain ⟨q, hq, rfl⟩ := hq
    exact .inl ((hp.sameStream hq h).setResult x).endCommand
  | ends d u =>
    obtain ⟨p, hp, rfl⟩ := hp
    obtain ⟨q, hq, rfl⟩ := hq
    exact .inl ((hp.sameStream hq h).latchFault _ _).endCommand
  | noZero y =>
    obtain ⟨p, hp, rfl⟩ := hp
    obtain ⟨q, hq, rfl⟩ := hq
    refine .inr ⟨rfl, rfl, rfl, rfl, rfl, ?_, ?_⟩
    · exact hp.result.trans (h.result.trans hq.result.symm)
    · rw [endCommand_dataOut, endCommand_dataOut, latchFault_dataOut, latchFault_dataOut, hp, hq]
      exact h.dataOut

/-! ## The transfers -/

/-- How a transfer of `n` bytes ends where neither port is silent. -/
def TransferEnds (out : Bool) (n : Nat) (s q : State) : Prop := Moved out 0 n s q ∨ TransferShort out 0 n s q

/-- What the loops of READ_FULL and IGNORE do (`readFullLoop_spec`, `ignoreLoop_spec`). -/
def Transfers (out : Bool) (n : Nat) (s : State) (r : Res Unit) : Prop :=
  r.Sat (fun _ q => Moved out 0 n s q)
    fun w q => (w = .raised ∧ TransferShort out 0 n s q) ∨ ∃ v, w = .waits v ∧ TransferWaits out 0 n s v q

/-- A transfer on an ended source and a host that accepts every byte does not wait. -/
theorem Transfers.finish {out : Bool} {n : Nat} {s : State} {r : Res Unit} (h : Transfers out n s r)
    (he : s.source.ended = true) (ho : s.outReady = none) :
    ∃ q, Machine.finish r = .next (endCommand q) ∧ TransferEnds out n s q := by
  cases r with
  | ok a q => exact ⟨q, rfl, .inl h⟩
  | stop w q =>
    obtain ⟨rfl, hs⟩ | ⟨v, -, hw⟩ := h
    · exact ⟨q, rfl, .inr hs⟩
    · obtain hn | ⟨-, hn⟩ := hw.silent
      · exact absurd (.inl he) hn
      · exact absurd (fun m hm => by simp [ho] at hm) hn

theorem Moved.pos_le {out : Bool} {t m : Nat} {s r : State} (h : Moved out t m s r) :
    streamPos s + m ≤ s.source.seq.length := by
  have h1 := h.pos
  have h2 := h.inv.streamPos_add
  have h3 := h.inv.sp_le
  rw [h.frame.source] at h3
  omega

theorem Moved.sameStream {out : Bool} {m : Nat} {s t p q : State} (hp : Moved out 0 m s p) (hq : Moved out 0 m t q)
    (h : SameStream s t) : SameStream p q := by
  refine h.of_frame hp.frame.streamFrame hq.frame.streamFrame ?_ ?_ ?_ ?_ ?_
  · rw [hp.pos, hq.pos, h.pos]
  · rw [hp.frame.u, hq.frame.u, h.u]
  · rw [hp.xfer, hq.xfer, h.xfer]
  · rw [hp.dataOut, hq.dataOut, h.dataOut, h.source, h.pos]
  · rw [hp.outReady, hq.outReady, h.outReady]

/-- The stream's length and position settle which end it is, and how many bytes have been moved. -/
theorem TransferEnds.sameStream {out : Bool} {n : Nat} {s t p q : State} (hp : TransferEnds out n s p)
    (hq : TransferEnds out n t q) (h : SameStream s t) : SameStream p q := by
  have hpos := h.pos
  have hlen : s.source.seq.length = t.source.seq.length := by rw [h.source]
  obtain hp | ⟨a, p, ha, -, hp, rfl, hpa, -⟩ := hp <;> obtain hq | ⟨b, q, hb, -, hq, rfl, hqb, -⟩ := hq
  · exact hp.sameStream hq h
  · have := hp.pos_le
    omega
  · have := hq.pos_le
    omega
  · obtain rfl : a = b := by omega
    exact (hp.sameStream hq h).latchFault _ _

theorem Transfers.sameResults {out : Bool} {n : Nat} {s t : State} {r r' : Res Unit} (hs : Transfers out n s r)
    (ht : Transfers out n t r') (h : SameStream s t) (he : s.source.ended = true) (ho : s.outReady = none) :
    ∃ p q, Machine.finish r = .next p ∧ Machine.finish r' = .next q ∧ SameResults p q := by
  obtain ⟨p, hp, hpe⟩ := hs.finish he ho
  obtain ⟨q, hq, hqe⟩ := ht.finish (h.source ▸ he) (h.outReady ▸ ho)
  exact ⟨_, _, hp, hq, .inl (hpe.sameStream hqe h).endCommand⟩

/-! ## Commands -/

theorem readFullLoop_transfers {n : Nat} {s : State} (h : Owes n s) (hn : 0 < n) :
    Transfers true n s (readFullLoop n s) :=
  readFullLoop_spec h.inv h.u hn h.xfer

theorem ignoreLoop_transfers {n : Nat} {s : State} (h : Owes n s) : Transfers false n s (ignoreLoop n s) :=
  ignoreLoop_spec h.inv h.u h.xfer

theorem startTransfer_outReady (s : State) : (startTransfer s).outReady = s.outReady := by
  rw [startTransfer_eq, rewound_frame]

/-- Settles O56: each command's end is a function of what the two states share. -/
theorem chunkingMakesNoDifference : Obligations.ChunkingMakesNoDifference := by
  intro s t i hs ht h he ho hi hwf
  have hst := h.startTransfer hs ht
  have hes : (startTransfer s).source.ended = true := by rw [startTransfer_aside.source, he]
  have hos : (startTransfer s).outReady = none := (startTransfer_outReady s).trans ho
  have het : t.source.ended = true := h.source ▸ he
  cases i with
  | refill => contradiction
  | readByte =>
    obtain ⟨p, hp, hpe⟩ := readByte_endsIn hs he
    obtain ⟨q, hq, hqe⟩ := readByte_endsIn ht het
    have heq : plainOutcome t = plainOutcome s := by rw [plainOutcome, plainOutcome, h.source, h.pos, h.u]
    exact ⟨_, _, hp, hq, hpe.sameResults (heq ▸ hqe) h⟩
  | readStuffed =>
    obtain ⟨p, hp, hpe⟩ := readStuffed_endsIn hs he
    obtain ⟨q, hq, hqe⟩ := readStuffed_endsIn ht het
    have heq : stuffedOutcome t = stuffedOutcome s := by rw [stuffedOutcome, stuffedOutcome, h.source, h.pos, h.u]
    exact ⟨_, _, hp, hq, hpe.sameResults (heq ▸ hqe) h⟩
  | unread => exact ⟨_, _, rfl, rfl, .inl (h.unreadSeq hs ht).endCommand⟩
  | readFull n =>
    obtain rfl | hn := Nat.eq_zero_or_pos n
    · exact ⟨_, _, rfl, rfl, .inl (hst.latchFault .copyEmptyDest 0).endCommand⟩
    · exact (readFullLoop_transfers (.startTransfer hs hwf) hn).sameResults
        (readFullLoop_transfers (.startTransfer ht hwf) hn) hst hes hos
  | ignore n =>
    exact (ignoreLoop_transfers (.startTransfer hs hwf)).sameResults
      (ignoreLoop_transfers (.startTransfer ht hwf)) hst hes hos
  | init =>
    exact ⟨_, _, rfl, rfl, .inl
      { h with
        source := h.nextSource, nextSource := rfl, pos := rfl, u := rfl, result := rfl, xfer := rfl
        fault := rfl, fcode := rfl, finfo := rfl }⟩

end Sys2Proof.Machine
end

section
/-! PROOFS. Encoding. The decoder answers a command exactly where RSV is 0 and the word's OP and LEN are the command's
own, so decoder and encoder are inverse to each other. -/

namespace Sys2Proof.Machine

theorem noLength_eq_ok_iff {w : Word} {c i : Instr} : noLength w c = .ok i ↔ lenField w = 0 ∧ c = i := by
  unfold noLength
  split <;> simp [*]

/-- The decoder once for all commands: the fields of the word, as numbers, are those of the command
(30_encoding.md R75). -/
theorem decode_eq_ok_iff {w : Word} {i : Instr} :
    decode w = .ok i ↔
      w.toNat / 16 % 16 = 0 ∧ w.toNat % 16 = (opcode i).toNat ∧ w.toNat / 256 = lenOperand i := by
  rw [← rsvField_eq_zero, ← opField_toNat, ← lenField_eq]
  constructor
  · intro h
    unfold decode at h
    split at h
    · contradiction
    · rename_i hrsv
      refine ⟨not_not.1 hrsv, ?_⟩
      split at h
      -- READ_FULL and IGNORE take any LEN; the other opcodes want LEN = 0, or name no command.
      case h_5 hop | h_6 hop =>
        injection h with h
        exact h ▸ ⟨hop, rfl⟩
      case h_8 => contradiction
      all_goals
        rename_i hop
        obtain ⟨hlen, rfl⟩ := noLength_eq_ok_iff.1 h
        exact ⟨hop, hlen⟩
  · rintro ⟨hrsv, hop, hlen⟩
    unfold decode
    rw [if_neg (not_not.2 hrsv), hop]
    cases i with
    | readFull n | ignore n => exact hlen ▸ rfl
    | _ => exact noLength_eq_ok_iff.2 ⟨hlen, rfl⟩

/-- Settles O1: the encoding is LEN * 256 + OP, whose fields are the command's. -/
theorem decodeOfEncode : Obligations.DecodeOfEncode := by
  intro i hi
  have hop := (opcode i).isLt
  rw [decode_eq_ok_iff, encode_toNat hi]
  omega

/-- Settles O2: with RSV = 0 a word is LEN * 256 + OP, which is the encoding of its command. -/
theorem encodeOfDecode : Obligations.EncodeOfDecode := by
  intro w i h
  have hi := wf_of_decode h
  obtain ⟨hrsv, hop, hlen⟩ := decode_eq_ok_iff.1 h
  refine ⟨hi, BitVec.eq_of_toNat_eq ?_⟩
  rw [encode_toNat hi]
  omega

theorem toOption_decode_eq_some_iff {w : Word} {i : Instr} :
    (decode w).toOption = some i ↔
      w.toNat / 16 % 16 = 0 ∧ w.toNat % 16 = (opcode i).toNat ∧ w.toNat / 256 = lenOperand i := by
  rw [← decode_eq_ok_iff]
  cases decode w <;> simp [Except.toOption]

/-- Settles O3: a command's branch names its OP and LEN, and a word that no branch names has the fields of none. -/
theorem decodeFollowsOpcodeMap : Obligations.DecodeFollowsOpcodeMap := by
  intro w
  split_ifs with hrsv h1 h2 h3 h4 h5 h6 h15
  · exact Option.eq_none_iff_forall_ne_some.2 fun i h => hrsv (toOption_decode_eq_some_iff.1 h).1
  · exact toOption_decode_eq_some_iff.2 ⟨not_not.1 hrsv, h1⟩
  · exact toOption_decode_eq_some_iff.2 ⟨not_not.1 hrsv, h2⟩
  · exact toOption_decode_eq_some_iff.2 ⟨not_not.1 hrsv, h3⟩
  · exact toOption_decode_eq_some_iff.2 ⟨not_not.1 hrsv, h4⟩
  · exact toOption_decode_eq_some_iff.2 ⟨not_not.1 hrsv, h5, rfl⟩
  · exact toOption_decode_eq_some_iff.2 ⟨not_not.1 hrsv, h6, rfl⟩
  · exact toOption_decode_eq_some_iff.2 ⟨not_not.1 hrsv, h15⟩
  · refine Option.eq_none_iff_forall_ne_some.2 fun i h => ?_
    obtain ⟨-, hop, hlen⟩ := toOption_decode_eq_some_iff.1 h
    cases i with
    | refill => exact h1 ⟨hop, hlen⟩
    | readByte => exact h2 ⟨hop, hlen⟩
    | readStuffed => exact h3 ⟨hop, hlen⟩
    | unread => exact h4 ⟨hop, hlen⟩
    | readFull => exact h5 hop
    | ignore => exact h6 hop
    | init => exact h15 ⟨hop, hlen⟩

/-- Settles O4: twelve fixed words. -/
theorem sampleWordsDecode : Obligations.SampleWordsDecode := by
  unfold Obligations.SampleWordsDecode
  decide

end Sys2Proof.Machine
end

section
/-! PROOFS. The assembler reads back the line written for a command: a count's digits have its value, and a line of two
words without semicolons or blanks in them is cut into those words. -/

namespace Sys2Proof.Machine

/-! ## The words of a line -/

/-- Neither a blank, which ends a word, nor a semicolon, which ends the line (30_encoding.md R79). -/
def isWordChar (c : Char) : Bool := c ≠ ';' && !isBlank c

theorem wordsFrom_append {w : List Char} (hw : ∀ c ∈ w, isWordChar c = true) (cur rest : List Char) :
    wordsFrom cur (w ++ rest) = wordsFrom (w.reverse ++ cur) rest := by
  induction w generalizing cur with
  | nil => rfl
  | cons c cs ih =>
    obtain ⟨hc, hcs⟩ := List.forall_mem_cons.1 hw
    have hb : isBlank c = false := by simpa using (Bool.and_eq_true_iff.1 hc).2
    simp [wordsFrom, hb, ih hcs]

/-- A line of two words and one blank between them. -/
theorem wordsOf_stripComment_two {m n : List Char} (hm : ∀ c ∈ m, isWordChar c = true)
    (hn : ∀ c ∈ n, isWordChar c = true) (hm0 : m ≠ []) (hn0 : n ≠ []) :
    wordsOf (stripComment (m ++ ' ' :: n)) = [m, n] := by
  have hline : stripComment (m ++ ' ' :: n) = m ++ ' ' :: n := by
    rw [stripComment, List.takeWhile_eq_self_iff]
    intro c hc
    obtain hc | rfl | hc := by simpa using hc
    · exact (Bool.and_eq_true_iff.1 (hm c hc)).1
    · decide
    · exact (Bool.and_eq_true_iff.1 (hn c hc)).1
  have hlast : wordsFrom [] n = [n] := by
    have := wordsFrom_append hn [] []
    simpa [wordsFrom, hn0] using this
  rw [hline, wordsOf, wordsFrom_append hm]
  simp [wordsFrom, isBlank, hm0, hlast]

/-! ## Counts -/

theorem digitValue_hexChar : ∀ d < 16, digitValue 16 (hexChar d) = some d := by decide

theorem isWordChar_hexChar : ∀ d < 16, isWordChar (hexChar d) = true := by decide

theorem digitsValue_hexText (k n acc : Nat) :
    digitsValue 16 acc (hexText k n) = some (acc * 16 ^ k + n % 16 ^ k) := by
  induction k generalizing acc with
  | zero => simp [hexText, digitsValue, Nat.mod_one]
  | succ k ih =>
    simp only [hexText, digitsValue, digitValue_hexChar _ (Nat.mod_lt _ (by decide : 0 < 16)), ih, Nat.mod_pow_succ]
    congr 1
    ring

theorem isWordChar_hexText (k n : Nat) : ∀ c ∈ hexText k n, isWordChar c = true := by
  induction k with
  | zero => exact fun c h => absurd h List.not_mem_nil
  | succ k ih => exact List.forall_mem_cons.2 ⟨isWordChar_hexChar _ (Nat.mod_lt _ (by decide)), ih⟩

/-- Six hexadecimal digits hold every LEN (30_encoding.md R73). -/
theorem withCount_hexText (mk : Nat → Instr) {n : Nat} (hn : lenFits n = true) :
    withCount mk ('0' :: 'x' :: hexText 6 n) = .ok (some (mk n)) := by
  have hv : numberValue ('0' :: 'x' :: hexText 6 n) = some n := by
    have hlt : n < 16 ^ 6 := of_decide_eq_true hn
    have := digitsValue_hexText 6 n 0
    rw [Nat.zero_mul, Nat.zero_add, Nat.mod_eq_of_lt hlt] at this
    exact this
  simp only [withCount, hv, hn, if_true]

/-! ## Lines -/

theorem wordsOf_countLine {m : List Char} (hm : ∀ c ∈ m, isWordChar c = true) (hm0 : m ≠ []) (n : Nat) :
    wordsOf (stripComment (m ++ ' ' :: '0' :: 'x' :: hexText 6 n)) = [m, '0' :: 'x' :: hexText 6 n] :=
  wordsOf_stripComment_two hm
    (List.forall_mem_cons.2 ⟨by decide, List.forall_mem_cons.2 ⟨by decide, isWordChar_hexText 6 n⟩⟩) hm0
    (List.cons_ne_nil _ _)

theorem assembleLine_commandText {i : Instr} (hi : i.wf = true) :
    assembleLine (commandText i) = .ok (some i) := by
  cases i with
  | readFull n =>
    have hw : wordsOf (stripComment (commandText (.readFull n))) = ["read_full".toList, '0' :: 'x' :: hexText 6 n] :=
      wordsOf_countLine (m := "read_full".toList) (List.all_eq_true.1 (by decide)) (by decide) n
    rw [assembleLine, hw]
    exact withCount_hexText .readFull hi
  | ignore n =>
    have hw : wordsOf (stripComment (commandText (.ignore n))) = ["ignore".toList, '0' :: 'x' :: hexText 6 n] :=
      wordsOf_countLine (m := "ignore".toList) (List.all_eq_true.1 (by decide)) (by decide) n
    rw [assembleLine, hw]
    exact withCount_hexText .ignore hi
  | _ => decide

/-- Settles O5: the line assembles to the command, hence to its word. -/
theorem assembleOfText : Obligations.AssembleOfText := by
  intro i hi
  have h := assembleLine_commandText hi
  exact ⟨h, by rw [assembleWord, h]⟩

end Sys2Proof.Machine
end

section
/-! PROOFS. REFILL: what it leaves on a source that answers, and that it keeps the stream position however it ends. -/

namespace Sys2Proof.Machine

/-- With no unread data REFILL is `Refill()` and nothing after it (40_refill.md R101, R109). -/
theorem exec_refill_of_no_unread {s : State} (hi : s.i = s.j) :
    exec .refill s = finish ((refill .refill s).bind refillDone) := by
  rw [exec_eq, body, if_neg (not_not_intro hi)]

/-- Settles O17: the refill that does not wait in closed form, after which REFILL ends, with no check of the count. -/
theorem refillResult : Obligations.RefillResult := by
  intro s h hi ha
  obtain ⟨-, -, -, hjc⟩ := h.cursor
  obtain ⟨m, hm, hr⟩ := refill_answers hjc hi ha .refill
  refine ⟨m, hm, ?_⟩
  rw [exec_refill_of_no_unread hi, hr]
  rfl

/-- The end of a command, also one that waits, moves no cursor. -/
theorem streamPos_of_finish {r : Res Unit} {t : State} {p : Nat}
    (h : r.Sat (fun _ q => streamPos q = p) fun _ q => streamPos q = p) (ht : finish r = .next t) :
    streamPos t = p := by
  obtain ⟨q, rfl, rfl⟩ | ⟨q, rfl, rfl⟩ | ⟨w, q, rfl, rfl⟩ := finish_cases ht <;> exact h

/-- UNREAD_BYTES is raised before any cursor moves; past it the refill keeps the position, done or waiting
(40_refill.md R110). -/
theorem body_refill_streamPos {s : State} (h : DataInv s) :
    (body .refill s).Sat (fun _ q => streamPos q = streamPos s) fun _ q => streamPos q = streamPos s := by
  rw [body]
  split
  · exact rfl
  · rename_i hij
    refine Res.Sat.bind ((refill_spec h (not_not.1 hij) .refill).mono (fun _ _ p => p) ?_) fun _ _ p => p.pos
    rintro _ _ ⟨n, -, p⟩
    exact p.pos

/-- Settles O19: REFILL's body keeps the position, and ending or parking it does too. -/
theorem refillKeepsStreamPosition : Obligations.RefillKeepsStreamPosition := by
  intro s t h ht
  rw [exec_eq] at ht
  exact streamPos_of_finish (body_refill_streamPos h) ht

end Sys2Proof.Machine
end

section
/-! PROOFS. READ_STUFFED: the exact end of each path while no refill waits, and what it leaves by the stream alone on a
source that answers (41_stuffed_reader.md). -/

namespace Sys2Proof.Machine

/-! ## Plain reads in closed form -/

/-- With unread data a plain read takes the byte at the cursor (43_plain_reader.md R162). -/
theorem plainRead_buffered {s : State} (h : DataInv s) (hij : s.i < s.j) (k : PullFor) :
    plainRead k s = .ok (storageByte s.buf s.i) { s with i := s.i + 1, u := 0 } := by
  rw [plainRead, if_neg (Nat.ne_of_lt hij), Res.ok_bind, plainTake_spec h hij]

/-- Without, and where its refill receives a byte, it takes the first byte behind the kept ones
(43_plain_reader.md R162, 40_refill.md R103 to R105). -/
theorem plainRead_refilled {s : State} (h : DataInv s) (hi : s.i = s.j) (ha : PullAnswers s) (hn : 0 < refillCount s)
    (k : PullFor) :
    ∃ m, StoredByRefill s (refillCount s) m ∧
      plainRead k s = .ok (storageByte m (min s.j 2)) { afterRefill s m with i := min s.j 2 + 1, u := 0 } := by
  obtain ⟨-, -, -, hjc⟩ := h.cursor
  obtain ⟨m, hm, hr⟩ := refill_answers hjc hi ha k
  have hinv : DataInv (afterRefill s m) := by
    have hspec := refill_spec h hi k
    rw [hr] at hspec
    exact hspec.inv
  refine ⟨m, hm, ?_⟩
  rw [plainRead, if_pos hi, needBytes, hr, Res.ok_bind, checkReceived, if_neg (Nat.ne_of_gt hn), Res.ok_bind,
    plainTake_spec hinv (Nat.lt_add_of_pos_right hn)]
  rfl

/-! ## Both paths in closed form -/

theorem exec_readStuffed (s : State) : exec .readStuffed s = finish (readStuffed s) := rfl

theorem readStuffed_fast {s : State} (hij : s.i + 2 ≤ s.j) : readStuffed s = stuffedFast s := by
  rw [readStuffed, if_pos hij]

/-- With one unread byte the fallback path reads it without a refill (41_stuffed_reader.md R123). -/
theorem readStuffed_lastByte {s : State} (h : DataInv s) (hij : s.i + 1 = s.j) :
    readStuffed s = stuffedAfterFirst (storageByte s.buf s.i) { s with i := s.i + 1, u := 0 } := by
  rw [readStuffed, if_neg (by omega), plainRead_buffered h (by omega), Res.ok_bind]

/-- Settles O24: the two reads of the fast path are inside storage, and its two tests are the three cases. -/
theorem stuffedFastPath : Obligations.StuffedFastPath := by
  intro s h hij
  obtain ⟨-, -, -, hjc⟩ := h.cursor
  rw [exec_readStuffed, readStuffed_fast hij, stuffedFast, memRead_of_lt (by omega), Res.ok_bind]
  simp only
  split
  · rfl
  · rw [memRead_of_lt (by simp only; omega), Res.ok_bind]
    simp only
    by_cases hy : storageByte s.buf (s.i + 1) = 0x00
    · rw [if_pos hy, if_neg (not_not_intro hy)]
      rfl
    · rw [if_neg hy, if_pos hy, finish_raise, ← BitVec.ofNat_toNat]
      rfl

/-- Settles O25: the fallback path makes its second read only after an 0xFF. -/
theorem stuffedLastByte : Obligations.StuffedLastByte := by
  intro s h hij hx
  rw [exec_readStuffed, readStuffed_lastByte h hij, stuffedAfterFirst, if_pos hx]
  rfl

/-- UNREAD moves the cursor back by `u`, whether or not it shifts the accumulator (42_unread.md R141). -/
theorem unreadSeq_i (s : State) : (unreadSeq s).i = s.i - s.u := by
  rw [unreadSeq, giveBack_i]
  split <;> rfl

/-- Settles O26: the second plain read is the one that refills, from a cursor past the 0xFF, so carry-forward keeps
that byte at index 1 and the first byte received stands at index 2. -/
theorem stuffedAcrossRefill : Obligations.StuffedAcrossRefill := by
  intro s h hij hj hx ha hn h0
  have h1 : DataInv { s with i := s.i + 1, u := 1 } := h.setCursor (by omega) (by omega) (by omega)
  obtain ⟨m, hm, hr⟩ := plainRead_refilled h1 hij ha hn .stuffedSecond
  have ⟨hkept, hgot, _⟩ := hm
  have hmin : min s.j 2 = 2 := by omega
  have hFF : storageByte m 1 = 0xFF := by
    rw [(hkept hj).2, ← hx]
    exact congrArg _ (by simp only; omega)
  have hzero : storageByte m (min s.j 2) = 0x00 := Option.some.inj ((hgot 0 hn).symm.trans h0)
  refine ⟨m, _, hm, hFF, hmin ▸ hzero, ?_, rfl, _, rfl, ?_⟩
  · rw [exec_readStuffed, readStuffed_lastByte h hij, hx, stuffedAfterFirst, if_neg (not_not_intro rfl), hr,
      Res.ok_bind, stuffedAfterSecond, if_neg (not_not_intro hzero)]
    simp only [hmin]
    rfl
  · rw [endCommand_i, unreadSeq_i]
    rfl

/-! ## By the stream, on a source that answers -/

/-- READ_STUFFED wants a byte the source no longer has, and leaves the unreadable count `u`: `t` is the state before
END_OF_STREAM is latched (41_stuffed_reader.md R126). -/
structure StuffedShort (u : Nat) (s t : State) : Prop where
  frame : t = { s with
    srcEnd := true, pullcnt := 0, u := u
    buf := t.buf, i := t.i, j := t.j, sp := t.sp, consumed := t.consumed }
  inv : DataInv t
  pos : streamPos t = s.source.seq.length
  unread : t.i = t.j

/-- A refill of READ_STUFFED, at the command's start or past its 0xFF, that received nothing. -/
theorem Refilled.stuffedShort {s r t : State} (p : Refilled 0 r t) (hf : ReadFrame s r) : StuffedShort r.u s t := by
  obtain ⟨hse, -, hend⟩ := p.none
  have hpc : t.pullcnt = 0 := p.pullcnt
  have hframe : ReadFrame s t := hf.trans p.frame.readFrame
  refine ⟨?_, p.inv, by rw [p.pos, hend, hf.source], p.j.symm⟩
  rw [← hse, ← hpc, ← p.frame.u]
  exact hframe

/-- The pseudocode of READ_STUFFED ends so, without a wait. -/
def StuffedEnds (s : State) : ReadOutcome → Res Unit → Prop
  | .gives x _ _, r => ∃ t, StuffedRead x s t ∧ r = .ok () { t with result := x }
  | .ends _ u, r => ∃ t, StuffedShort u s t ∧ r = .stop .raised (latchFault .endOfStream (zext32 1) t)
  | .noZero y, r => ∃ t, ZeroMissing y s t ∧ r = .stop .raised (latchFault .missingFF00 (y.setWidth 32) t)

section
variable {s : State}

theorem stuffedOutcome_gives {x : Byte} (hx : s.source.seq[streamPos s]? = some x)
    (hz : x = 0xFF → s.source.seq[streamPos s + 1]? = some 0x00) :
    stuffedOutcome s = .gives x (if x = 0xFF then 2 else 1) (if x = 0xFF then 2 else 1) := by
  by_cases hF : x = 0xFF
  · subst hF
    simp only [stuffedOutcome, hx, hz rfl, if_true]
  · simp only [stuffedOutcome, hx, if_neg hF]

theorem stuffedOutcome_noZero {y : Byte} (hx : s.source.seq[streamPos s]? = some 0xFF)
    (hy : s.source.seq[streamPos s + 1]? = some y) (h0 : y ≠ 0x00) : stuffedOutcome s = .noZero y := by
  simp only [stuffedOutcome, hx, hy, if_true, if_neg h0]

theorem stuffedOutcome_ends_first (hx : s.source.seq[streamPos s]? = none) : stuffedOutcome s = .ends 0 s.u := by
  simp only [stuffedOutcome, hx]

theorem stuffedOutcome_ends_second (hx : s.source.seq[streamPos s]? = some 0xFF)
    (hy : s.source.seq[streamPos s + 1]? = none) : stuffedOutcome s = .ends 1 1 := by
  simp only [stuffedOutcome, hx, hy, if_true]

end

/-- Past the first byte the source still answers for the bytes behind it. -/
theorem FirstRead.sourceAnswers {x : Byte} {s r : State} {n : Nat} (p : FirstRead x s r) (h : SourceAnswers (n + 1) s) :
    SourceAnswers n r := by
  unfold SourceAnswers at *
  rw [p.frame.source, p.frame.cfg, p.pos]
  exact h.imp id fun h => by omega

/-- On a source that answers neither plain read waits, and READ_STUFFED ends as the stream says, on either path
(41_stuffed_reader.md R129). -/
theorem readStuffed_ends {s : State} (h : DataInv s) (ha : SourceAnswers 2 s) :
    StuffedEnds s (stuffedOutcome s) (readStuffed s) := by
  have hspec := readStuffed_spec h
  generalize readStuffed s = r at hspec ⊢
  cases r with
  | ok _ q =>
    obtain ⟨x, p, hp, rfl⟩ := hspec
    rw [stuffedOutcome_gives hp.byte hp.zero]
    exact ⟨p, hp, rfl⟩
  | stop w q =>
    cases hspec with
    | missing y p hp =>
      rw [stuffedOutcome_noZero hp.byte hp.next hp.nonzero]
      exact ⟨p, hp, rfl⟩
    | firstEnds _ _ ho =>
      obtain ⟨hb, -⟩ := ho.readTo
      obtain ⟨p, hp, rfl⟩ := ho
      rw [stuffedOutcome_ends_first hb]
      exact ⟨p, hp.stuffedShort rfl, rfl⟩
    | firstWaits _ _ _ hw => exact absurd ha hw.not_answers
    | secondEnds r _ hr _ ho =>
      obtain ⟨hb, -⟩ := ho.readTo
      obtain ⟨p, hp, rfl⟩ := ho
      rw [hr.frame.source, hr.pos] at hb
      rw [stuffedOutcome_ends_second hr.byte hb]
      exact ⟨p, hr.u ▸ hp.stuffedShort hr.frame, rfl⟩
    | secondWaits _ r _ hr _ hw => exact absurd (hr.sourceAnswers ha) hw.not_answers

/-- Settles O27: with such bytes next, READ_STUFFED ends with a byte. -/
theorem stuffedReadsStream : Obligations.StuffedReadsStream := by
  intro s x h ha hx hz
  have hend := readStuffed_ends h ha
  rw [stuffedOutcome_gives hx (hz.resolve_left ∘ not_not_intro)] at hend
  obtain ⟨t, ht, hr⟩ := hend
  rw [exec_readStuffed, hr]
  refine ⟨_, rfl, (ht.inv.setResult x).of_control rfl, ?_, ?_⟩
  · rw [← ht.u]
    exact ht.pos
  · rw [← ht.u, ht.frame]
    rfl

/-- Settles O28: with such bytes next, READ_STUFFED ends for want of the stuffing zero. -/
theorem stuffedMissingZero : Obligations.StuffedMissingZero := by
  intro s y h ha hx hy h0
  have hend := readStuffed_ends h ha
  rw [stuffedOutcome_noZero hx hy h0] at hend
  obtain ⟨t, ht, hr⟩ := hend
  rw [exec_readStuffed, hr]
  refine ⟨_, rfl, (ht.inv.latchFault _ _).of_control rfl, ht.pos, ht.cursor, ?_⟩
  rw [← ht.u, BitVec.ofNat_toNat, ht.frame]
  rfl

/-- Where at most one byte of the stream is left, at most one is unread. -/
theorem DataInv.j_le_of_short {s : State} (h : DataInv s) (hs : s.source.seq.length ≤ streamPos s + 1) :
    s.j ≤ s.i + 1 := by
  have hpos := h.streamPos_add
  have hsp := h.sp_le
  unfold unreadLen at hpos
  omega

/-- Settles O29: with no byte left, or an 0xFF as the last, READ_STUFFED ends for want of a byte. -/
theorem stuffedEndOfStream : Obligations.StuffedEndOfStream := by
  intro s h he hlast
  have hshort : ∃ d, stuffedOutcome s = .ends d (if s.source.seq[streamPos s]? = none then s.u else 1) := by
    obtain hx | ⟨hx, hy⟩ := hlast
    · rw [if_pos hx]
      exact ⟨0, stuffedOutcome_ends_first hx⟩
    · rw [if_neg (by simp [hx])]
      exact ⟨1, stuffedOutcome_ends_second hx hy⟩
  have hlen : s.source.seq.length ≤ streamPos s + 1 := by
    obtain hx | ⟨-, hy⟩ := hlast
    · exact Nat.le_succ_of_le (List.getElem?_eq_none_iff.1 hx)
    · exact List.getElem?_eq_none_iff.1 hy
  have hend := readStuffed_ends h (.inl he)
  obtain ⟨d, hd⟩ := hshort
  rw [hd] at hend
  obtain ⟨t, ht, hr⟩ := hend
  rw [exec_readStuffed, hr]
  refine ⟨_, rfl, (ht.inv.latchFault _ _).of_control rfl, ht.pos, ht.unread, h.j_le_of_short hlen, ?_⟩
  rw [ht.frame]
  rfl

end Sys2Proof.Machine
end

section
/-! PROOFS. UNREAD: its closed form, and that right after a READ_STUFFED that completed it takes the read back
(42_unread.md). -/

namespace Sys2Proof.Machine

theorem exec_unread (s : State) : exec .unread s = .next (endCommand (unreadSeq s)) := rfl

/-- `UnreadSeq()` in closed form: the bytes given back are `u`, whichever way the test of `acc.n` goes
(42_unread.md R141, R142). -/
theorem unreadSeq_eq (s : State) : unreadSeq s = { s with
    i := s.i - s.u
    u := 0
    accN := if 8 ≤ s.accN then s.accN - 8 else s.accN
    accF1 := if 8 ≤ s.accN then s.accF1 / 2 ^ 8 else s.accF1
    accF2 := if 8 ≤ s.accN then s.accF2 / 2 ^ 8 else s.accF2 } := by
  by_cases ha : 8 ≤ s.accN
  · simp only [unreadSeq, giveBack, accShift8, Nat.shiftRight_eq_div_pow, if_pos ha]
  · simp only [unreadSeq, giveBack, if_neg ha]

/-- Settles O30: UNREAD is `UnreadSeq()` and the end of the command. -/
theorem unreadResult : Obligations.UnreadResult := by
  intro s _
  rw [exec_unread, unreadSeq_eq]
  rfl

theorem unreadSeq_j (s : State) : (unreadSeq s).j = s.j := by rw [unreadSeq_eq]
theorem unreadSeq_u (s : State) : (unreadSeq s).u = 0 := by rw [unreadSeq_eq]
theorem unreadSeq_sp (s : State) : (unreadSeq s).sp = s.sp := by rw [unreadSeq_eq]

/-- The stream position goes back by the bytes given back. -/
theorem streamPos_unreadSeq {s : State} (h : DataInv s) : streamPos (unreadSeq s) = streamPos s - s.u := by
  rw [← streamPos_giveBack h, unreadSeq_eq]
  rfl

/-! ## The read before, and the read after -/

theorem OutOfBytes.fault {need : Nat} {s t : State} (h : OutOfBytes need s t) : t.fault = true := by
  obtain ⟨p, -, rfl⟩ := h
  rfl

/-- A READ_STUFFED that raised a fault has it latched. -/
theorem StuffedStop.fault_of_raised {s q : State} (h : StuffedStop s .raised q) : q.fault = true := by
  cases h with
  | missing => rfl
  | firstEnds _ _ ho => exact ho.fault
  | secondEnds _ _ _ _ ho => exact ho.fault

/-- READ_STUFFED has completed at `t`: what it took from the stream stands in RESULT and `u` (41_stuffed_reader.md
R124). -/
structure StuffedCompleted (s t : State) : Prop where
  inv : DataInv t
  byte : t.source.seq[streamPos s]? = some t.result
  zero : t.result = 0xFF → t.source.seq[streamPos s + 1]? = some 0x00
  u : t.u = if t.result = 0xFF then 2 else 1
  pos : streamPos t = streamPos s + t.u

theorem StuffedRead.completed {s p : State} {x : Byte} (h : StuffedRead x s p) :
    StuffedCompleted s (endCommand { p with result := x }) where
  inv := (h.inv.setResult x).of_control rfl
  byte := (congrArg (·.seq[streamPos s]?) h.frame.source).trans h.byte
  zero hx := (congrArg (·.seq[streamPos s + 1]?) h.frame.source).trans (h.zero hx)
  u := h.u
  pos := h.pos

/-- A READ_STUFFED that neither waits nor faults has completed. -/
theorem stuffedCompleted_of_exec {s t : State} (h : DataInv s) (ht : exec .readStuffed s = .next t)
    (hb : t.busy = false) (hf : t.fault = false) : StuffedCompleted s t := by
  have hspec := readStuffed_spec h
  rw [exec_readStuffed] at ht
  obtain ⟨q, hq, rfl⟩ | ⟨q, hq, rfl⟩ | ⟨w, q, hq, rfl⟩ := finish_cases ht
  · rw [hq] at hspec
    obtain ⟨x, p, hp, rfl⟩ := hspec
    exact hp.completed
  · rw [hq] at hspec
    exact absurd (hspec.fault_of_raised.symm.trans hf) (by decide)
  · exact Bool.noConfusion hb

/-- With every raw byte of the next logical byte unread, READ_STUFFED needs no refill, on either path
(41_stuffed_reader.md R122, R123). -/
theorem exec_readStuffed_of_unread {s : State} {x : Byte} {d : Nat} (h : DataInv s)
    (hx : s.source.seq[streamPos s]? = some x) (hz : x = 0xFF → s.source.seq[streamPos s + 1]? = some 0x00)
    (hd : d = if x = 0xFF then 2 else 1) (hj : s.i + d ≤ s.j) :
    exec .readStuffed s = .next (endCommand { s with result := x, i := s.i + d, u := d }) := by
  have hij : s.i < s.j := by
    split at hd <;> omega
  have hbx : storageByte s.buf s.i = x := Option.some.inj ((h.cursorByte hij).symm.trans hx)
  by_cases hF : x = 0xFF
  · rw [if_pos hF] at hd
    subst hd hF
    have hby : storageByte s.buf (s.i + 1) = 0x00 := Option.some.inj ((h.unreadByte (by omega)).symm.trans (hz rfl))
    rw [stuffedFastPath s h hj, if_neg (not_not_intro hbx), if_pos hby]
    rfl
  · rw [if_neg hF] at hd
    subst hd hbx
    by_cases hij2 : s.i + 2 ≤ s.j
    · rw [stuffedFastPath s h hij2, if_pos hF]
      rfl
    · rw [stuffedLastByte s h (by omega) hF]
      rfl

section
variable {s t : State} (h : StuffedCompleted s t)
include h

/-- UNREAD gives back the raw bytes of the read, also across a refill (42_unread.md R143). -/
theorem StuffedCompleted.streamPos_unreadSeq : streamPos (unreadSeq t) = streamPos s := by
  rw [Machine.streamPos_unreadSeq h.inv, h.pos, Nat.add_sub_cancel]

/-- After UNREAD those bytes stand unread in storage, wherever a carry-forward has moved them, and READ_STUFFED moves
the cursor over them again (42_unread.md R146). -/
theorem StuffedCompleted.exec_readStuffed_unreadSeq :
    exec .readStuffed (endCommand (unreadSeq t)) =
      .next (endCommand { unreadSeq t with result := t.result, i := t.i, u := t.u }) := by
  obtain ⟨-, hui, hij, -⟩ := h.inv.cursor
  have hi : (unreadSeq t).i + t.u = t.i := by rw [unreadSeq_i, Nat.sub_add_cancel hui]
  have hj : (unreadSeq t).i + t.u ≤ (unreadSeq t).j := by rwa [hi, unreadSeq_j]
  have hx := h.byte
  have hz := h.zero
  rw [← h.streamPos_unreadSeq, ← unreadSeq_aside.source t] at hx hz
  have hread := exec_readStuffed_of_unread (h.inv.unreadSeq.of_control (t := endCommand (unreadSeq t)) rfl) hx hz h.u hj
  rwa [endCommand_i, hi] at hread

end

/-- Settles O31: UNREAD gives back the raw bytes of the read, and READ_STUFFED reads them again. -/
theorem unreadUndoesReadStuffed : Obligations.UnreadUndoesReadStuffed := by
  intro s t h _ ht hb hf
  have hc := stuffedCompleted_of_exec h ht hb hf
  refine ⟨_, _, exec_unread t, hc.streamPos_unreadSeq, unreadSeq_u t, hc.exec_readStuffed_unreadSeq, rfl,
    (unreadSeq_aside.fault t).trans hf, rfl, rfl, ?_⟩
  simp only [streamPos, endCommand_sp, endCommand_j, endCommand_i, unreadSeq_sp, unreadSeq_j]

end Sys2Proof.Machine
end

section
/-! PROOFS. READ_BYTE: a plain read whose byte goes to RESULT, with no stuffing check (43_plain_reader.md). -/

namespace Sys2Proof.Machine

/-- READ_BYTE ends as soon as its plain read has given a byte (43_plain_reader.md R161). -/
theorem exec_readByte_of_plainRead {s p : State} {x : Byte} (hr : plainRead .readByte s = .ok x p) :
    exec .readByte s = .next (endCommand { p with result := x }) := by
  rw [exec_eq, body, hr]
  rfl

/-- Settles O21: the plain read with unread data. -/
theorem readByteBuffered : Obligations.ReadByteBuffered := fun _ h hij =>
  exec_readByte_of_plainRead (plainRead_buffered h hij .readByte)

/-- Settles O22: the plain read that refills; the byte it takes is the first one the refill received, so the next one
of the source. -/
theorem readByteRefills : Obligations.ReadByteRefills := by
  intro s h hi ha hn
  obtain ⟨m, hm, hr⟩ := plainRead_refilled h hi ha hn .readByte
  have ⟨_, hreceived, _⟩ := hm
  exact ⟨m, hm, hreceived 0 hn, exec_readByte_of_plainRead hr⟩

end Sys2Proof.Machine
end

section
/-! PROOFS. READ_FULL and IGNORE: the exact end of a transfer inside the unread bytes, and by the stream alone its end
where neither port is silent, refills included, with what that gives for a transfer that is split
(44_read_full_ignore.md). -/

namespace Sys2Proof.Machine

/-! ## The precondition step -/

theorem rewound_j (s : State) : (rewound s).j = s.j := by rw [rewound_frame]
theorem rewound_buf (s : State) : (rewound s).buf = s.buf := by rw [rewound_frame]
theorem rewound_source (s : State) : (rewound s).source = s.source := by rw [rewound_frame]
theorem rewound_dataOut (s : State) : (rewound s).dataOut = s.dataOut := by rw [rewound_frame]
theorem rewound_outReady (s : State) : (rewound s).outReady = s.outReady := by rw [rewound_frame]

theorem streamPos_startTransfer (s : State) : streamPos (startTransfer s) = streamPos (rewound s) := by
  rw [startTransfer_eq]
  rfl

theorem startTransfer_dataOut (s : State) : (startTransfer s).dataOut = s.dataOut := by
  rw [startTransfer_eq]
  exact rewound_dataOut s

/-- With no byte to give back the precondition step changes nothing (44_read_full_ignore.md R182). -/
theorem rewound_of_u {s : State} (h : s.u = 0) : rewound s = s := by
  rw [← precondition_eq, precondition, if_neg (not_not_intro h)]

theorem unreadLen_startTransfer (s : State) : unreadLen (startTransfer s) = s.j - (rewound s).i := by
  rw [startTransfer_eq, unreadLen, rewound_j]

theorem hostAccepts_startTransfer {n : Nat} {s : State} (h : HostAccepts n s) : HostAccepts n (startTransfer s) := by
  rwa [HostAccepts, startTransfer_outReady]

theorem sourceAnswers_startTransfer {n : Nat} {s : State} (h : SourceAnswers n (rewound s)) :
    SourceAnswers n (startTransfer s) := by
  rw [startTransfer_eq]
  exact h

/-! ## Inside the unread bytes -/

/-- Settles O32: the copy faults on an empty destination, before any byte is read. -/
theorem readFullZeroFaults : Obligations.ReadFullZeroFaults := by
  intro s
  have hb : body (.readFull 0) s = raise .copyEmptyDest 0 (startTransfer s) := rfl
  rw [exec_eq, hb, startTransfer_eq]
  rfl

/-- The next bytes of the stream are those of storage from the cursor on (INV-WIN). -/
theorem DataInv.unreadBytes {s : State} (h : DataInv s) {n : Nat} (hn : s.i + n ≤ s.j) :
    (s.source.seq.drop (streamPos s)).take n = (List.range n).map fun k => storageByte s.buf (s.i + k) := by
  refine List.ext_getElem? fun k => ?_
  by_cases hk : k < n
  · rw [List.getElem?_take_of_lt hk, List.getElem?_drop, h.unreadByte (by omega)]
    simp [hk]
  · simp [hk]

/-- On a host that accepts them all bytes of a round are emitted. -/
theorem emitLoop_accepted {s : State} (h : DataInv s) (rem count : Nat) {left t : Nat} (ht : s.i + t + left ≤ s.j)
    (ha : HostAccepts left s) : emitLoop rem count left t s = .ok () (emitted t left s) := by
  have hspec := emitLoop_spec h rem count left t ht
  generalize emitLoop rem count left t s = r at hspec ⊢
  cases r with
  | ok _ q => exact congrArg (Res.ok ()) hspec
  | stop w q =>
    obtain ⟨_, -, -, -, -, hn⟩ := hspec
    exact absurd ha hn

theorem readFullLoop_buffered {s : State} {n : Nat} (h : Owes n s) (hn : 0 < n) (hl : n ≤ unreadLen s)
    (ha : HostAccepts n s) : readFullLoop n s = .ok () (advance n (emitted 0 n s)) := by
  have hij := h.inv.i_le_j
  have hu : unreadLen s = s.j - s.i := rfl
  rw [readFullLoop_round h (Nat.ne_of_gt hn), Nat.min_eq_left hl, emitLoop_accepted h.inv n n (by omega) ha]
  exact if_pos (Nat.sub_self n)

theorem ignoreLoop_buffered {s : State} {n : Nat} (h : Owes n s) (hl : n ≤ unreadLen s) :
    ignoreLoop n s = .ok () (advance n s) := by
  rw [ignoreLoop_eq h, Nat.min_eq_right hl]
  exact if_pos (Nat.sub_self n)

/-- Settles O33: one round, whose bytes of the stream are those of storage. -/
theorem readFullBuffered : Obligations.ReadFullBuffered := by
  intro s n h hn hlt hl ha
  have ho : Owes n (startTransfer s) := .startTransfer h (decide_eq_true hlt)
  have hbytes := h.rewound.unreadBytes (n := n) (by rw [rewound_j]; omega)
  rw [rewound_buf] at hbytes
  rw [exec_eq, body, readFullLoop_buffered ho hn (by rwa [unreadLen_startTransfer]) (hostAccepts_startTransfer ha),
    startTransfer_eq, ← hbytes, ← rewound_dataOut, ← rewound_outReady, ← BitVec.zero_add (BitVec.ofNat 32 n)]
  rfl

/-- Settles O36: one round that skips. -/
theorem ignoreBuffered : Obligations.IgnoreBuffered := by
  intro s n h hlt hl
  have ho : Owes n (startTransfer s) := .startTransfer h (decide_eq_true hlt)
  rw [exec_eq, body, ignoreLoop_buffered ho (by rwa [unreadLen_startTransfer]), startTransfer_eq,
    ← BitVec.zero_add (BitVec.ofNat 32 n)]
  rfl

/-! ## By the stream, where neither port is silent -/

/-- READ_FULL, which emits its bytes, and IGNORE, which does not. -/
def transfer (out : Bool) : Nat → Instr := if out then .readFull else .ignore

/-- Neither port keeps a transfer of `n` bytes from `s` waiting, and READ_FULL has a destination. -/
structure Unhindered (out : Bool) (n : Nat) (s : State) : Prop where
  inv : DataInv s
  fits : n < 2 ^ 24
  source : SourceAnswers n (rewound s)
  pos : out = true → 0 < n
  host : out = true → HostAccepts n s

theorem body_transfer {out : Bool} {n : Nat} {s : State} (h : Unhindered out n s) :
    Transfers out n (startTransfer s) (body (transfer out n) s) := by
  have ho : Owes n (startTransfer s) := .startTransfer h.inv (decide_eq_true h.fits)
  cases out with
  | true => exact readFullLoop_transfers ho (h.pos rfl)
  | false => exact ignoreLoop_transfers ho

/-- Such a transfer does not wait: it moves its bytes, or the source ends first. -/
theorem exec_transfer {out : Bool} {n : Nat} {s : State} (h : Unhindered out n s) :
    ∃ q, exec (transfer out n) s = .next (endCommand q) ∧ TransferEnds out n (startTransfer s) q := by
  have hb := body_transfer h
  rw [exec_eq]
  generalize body (transfer out n) s = r at hb ⊢
  cases r with
  | ok _ q => exact ⟨q, rfl, .inl hb⟩
  | stop w q =>
    obtain ⟨rfl, hs⟩ | ⟨v, -, hw⟩ := hb
    · exact ⟨q, rfl, .inr hs⟩
    · obtain hn | ⟨ht, hn⟩ := hw.silent
      · exact absurd (sourceAnswers_startTransfer h.source) hn
      · exact absurd (hostAccepts_startTransfer (h.host ht)) hn

/-- Where the source has the bytes, a transfer moves them (44_read_full_ignore.md R184, R194). -/
theorem exec_transfer_moves {out : Bool} {n : Nat} {s : State} (h : Unhindered out n s)
    (hl : streamPos (rewound s) + n ≤ s.source.seq.length) :
    ∃ q, exec (transfer out n) s = .next (endCommand q) ∧ Moved out 0 n (startTransfer s) q := by
  obtain ⟨q, hq, hm | ⟨m, _, hmn, -, -, -, hend, -⟩⟩ := exec_transfer h
  · exact ⟨q, hq, hm⟩
  · rw [streamPos_startTransfer, startTransfer_aside.source] at hend
    omega

/-- The bytes the source has left for a transfer. -/
def bytesLeft (s : State) : Nat := s.source.seq.length - streamPos (rewound s)

/-- A transfer has moved all the bytes the source had left, and its last refill received none. -/
structure Drained (out : Bool) (s r : State) : Prop where
  moved : Moved out 0 (bytesLeft s) (startTransfer s) r
  srcEnd : r.srcEnd = true
  pullcnt : r.pullcnt = 0
  unread : r.i = r.j
  kept : r.j ≤ 2

/-- Where the source ends before a transfer has its bytes, the transfer moves what there is and raises END_OF_STREAM
(44_read_full_ignore.md R187, R193). -/
theorem exec_transfer_runs_short {out : Bool} {n : Nat} {s : State} (h : Unhindered out n s)
    (hl : s.source.seq.length < streamPos (rewound s) + n) :
    ∃ r, exec (transfer out n) s = .next (endCommand (latchFault .endOfStream (zext32 (n - bytesLeft s)) r)) ∧
      Drained out s r := by
  obtain ⟨q, hq, hm | ⟨m, r, -, -, hm, rfl, hend, he, -, hp, hi, hj⟩⟩ := exec_transfer h
  · have := hm.pos_le
    rw [streamPos_startTransfer, startTransfer_aside.source] at this
    omega
  · rw [streamPos_startTransfer, startTransfer_aside.source] at hend
    obtain rfl : m = bytesLeft s := by
      rw [bytesLeft]
      omega
    exact ⟨r, hq, hm, he, hp, hi, hj⟩

section
variable {out : Bool} {m : Nat} {s q : State} (h : Moved out 0 m (startTransfer s) q)
include h

theorem Moved.u_eq : q.u = 0 := h.frame.u.trans (startTransfer_u s)

theorem Moved.fault_eq : q.fault = s.fault := h.frame.fault.trans (startTransfer_fault s)

theorem Moved.source_eq : q.source = s.source := h.frame.source.trans (startTransfer_aside.source s)

theorem Moved.streamPos_eq : streamPos q = streamPos (rewound s) + m := by rw [h.pos, streamPos_startTransfer]

theorem Moved.dataOut_eq : q.dataOut =
    if out then s.dataOut ++ (s.source.seq.drop (streamPos (rewound s))).take m else s.dataOut := by
  rw [h.dataOut, startTransfer_dataOut, startTransfer_aside.source, streamPos_startTransfer]
  rfl

theorem Moved.outReady_eq : q.outReady = if out then readyAfter m s.outReady else s.outReady := by
  rw [h.outReady, startTransfer_outReady]
  rfl

/-- The state a transfer leaves that has moved `m` bytes. -/
theorem Moved.endCommand_eq : endCommand q = { rewound s with
    xfer := BitVec.ofNat 32 m
    dataOut := if out then s.dataOut ++ (s.source.seq.drop (streamPos (rewound s))).take m else (rewound s).dataOut
    outReady := if out then readyAfter m s.outReady else (rewound s).outReady
    busy := false, waiting := none
    buf := q.buf, i := q.i, j := q.j, sp := q.sp
    consumed := q.consumed, srcEnd := q.srcEnd, pullcnt := q.pullcnt } := by
  have hx : q.xfer = BitVec.ofNat 32 m := h.xfer.trans (BitVec.zero_add _)
  have hf := h.frame
  rw [startTransfer_eq] at hf
  rw [rewound_dataOut, rewound_outReady, ← h.dataOut_eq, ← h.outReady_eq, ← hx]
  exact congrArg endCommand hf

end

/-- Settles O34: the transfer that emits, where the source has the bytes. -/
theorem readFullDelivers : Obligations.ReadFullDelivers := by
  intro s n h hn hlt ha hh hl
  obtain ⟨q, hq, hm⟩ := exec_transfer_moves (out := true) ⟨h, hlt, ha, fun _ => hn, fun _ => hh⟩ hl
  exact ⟨_, hq, hm.inv.of_control rfl, hm.streamPos_eq, hm.endCommand_eq⟩

/-- Settles O37: the transfer that skips, where the source has the bytes. -/
theorem ignoreSkips : Obligations.IgnoreSkips := by
  intro s n h hlt ha hl
  obtain ⟨q, hq, hm⟩ := exec_transfer_moves (out := false) ⟨h, hlt, ha, nofun, nofun⟩ hl
  exact ⟨_, hq, hm.inv.of_control rfl, hm.streamPos_eq, hm.endCommand_eq⟩

theorem streamPos_rewound_le {s : State} (h : DataInv s) : streamPos (rewound s) ≤ s.source.seq.length := by
  have h1 := h.rewound.streamPos_add
  have h2 := h.rewound.sp_le
  rw [rewound_source] at h2
  omega

theorem Drained.at_end {out : Bool} {s r : State} (h : Drained out s r) (hs : DataInv s) :
    streamPos r = s.source.seq.length := by
  have hle := streamPos_rewound_le hs
  rw [h.moved.streamPos_eq, bytesLeft]
  omega

/-- The state a transfer leaves that has run short. -/
theorem Drained.endCommand_eq {out : Bool} {s r : State} (h : Drained out s r) (v : Word) :
    endCommand (latchFault .endOfStream v r) = { rewound s with
      fault := true, fcode := 3, finfo := v
      xfer := BitVec.ofNat 32 (bytesLeft s)
      dataOut := if out then s.dataOut ++ s.source.seq.drop (streamPos (rewound s)) else (rewound s).dataOut
      outReady := if out then readyAfter (bytesLeft s) s.outReady else (rewound s).outReady
      srcEnd := true, pullcnt := 0, busy := false, waiting := none
      buf := r.buf, i := r.i, j := r.j, sp := r.sp, consumed := r.consumed } := by
  have hall : (s.source.seq.drop (streamPos (rewound s))).take (bytesLeft s) =
      s.source.seq.drop (streamPos (rewound s)) := List.take_of_length_le (by rw [List.length_drop, bytesLeft])
  have he := congrArg (latchFault .endOfStream v) h.moved.endCommand_eq
  rw [hall, h.srcEnd, h.pullcnt] at he
  exact he

/-- Settles O35: the transfer that emits, where the source ends first, so of at least one byte. -/
theorem readFullEndOfStream : Obligations.ReadFullEndOfStream := by
  intro s n h hlt he hh hl
  have hle := streamPos_rewound_le h
  obtain ⟨r, hr, hd⟩ := exec_transfer_runs_short (out := true)
    ⟨h, hlt, .inl (by rwa [rewound_source]), fun _ => by omega, fun _ => hh⟩ hl
  exact ⟨_, hr, (hd.moved.inv.latchFault _ _).of_control rfl, hd.at_end h, hd.unread, hd.kept, hd.endCommand_eq _⟩

/-- Settles O38: the transfer that skips, where the source ends first. -/
theorem ignoreEndOfStream : Obligations.IgnoreEndOfStream := by
  intro s n h hlt he hl
  obtain ⟨r, hr, hd⟩ := exec_transfer_runs_short (out := false)
    ⟨h, hlt, .inl (by rwa [rewound_source]), nofun, nofun⟩ hl
  exact ⟨_, hr, (hd.moved.inv.latchFault _ _).of_control rfl, hd.at_end h, hd.unread, hd.kept, hd.endCommand_eq _⟩

/-! ## A transfer that is split (44_read_full_ignore.md R195) -/

theorem Unhindered.mono {out : Bool} {m n : Nat} {s : State} (h : Unhindered out n s) (hm : m ≤ n)
    (h0 : out = true → 0 < m) : Unhindered out m s where
  inv := h.inv
  fits := Nat.lt_of_le_of_lt hm h.fits
  source := h.source.imp id fun h => by omega
  pos := h0
  host := fun ho k hk => Nat.le_trans hm (h.host ho k hk)

section
variable {out : Bool} {a : Nat} {s p : State} (hp : Moved out 0 a (startTransfer s) p)
include hp

/-- The second part has no byte to give back: it starts where the first part ended. -/
theorem Moved.rewound_endCommand : rewound (endCommand p) = endCommand p := rewound_of_u hp.u_eq

theorem Moved.streamPos_rest : streamPos (rewound (endCommand p)) = streamPos (rewound s) + a := by
  rw [hp.rewound_endCommand]
  exact hp.streamPos_eq

theorem Moved.bytesLeft_rest : bytesLeft (endCommand p) = s.source.seq.length - (streamPos (rewound s) + a) := by
  rw [bytesLeft, hp.streamPos_rest, endCommand_source, hp.source_eq]

/-- What lets the whole transfer through lets its second part through. -/
theorem Unhindered.rest {b : Nat} (h : Unhindered out (a + b) s) (hb : out = true → 0 < b) :
    Unhindered out b (endCommand p) where
  inv := hp.inv.of_control rfl
  fits := Nat.lt_of_le_of_lt (Nat.le_add_left ..) h.fits
  source := by
    have hr := hp.sourceAnswers (Nat.le_add_right ..) (sourceAnswers_startTransfer h.source)
    rw [Nat.add_sub_cancel_left] at hr
    rw [hp.rewound_endCommand]
    exact hr
  pos := hb
  host := by
    rintro rfl
    have hr := hp.hostAccepts (rem := a + b) (Nat.zero_le _) (Nat.le_add_right ..)
      (hostAccepts_startTransfer (h.host rfl))
    rwa [Nat.add_sub_cancel_left] at hr

/-- The two parts emit, one after the other, the bytes of the whole transfer. -/
theorem Moved.dataOut_rest {b : Nat} {r q : State} (hr : Moved out 0 b (startTransfer (endCommand p)) r)
    (hq : Moved out 0 (a + b) (startTransfer s) q) : r.dataOut = q.dataOut := by
  rw [hr.dataOut_eq, hq.dataOut_eq, endCommand_dataOut, endCommand_source, hp.dataOut_eq, hp.source_eq,
    hp.streamPos_rest]
  cases out with
  | true => simp only [if_true, List.append_assoc, List.take_add, List.drop_drop]
  | false => rfl

/-- The same where both run short, the second part behind a first one that had its bytes. -/
theorem Drained.dataOut_rest {r q : State} (hr : Drained out (endCommand p) r) (hq : Drained out s q)
    (hl : streamPos (rewound s) + a ≤ s.source.seq.length) : r.dataOut = q.dataOut := by
  have hmq := hq.moved
  rw [show bytesLeft s = a + bytesLeft (endCommand p) by rw [hp.bytesLeft_rest, bytesLeft]; omega] at hmq
  exact hp.dataOut_rest hr.moved hmq

theorem Drained.at_end_rest {r : State} (hr : Drained out (endCommand p) r) : streamPos r = s.source.seq.length := by
  rw [hr.at_end (hp.inv.of_control rfl), endCommand_source, hp.source_eq]

end

/-- Settles O39: what a transfer does depends on the stream position it starts at and on its length, and the second
part starts where the first one ended. -/
theorem transfersSplit : Obligations.TransfersSplit := by
  intro s a b c h hlt hc
  obtain ⟨out, rfl, ha, hb, hh⟩ : ∃ out, c = transfer out ∧ (out = true → 0 < a) ∧ (out = true → 0 < b) ∧
      (out = true → HostAccepts (a + b) s) := by
    obtain ⟨rfl, ha, hb, hh⟩ | rfl := hc
    · exact ⟨true, rfl, fun _ => ha, fun _ => hb, fun _ => hh⟩
    · exact ⟨false, rfl, nofun, nofun, nofun⟩
  have whole (hs : SourceAnswers (a + b) (rewound s)) : Unhindered out (a + b) s :=
    ⟨h, hlt, hs, fun ho => Nat.add_pos_left (ha ho) b, hh⟩
  have first (hw : Unhindered out (a + b) s) : Unhindered out a s := hw.mono (Nat.le_add_right ..) ha
  refine ⟨fun hs hl => ?_, fun he hl => ?_⟩
  · have hw := whole hs
    obtain ⟨q, hq, hmq⟩ := exec_transfer_moves hw hl
    obtain ⟨p, hp, hmp⟩ := exec_transfer_moves (first hw) (by omega)
    obtain ⟨r, hr, hmr⟩ := exec_transfer_moves (hw.rest hmp hb)
      (by rw [hmp.streamPos_rest, endCommand_source, hmp.source_eq]; omega)
    have hout : r.dataOut = q.dataOut := hmp.dataOut_rest hmr hmq
    have hpos : streamPos r = streamPos q := by
      rw [hmr.streamPos_eq, hmp.streamPos_rest, hmq.streamPos_eq, Nat.add_assoc]
    exact ⟨_, _, _, hp, hr, hq, hout, hpos, hmr.u_eq, hmq.u_eq, rfl, hmp.fault_eq,
      hmr.fault_eq.trans hmp.fault_eq, hmq.fault_eq⟩
  · have hw := whole (.inl (by rwa [rewound_source]))
    obtain ⟨q, hq, hdq⟩ := exec_transfer_runs_short hw hl
    by_cases hla : s.source.seq.length < streamPos (rewound s) + a
    · obtain ⟨p, hp, hdp⟩ := exec_transfer_runs_short (first hw) hla
      have hout : p.dataOut = q.dataOut := hdp.moved.dataOut.trans hdq.moved.dataOut.symm
      exact ⟨_, _, hp, hq, rfl, rfl, hdq.at_end h, hdq.moved.u_eq, rfl,
        fun _ => ⟨rfl, rfl, hdp.at_end h, hdp.moved.u_eq, rfl, hout⟩, fun hn => absurd hla (Nat.not_lt.2 hn)⟩
    · obtain ⟨p, hp, hmp⟩ := exec_transfer_moves (first hw) (Nat.le_of_not_lt hla)
      obtain ⟨r, hr, hdr⟩ := exec_transfer_runs_short (hw.rest hmp hb)
        (by rw [hmp.streamPos_rest, endCommand_source, hmp.source_eq]; omega)
      have hout : r.dataOut = q.dataOut := hdr.dataOut_rest hmp hdq (Nat.le_of_not_lt hla)
      rw [hmp.bytesLeft_rest] at hr
      exact ⟨_, _, hp, hq, rfl, rfl, hdq.at_end h, hdq.moved.u_eq, rfl, fun hn => absurd hn hla, fun _ =>
        ⟨rfl, hmp.fault_eq, _, hr, rfl, rfl, hdr.at_end_rest hmp, hdr.moved.u_eq, rfl, hout⟩⟩

end Sys2Proof.Machine
end

section
/-! PROOFS. The copy primitive: one closed form for the four cases that do not fault, its laws, and the block form
(45_copy.md). -/

namespace Sys2Proof.Machine

/-- 45_copy.md R211's first case, the one tested before the empty source. -/
theorem copy_nil {α : Type} (src : List α) : copy [] src = .error .copyEmptyDest := rfl

/-- 45_copy.md R211's other four cases are one: as much of the source as fits, then the destination's tail. -/
theorem copy_of_ne_nil {α : Type} {dst : List α} (h : dst ≠ []) (src : List α) :
    copy dst src = .ok (src.take dst.length ++ dst.drop src.length, min dst.length src.length) := by
  rw [copy, if_neg (mt List.length_eq_zero_iff.1 h)]
  split
  case isTrue hnone => simp [List.length_eq_zero_iff.1 hnone]
  case isFalse =>
  split
  case isTrue hshort => rw [List.take_of_length_le hshort.le, min_eq_right hshort.le]
  case isFalse =>
  split
  case isTrue heq => simp [heq]
  case isFalse => rw [List.drop_eq_nil_of_le (by omega), List.append_nil, min_eq_left (by omega)]

/-- Settles O45: each law is read off the closed form, by where `k` falls in the two parts of the result. -/
theorem copyLaws : Obligations.CopyLaws := by
  intro α dst src
  refine ⟨fun hnil => hnil ▸ copy_nil src, fun h =>
    ⟨_, _, copy_of_ne_nil h src, ?_, rfl, fun k hk => ?_, fun k hk hlt => ?_⟩⟩
  · rw [List.length_append, List.length_take, List.length_drop]
    omega
  · rw [List.getElem?_append_left (by rwa [List.length_take]), List.getElem?_take_of_lt (by omega)]
  · have hsrc : src.length ≤ k := by omega
    have htake : src.take dst.length = src := List.take_of_length_le (by omega)
    rw [htake, List.getElem?_append_right hsrc, List.getElem?_drop, Nat.add_sub_cancel' hsrc]

/-- Settles O46: by whether the destination is empty, which both test first. -/
theorem copyCountIsCopy : Obligations.CopyCountIsCopy := by
  intro dst src s
  by_cases h : dst = []
  · subst h
    rfl
  · rw [copyCount, if_neg (mt List.length_eq_zero_iff.1 h), copy_of_ne_nil h]

end Sys2Proof.Machine
end

section
/-! PROOFS. The acceptance rule (46_session_control.md R231): what a step answers that takes the host's write of a word
to CMD, and that every accepted command answers a state. -/

namespace Sys2Proof.Machine

/-- A step that takes the host's write to CMD offers the word. -/
theorem step_cmdWrite {s : State} {w : Word} {rest : List Input} (hv : s.cfg.Valid)
    (hi : s.inputs = .busWrite s.cfg.base 4 w :: rest) : step s = offer w { s with inputs := rest } := by
  rw [step_of_inputs hi]
  exact busWrite_cmd (s := { s with inputs := rest }) hv w

/-- An offered command's word is accepted while BUSY = 0, and FAULT = 0 or the command is INIT. -/
theorem offer_accepted {s : State} {w : Word} {i : Instr} (hb : s.busy = false) (hd : decode w = .ok i)
    (hf : s.fault = false ∨ i = .init) : offer w s = exec i (setBusy s) := by
  have hnot : ¬ (s.fault = true ∧ isInit w = false) := by
    rintro ⟨hft, hni⟩
    obtain hf | rfl := hf
    · simp [hf] at hft
    · simp [(isInit_iff w).2 hd] at hni
  rw [offer, if_neg (by simp [hb]), if_neg hnot, accept, hd]

/-- Settles O6: the write reaches CMD, and the word is accepted there. -/
theorem stepRunsAcceptedCommand : Obligations.StepRunsAcceptedCommand := by
  intro s w i rest hv hi hb hd hf
  rw [step_cmdWrite hv hi, offer_accepted (s := { s with inputs := rest }) hb hd hf]
  rfl

theorem decode_of_decodeTableWord {nbits w : Nat} {i : Instr} (h : decodeTableWord nbits w = some i) :
    decode (tableWord nbits w) = .ok i := by
  rw [decodeTableWord] at h
  split at h
  · cases hd : decode (tableWord nbits w) with
    | ok c => simpa [hd, Except.toOption] using h
    | error e => simp [hd, Except.toOption] at h
  · contradiction

/-- Settles O7: the word placed is the next move, a write to CMD. -/
theorem fetchedWordRuns : Obligations.FetchedWordRuns := by
  intro s nbits w i hv hb hf hd
  exact stepRunsAcceptedCommand (s.withFetchWord nbits w) (tableWord nbits w) i s.inputs hv rfl hb
    (decode_of_decodeTableWord hd) (.inl hf)

/-- Settles O8: BUSY is the first thing an offered word meets. -/
theorem busyDropsCommands : Obligations.BusyDropsCommands := by
  intro s w rest hv hi hb
  rw [step_cmdWrite hv hi]
  exact if_pos hb

/-- Settles O9: a latched fault is the second, and only INIT's word passes it. -/
theorem faultRefusesCommands : Obligations.FaultRefusesCommands := by
  intro s w rest hv hi hb hf hd
  have hni : isInit w = false := by
    rw [← Bool.not_eq_true, isInit_iff]
    exact hd
  rw [step_cmdWrite hv hi, offer, if_neg (by simp [hb])]
  exact if_pos ⟨hf, hni⟩

/-- Settles O50: every command is sound, so it answers a state. -/
theorem everyCommandAnswers : Obligations.EveryCommandAnswers := by
  intro s i h hi
  obtain ⟨t, ht, -⟩ := exec_sound h hi
  exact ⟨t, ht⟩

end Sys2Proof.Machine
end

section
/-! PROOFS. What a session starts with (46_session_control.md R235). -/

namespace Sys2Proof.Machine

/-- Settles O40: INIT's body clears the session and takes over the next source, and ending it clears BUSY. -/
theorem initStartsSession : Obligations.InitStartsSession := fun s =>
  ⟨endCommand (attachNext (clearSession s)), rfl, rfl⟩

/-- Settles O42: INIT and reset start on the next session's source, which the attach move has set. -/
theorem attachedSourceStartsSession : Obligations.AttachedSourceStartsSession := by
  intro s src rest hi
  have ht : step s = .next { s with nextSource := src, inputs := rest } := step_of_inputs hi
  exact ⟨_, ht, rfl, ⟨_, rfl, rfl⟩, ⟨_, rfl, rfl⟩⟩

end Sys2Proof.Machine
end

section
/-! PROOFS. A source that has not ended and is silent: the command whose refill needs a byte waits, and has taken every
byte there is (46_session_control.md R232, 70_reset_and_hazards.md R290). -/

namespace Sys2Proof.Machine

/-! ## The readers -/

/-- A command whose pull is silent waits in it. -/
theorem exec_of_refill_waits {s t : State} {c : Instr} {k : PullFor} {n : Nat} (hi : s.i = s.j)
    (hk : (c, k) ∈ [(Instr.refill, PullFor.refill), (.readByte, .readByte), (.readStuffed, .stuffedFirst)])
    (hr : refill k s = .stop (.waits (.pull n k)) t) : exec c s = .next (park (.pull n k) t) := by
  have hread : plainRead k s = .stop (.waits (.pull n k)) t := by
    rw [plainRead, if_pos hi, needBytes, hr, Res.stop_bind, Res.stop_bind]
  simp only [List.mem_cons, Prod.mk.injEq, List.not_mem_nil, or_false] at hk
  obtain ⟨rfl, rfl⟩ | ⟨rfl, rfl⟩ | ⟨rfl, rfl⟩ := hk
  · rw [exec_refill_of_no_unread hi, hr]
    rfl
  · rw [exec_eq, body, hread]
    rfl
  · rw [exec_readStuffed, readStuffed, if_neg (by omega), hread]
    rfl

/-- A refill that waits has received every byte the source has revealed. -/
theorem refilledBy_all {s : State} (h : DataInv s) (m : Memory) :
    refilledBy s (s.source.seq.length - s.sp) m = { s with
      buf := m
      i := min s.j 2
      j := min s.j 2 + (s.source.seq.length - s.sp)
      sp := s.source.seq.length
      consumed := s.consumed ++ s.source.seq.drop s.sp } := by
  have hall : (s.source.seq.drop s.sp).take (s.source.seq.length - s.sp) = s.source.seq.drop s.sp :=
    List.take_of_length_le (Nat.le_of_eq List.length_drop)
  rw [refilledBy, hall, Nat.add_sub_cancel' h.sp_le]

/-- READ_STUFFED waits after the bytes `k` says: in its first plain read, or past an 0xFF in its second
(41_stuffed_reader.md R123). -/
def StuffedReached (s : State) (k : PullFor) (t : State) : Prop :=
  (k = .stuffedFirst ∧ streamPos t = streamPos s ∧ t.u = s.u) ∨
    (k = .stuffedSecond ∧ streamPos t = streamPos s + 1 ∧ t.u = 1 ∧ s.source.seq[streamPos s]? = some 0xFF)

/-- READ_STUFFED waits in the pull `k` on a source that has not ended. -/
structure StuffedWaits (s : State) (n : Nat) (k : PullFor) (t : State) : Prop where
  result : readStuffed s = .stop (.waits (.pull n k)) t
  frame : ReadFrame s t
  inv : DataInv t
  srcEnd : t.srcEnd = false
  all : t.sp = s.source.seq.length
  reached : StuffedReached s k t
  lastByte : s.i + 1 = s.j → k = .stuffedSecond

/-- A refill that received nothing found the source ended. -/
theorem OutOfBytes.ended {need : Nat} {s t : State} (h : OutOfBytes need s t) : s.source.ended = true := by
  obtain ⟨r, p, -⟩ := h
  obtain ⟨-, he, -⟩ := p.none
  rwa [p.frame.source] at he

theorem RefillWaits.sp_eq {n : Nat} {s t : State} (h : RefillWaits n s t) : t.sp = s.source.seq.length := by
  obtain ⟨-, hall⟩ := h.silent
  rwa [h.frame.source] at hall

/-- Short of bytes on a source that has not ended, READ_STUFFED waits. -/
theorem readStuffed_waits {s : State} (h : DataInv s) (he : s.source.ended = false)
    (hs : s.source.seq[streamPos s]? = none ∨
      (s.source.seq[streamPos s]? = some 0xFF ∧ s.source.seq[streamPos s + 1]? = none)) :
    ∃ n k t, StuffedWaits s n k t := by
  have hspec := readStuffed_spec h
  have hlive : s.source.ended ≠ true := by simp [he]
  generalize hr : readStuffed s = r at hspec
  cases r with
  | ok _ q =>
    obtain ⟨x, p, hp, -⟩ := hspec
    obtain hx | ⟨hx, hy⟩ := hs
    · simp [hp.byte] at hx
    · rw [hp.byte] at hx
      simp [hp.zero (Option.some.inj hx)] at hy
  | stop w q =>
    cases hspec with
    | missing y p hp =>
      obtain hx | ⟨-, hy⟩ := hs
      · simp [hp.byte] at hx
      · simp [hp.next] at hy
    | firstEnds _ hi ho => exact absurd ho.ended hlive
    | firstWaits n _ hi hw =>
      exact ⟨n, _, q, hr, hw.frame.readFrame, hw.inv, hw.srcEnd, hw.sp_eq, .inl ⟨rfl, hw.pos, hw.frame.u⟩,
        fun hij => by omega⟩
    | secondEnds p _ hp hi ho => exact absurd (hp.frame.source ▸ ho.ended) hlive
    | secondWaits n p _ hp hi hw =>
      exact ⟨n, _, q, hr, hp.frame.trans hw.frame.readFrame, hw.inv, hw.srcEnd, hp.frame.source ▸ hw.sp_eq,
        .inr ⟨rfl, hw.pos.trans hp.pos, hw.frame.u.trans hp.u, hp.byte⟩, fun _ => rfl⟩

/-- SRC_END is 0 on a source that has not ended (10_state.md R33). -/
theorem DataInv.srcEnd_of_live {s : State} (h : DataInv s) (he : s.source.ended = false) : s.srcEnd = false := by
  obtain ⟨hend, -⟩ := h.source
  rw [← Bool.not_eq_true]
  intro hs
  simp [(hend hs).1] at he

/-- Settles O20: with no unread byte the command's first refill waits; READ_STUFFED waits in either of its reads. -/
theorem silentSourceWaits : Obligations.SilentSourceWaits := by
  refine ⟨fun s c k h hi ha hk => ?_, fun s h he hs => ?_⟩
  · obtain ⟨-, -, -, hjc⟩ := h.cursor
    obtain ⟨m, hm, hr⟩ := refill_silent hjc hi ha k
    refine ⟨m, hm, ?_⟩
    rw [exec_of_refill_waits hi hk hr, refilledBy_all h]
    rfl
  · obtain ⟨n, k, t, hw⟩ := readStuffed_waits h he hs
    refine ⟨park (.pull n k) t, n, k, ?_, hw.inv.of_control rfl, hw.all, hw.reached, hw.lastByte, ?_⟩
    · rw [exec_readStuffed, hw.result]
      rfl
    · have hse : t.srcEnd = s.srcEnd := hw.srcEnd.trans (h.srcEnd_of_live he).symm
      have hf := congrArg (park (.pull n k)) hw.frame
      rw [hse] at hf
      exact hf

end Sys2Proof.Machine
end

section
/-! PROOFS. READ_FULL and IGNORE on a source that has not ended: they move their bytes, or wait for the source
(46_session_control.md R232, 44_read_full_ignore.md R180). -/

namespace Sys2Proof.Machine

/-- What a transfer of `n` bytes from `s` leaves when it completes or waits for the source: `m` bytes have been moved,
and those still owed wait for a byte the source has not revealed. -/
structure MovedOrWaits (out : Bool) (n m : Nat) (s t : State) : Prop where
  inv : DataInv t
  le : m ≤ n
  pos : streamPos t = streamPos (rewound s) + m
  completes : t.busy = false → m = n ∧ t.waiting = none
  waits : t.busy = true → m < n ∧ t.sp = s.source.seq.length ∧ t.j < t.cfg.bufCap ∧
    ∃ got, t.waiting = some (.pull got (if out then .readFull (n - m) else .ignore (n - m)))
  short : s.source.seq.length < streamPos (rewound s) + n → t.busy = true
  frame : t = { rewound s with
    xfer := BitVec.ofNat 32 m
    dataOut := if out then s.dataOut ++ (s.source.seq.drop (streamPos (rewound s))).take m else (rewound s).dataOut
    outReady := if out then readyAfter m s.outReady else (rewound s).outReady
    busy := t.busy, waiting := t.waiting
    buf := t.buf, i := t.i, j := t.j, sp := t.sp, consumed := t.consumed, pullcnt := t.pullcnt }

/-- A transfer on a source that has not ended leaves SRC_END as it was, at 0. -/
theorem TransferFrame.srcEnd_of_live {s q : State} (h : TransferFrame (startTransfer s) q) (hs : DataInv s)
    (hq : DataInv q) (he : s.source.ended = false) : q.srcEnd = (rewound s).srcEnd := by
  have hqe : q.source.ended = false := by rwa [h.source, startTransfer_aside.source]
  have hre : (rewound s).source.ended = false := by rwa [rewound_source]
  rw [hq.srcEnd_of_live hqe, hs.rewound.srcEnd_of_live hre]

section
variable {out : Bool} {m e n : Nat} {s q : State} {w : Wait} (h : WaitsAfter out 0 m e n (startTransfer s) w q)
include h

theorem WaitsAfter.streamPos_eq : streamPos q = streamPos (rewound s) + m := by rw [h.pos, streamPos_startTransfer]

theorem WaitsAfter.dataOut_eq : q.dataOut =
    if out then s.dataOut ++ (s.source.seq.drop (streamPos (rewound s))).take e else s.dataOut := by
  rw [h.dataOut, startTransfer_dataOut, startTransfer_aside.source, streamPos_startTransfer]
  rfl

theorem WaitsAfter.outReady_eq : q.outReady = if out then readyAfter e s.outReady else s.outReady := by
  rw [h.outReady, startTransfer_outReady]
  rfl

/-- READ_FULL on a host that accepts its bytes does not wait for the host. -/
theorem WaitsAfter.port_of_accepts (ha : out = true → HostAccepts n s) :
    e = m ∧ ∃ got, w = .pull got (if out then .readFull (n - m) else .ignore (n - m)) := by
  obtain hp | ⟨rfl, h0, -⟩ := h.port
  · exact hp
  · have hlt := h.hi
    have hr := h.outReady_eq
    rw [h0, if_pos rfl] at hr
    obtain ⟨k, hk, hke⟩ := Option.map_eq_some_iff.1 hr.symm
    have := ha rfl k hk
    omega

end

section
variable {out : Bool} {n : Nat} {s q : State} (h : DataInv s) (he : s.source.ended = false)
include h he

/-- The transfer completes: it has moved all its bytes. -/
theorem Moved.movedOrWaits (hq : Moved out 0 n (startTransfer s) q) : MovedOrWaits out n n s (endCommand q) where
  inv := hq.inv.of_control rfl
  le := Nat.le_refl n
  pos := hq.streamPos_eq
  completes := fun _ => ⟨rfl, rfl⟩
  waits := nofun
  short := fun hl => by
    have hle := hq.pos_le
    rw [streamPos_startTransfer, startTransfer_aside.source] at hle
    omega
  frame := by
    have hf := hq.endCommand_eq
    rw [hq.frame.srcEnd_of_live h hq.inv he] at hf
    exact hf

/-- The transfer waits: its finished rounds are the bytes moved. -/
theorem TransferWaits.movedOrWaits {w : Wait} (hq : TransferWaits out 0 n (startTransfer s) w q)
    (ha : out = true → HostAccepts n s) : ∃ m, MovedOrWaits out n m s (park w q) := by
  obtain ⟨m, e, hw⟩ := hq.amount
  obtain ⟨rfl, got, rfl⟩ := hw.port_of_accepts ha
  obtain ⟨-, hroom, -, -, hall, -⟩ := hq.wait
  have hlt := hw.hi
  rw [hq.frame.source, startTransfer_aside.source] at hall
  exact ⟨e,
    { inv := hq.inv.of_control rfl
      le := Nat.le_of_lt hlt
      pos := hw.streamPos_eq
      completes := nofun
      waits := fun _ => ⟨hlt, hall, hroom, got, rfl⟩
      short := fun _ => rfl
      frame := by
        have hx : q.xfer = BitVec.ofNat 32 e := hw.xfer.trans (BitVec.zero_add _)
        have hf : q = _ := hq.frame
        rw [startTransfer_eq, hq.frame.srcEnd_of_live h hq.inv he] at hf
        rw [rewound_dataOut, rewound_outReady, ← hw.dataOut_eq, ← hw.outReady_eq, ← hx]
        exact congrArg (park _) hf }⟩

/-- On a source that has not ended a transfer completes or waits for the source; it does not fault. -/
theorem exec_transfer_live (hn : n < 2 ^ 24) (hpos : out = true → 0 < n) (ha : out = true → HostAccepts n s) :
    ∃ t m, exec (transfer out n) s = .next t ∧ MovedOrWaits out n m s t := by
  have ho : Owes n (startTransfer s) := .startTransfer h (decide_eq_true hn)
  have hb : Transfers out n (startTransfer s) (body (transfer out n) s) := by
    cases out with
    | true => exact readFullLoop_transfers ho (hpos rfl)
    | false => exact ignoreLoop_transfers ho
  rw [exec_eq]
  generalize body (transfer out n) s = r at hb ⊢
  cases r with
  | ok _ q => exact ⟨_, n, rfl, hb.movedOrWaits h he⟩
  | stop w q =>
    obtain ⟨-, m, r, -, -, hm, -, -, -, hend, -⟩ | ⟨v, rfl, hw⟩ := hb
    · rw [hm.source_eq, he] at hend
      contradiction
    · obtain ⟨m, hm⟩ := hw.movedOrWaits h he ha
      exact ⟨_, m, rfl, hm⟩

end

/-- Settles O58: both transfers at once, READ_FULL emitting its bytes and IGNORE skipping them. -/
theorem transfersWaitForSource : Obligations.TransfersWaitForSource := by
  intro s n h hn he
  refine ⟨fun hpos ha => ?_, ?_⟩
  · obtain ⟨t, m, ht, hm⟩ := exec_transfer_live (out := true) h he hn (fun _ => hpos) (fun _ => ha)
    exact ⟨t, m, ht, hm.inv, hm.le, hm.pos, hm.completes, hm.waits, hm.short, hm.frame⟩
  · obtain ⟨t, m, ht, hm⟩ := exec_transfer_live (out := false) h he hn nofun nofun
    exact ⟨t, m, ht, hm.inv, hm.le, hm.pos, hm.completes, hm.waits, hm.short, hm.frame⟩

end Sys2Proof.Machine
end

section
/-! PROOFS. Runs (46_session_control.md R236): every step takes a move away, so a run over the pending moves ends,
waits, or meets a move outside the model; and no move takes back what was consumed or delivered. -/

namespace Sys2Proof.Machine

/-! ## What a move leaves outside the block -/

/-- Going on with a waiting command, after a move that changed nothing of this, takes no further move and takes back no
byte. -/
theorem resume_same {s q t : State} (h : resume q = .next t) (hq : SameOutside s q) : SameOutside s t := by
  obtain ⟨-, rfl⟩ | ⟨w, -, h⟩ := resume_cases h
  · exact hq
  · exact hq.trans ((continueFrom_untouched w q).finish h)

theorem offer_same {s t : State} {w : Word} (h : offer w s = .next t) : SameOutside s t := by
  obtain ⟨-, rfl⟩ | ⟨-, -, -, rfl⟩ | ⟨-, -, h⟩ := offer_cases h
  · exact .of_eq rfl rfl rfl rfl
  · exact .of_eq rfl rfl rfl rfl
  · obtain ⟨-, rfl⟩ | ⟨i, -, h⟩ := accept_cases h
    · exact .of_eq rfl rfl rfl rfl
    · exact SameOutside.trans (t := setBusy s) (.of_eq rfl rfl rfl rfl) (exec_same h)

theorem readOffset_same (off : Nat) (s : State) : SameOutside s (readOffset off s) := by
  unfold readOffset
  split
  · exact .of_eq rfl rfl rfl rfl
  · split <;> exact .of_eq rfl rfl rfl rfl

/-- The block's answer to a move takes no further move, and takes back no byte consumed or delivered. -/
theorem takeInput_same {s t : State} {a : Input} (h : takeInput a s = .next t) : SameOutside s t := by
  cases a with
  | busWrite addr bytes data =>
    obtain rfl | ⟨-, h⟩ := busWrite_cases h
    · exact .of_eq rfl rfl rfl rfl
    · exact offer_same h
  | busRead addr bytes =>
    simp only [takeInput, busRead] at h
    split at h
    · contradiction
    · injection h with h
      exact h ▸ readOffset_same _ s
  | hostAccept ready => exact resume_same h (.of_eq rfl rfl rfl rfl)
  | sourceBytes bs =>
    simp only [takeInput, sourceBytes] at h
    split at h
    · contradiction
    · exact resume_same h (.of_eq rfl rfl rfl rfl)
  | sourceEnd => exact resume_same h (.of_eq rfl rfl rfl rfl)
  | attach src =>
    injection h with h
    exact h ▸ .of_eq rfl rfl rfl rfl
  | accSet n f1 f2 =>
    simp only [takeInput, accSet] at h
    split at h
    · injection h with h
      exact h ▸ .of_eq rfl rfl rfl rfl
    · contradiction
  | reset =>
    injection h with h
    exact h ▸ .of_eq rfl rfl rfl rfl

/-- What has been consumed and delivered at `s` begins what has been at `t`. -/
def RecordsExtend (s t : State) : Prop := s.consumed <+: t.consumed ∧ s.dataOut <+: t.dataOut

theorem step_recordsExtend {s t : State} (h : step s = .next t) : RecordsExtend s t := by
  obtain ⟨-, rfl⟩ | ⟨a, rest, -, h⟩ := step_cases h
  · exact ⟨List.prefix_refl _, List.prefix_refl _⟩
  · have hs := takeInput_same h
    exact ⟨hs.consumed, hs.dataOut⟩

theorem RunReaches.recordsExtend {s t : State} (h : RunReaches s t) : RecordsExtend s t := by
  induction h with
  | here s => exact ⟨List.prefix_refl _, List.prefix_refl _⟩
  | onward _ hr _ ih =>
    obtain ⟨hc, hd⟩ := step_recordsExtend hr
    exact ⟨hc.trans ih.1, hd.trans ih.2⟩

/-! ## The end of a run -/

/-- With no move pending a run goes no further. -/
theorem RunReaches.of_no_inputs {s t : State} (h : RunReaches s t) (hi : s.inputs = []) : t = s := by
  induction h with
  | here s => rfl
  | onward _ hr _ ih =>
    obtain ⟨-, rfl⟩ | ⟨a, rest, hi', -⟩ := step_cases hr
    · exact ih hi
    · simp [hi] at hi'

/-- A state whose move is refused is the last of a run. -/
theorem RunReaches.of_refused {s t : State} {r : Refusal} (h : RunReaches s t) (hr : step s = .refused r) : t = s := by
  cases h with
  | here => rfl
  | onward _ hr' _ =>
    rw [hr] at hr'
    contradiction

/-- A run ends at one state. -/
theorem RunEndsAt.unique {s t r : State} (ht : RunEndsAt s t) (hr : RunEndsAt s r) : r = t := by
  obtain ⟨ht, hte⟩ := ht
  obtain ⟨hr, hre⟩ := hr
  obtain h | h := ht.linear hr
  · exact h.of_ended hte
  · exact (h.of_ended hre).symm

/-- A state of a run that ends, from which the run goes no further, is where it ends. -/
theorem RunEndsAt.eq_of_stuck {s t r : State} (ht : RunEndsAt s t) (hr : RunReaches s r)
    (hstuck : ∀ q, RunReaches r q → q = r) : r = t := by
  obtain ⟨ht, hte⟩ := ht
  obtain h | h := ht.linear hr
  · exact h.of_ended hte
  · exact (hstuck t h).symm

theorem RunEndsAt.not_waitsForEver {s t : State} (h : RunEndsAt s t) : ¬ RunWaitsForEver s := by
  rintro ⟨r, hr, hb, hi⟩
  obtain rfl := h.eq_of_stuck hr fun _ hq => hq.of_no_inputs hi
  obtain ⟨-, hidle, -⟩ := h
  simp [hb] at hidle

theorem RunEndsAt.not_refused {s t : State} (h : RunEndsAt s t) : ¬ RunRefused s := by
  rintro ⟨r, f, hr, hne, hf⟩
  obtain rfl := h.eq_of_stuck hr fun _ hq => hq.of_refused hf
  exact hne h.2

/-- What a run appends to the records is its outcome (46_session_control.md R236, log 13). -/
theorem RunEndsAt.records {s t : State} (h : RunEndsAt s t) :
    t.consumed = s.consumed ++ (runOutcome s t).2.1 ∧ t.dataOut = s.dataOut ++ (runOutcome s t).2.2 := by
  obtain ⟨hc, hd⟩ := h.1.recordsExtend
  exact ⟨List.prefix_iff_eq_append.1 hc |>.symm, List.prefix_iff_eq_append.1 hd |>.symm⟩

/-! ## Every run ends, waits, or is refused -/

/-- The three ways a run goes (46_session_control.md R236). -/
def RunCloses (s : State) : Prop := (∃ t, RunEndsAt s t) ∨ RunWaitsForEver s ∨ RunRefused s

/-- A run goes the way of the rest behind its first step. -/
theorem RunCloses.of_step {s r : State} (hs : ¬ RunEnded s) (hr : step s = .next r) (h : RunCloses r) :
    RunCloses s := by
  obtain ⟨t, ht, he⟩ | ⟨t, ht, hw⟩ | ⟨t, f, ht, hf⟩ := h
  · exact .inl ⟨t, .onward hs hr ht, he⟩
  · exact .inr (.inl ⟨t, .onward hs hr ht, hw⟩)
  · exact .inr (.inr ⟨t, f, .onward hs hr ht, hf⟩)

/-- By the pending moves, of which each step takes one. -/
theorem runCloses {s : State} (h : Inv s) : RunCloses s := by
  generalize hi : s.inputs = moves
  induction moves generalizing s with
  | nil =>
    cases hb : s.busy with
    | true => exact .inr (.inl ⟨s, .here s, hb, hi⟩)
    | false => exact .inl ⟨s, .here s, hb, by simp [hi]⟩
  | cons a rest ih =>
    by_cases he : RunEnded s
    · exact .inl ⟨s, .here s, he⟩
    · have hsound := step_sound h
      cases hr : step s with
      | next r =>
        rw [hr] at hsound
        rw [step_of_inputs hi] at hr
        exact .of_step he (step_of_inputs hi ▸ hr) (ih hsound (takeInput_same hr).inputs)
      | fault f =>
        rw [hr] at hsound
        exact hsound.elim
      | refused f => exact .inr (.inr ⟨s, f, .here s, he, hr⟩)

/-- Settles O60: the pending moves run out; a run has one path, and keeps what earlier sessions left. -/
theorem runEndsOrWaits : Obligations.RunEndsOrWaits := fun _ h =>
  ⟨runCloses h, fun _ _ ht hr => ht.unique hr, fun ⟨_, ht⟩ => ⟨ht.not_waitsForEver, ht.not_refused⟩,
    fun _ ht => ht.records⟩

end Sys2Proof.Machine
end

section
/-! PROOFS. UNREAD_BYTES is REFILL's alone (60_exceptions.md R252): no other pseudocode, begun or gone on with after a
wait, leaves its code. -/

namespace Sys2Proof.Machine

/-- Wherever a piece of pseudocode stands, going on or stopped, FCODE is not UNREAD_BYTES (60_exceptions.md R252). -/
def NoUnreadBytes {α : Type} (r : Res α) : Prop := r.Sat (fun _ t => t.fcode ≠ 1) fun _ t => t.fcode ≠ 1

theorem NoUnreadBytes.bind {α β : Type} {r : Res α} {f : α → State → Res β} (h : NoUnreadBytes r)
    (hf : ∀ a t, t.fcode ≠ 1 → NoUnreadBytes (f a t)) : NoUnreadBytes (r.bind f) := Res.Sat.bind h hf

/-- Every other fault has another code (60_exceptions.md R251). -/
theorem raise_noUnreadBytes {α : Type} {f : FaultKind} (hf : f ≠ .unreadBytes) (v : Word) (s : State) :
    NoUnreadBytes (raise f v s : Res α) := by
  suffices faultCode f ≠ 1 from this
  cases f with
  | unreadBytes => contradiction
  | missingFF00 | endOfStream | copyEmptyDest | illegalCommand => decide

section
variable {s : State} (h : s.fcode ≠ 1)
include h

theorem memRead_noUnreadBytes (k : Nat) : NoUnreadBytes (memRead k s) := by
  unfold memRead
  split <;> exact h

theorem memWrite_noUnreadBytes (k : Nat) (v : Byte) : NoUnreadBytes (memWrite k v s) := by
  unfold memWrite
  split <;> exact h

theorem pullLoop_noUnreadBytes (room got : Nat) (k : PullFor) : NoUnreadBytes (pullLoop room got k s) := by
  induction room generalizing got s with
  | zero => exact h
  | succ room ih =>
    rw [pullLoop_succ]
    split
    · exact h
    · cases s.source.seq[s.sp]? with
      | some v =>
        exact (memWrite_noUnreadBytes (s := afterPull v s) h _ v).bind fun _ t ht => ih (s := growBoundary t) ht _
      | none =>
        rw [pullRound]
        split <;> exact h

theorem pull_noUnreadBytes (got : Nat) (k : PullFor) : NoUnreadBytes (pull got k s) := pullLoop_noUnreadBytes h _ got k

theorem carryForward_noUnreadBytes : NoUnreadBytes (carryForward s) := by
  unfold carryForward
  split
  · exact (memRead_noUnreadBytes h _).bind fun a _ h => (memRead_noUnreadBytes h _).bind fun b _ h =>
      (memWrite_noUnreadBytes h 0 a).bind fun _ _ h => (memWrite_noUnreadBytes h 1 b).bind fun _ _ h => h
  · exact h

theorem checkReceived_noUnreadBytes (need got : Nat) : NoUnreadBytes (checkReceived need got s) := by
  unfold checkReceived
  split
  · exact raise_noUnreadBytes (by decide) _ s
  · exact h

theorem needBytes_noUnreadBytes (need : Nat) (k : PullFor) : NoUnreadBytes (needBytes need k s) :=
  ((carryForward_noUnreadBytes h).bind fun _ _ h => pull_noUnreadBytes h 0 k).bind fun got _ h =>
    checkReceived_noUnreadBytes h need got

theorem resumeNeedBytes_noUnreadBytes (need got : Nat) (k : PullFor) : NoUnreadBytes (resumeNeedBytes need got k s) :=
  (pull_noUnreadBytes h got k).bind fun got _ h => checkReceived_noUnreadBytes h need got

theorem plainTake_noUnreadBytes : NoUnreadBytes (plainTake s) := (memRead_noUnreadBytes h _).bind fun _ _ h => h

theorem plainRead_noUnreadBytes (k : PullFor) : NoUnreadBytes (plainRead k s) := by
  refine NoUnreadBytes.bind ?_ fun _ _ h => plainTake_noUnreadBytes h
  split
  · exact needBytes_noUnreadBytes h 1 k
  · exact h

theorem resumePlainRead_noUnreadBytes (got : Nat) (k : PullFor) : NoUnreadBytes (resumePlainRead got k s) :=
  (resumeNeedBytes_noUnreadBytes h 1 got k).bind fun _ _ h => plainTake_noUnreadBytes h

theorem stuffedFast_noUnreadBytes : NoUnreadBytes (stuffedFast s) := by
  refine (memRead_noUnreadBytes h _).bind fun x t h => ?_
  simp only
  split
  · exact h
  · refine (memRead_noUnreadBytes (s := { t with i := t.i + 1, u := 1 }) h _).bind fun y r h => ?_
    split
    · exact raise_noUnreadBytes (by decide) _ r
    · exact h

theorem stuffedAfterSecond_noUnreadBytes (y : Byte) : NoUnreadBytes (stuffedAfterSecond y s) := by
  unfold stuffedAfterSecond
  split
  · exact raise_noUnreadBytes (by decide) _ s
  · exact h

theorem stuffedAfterFirst_noUnreadBytes (x : Byte) : NoUnreadBytes (stuffedAfterFirst x s) := by
  unfold stuffedAfterFirst
  simp only
  split
  · exact h
  · exact (plainRead_noUnreadBytes (s := { s with u := 1 }) h .stuffedSecond).bind fun y _ h =>
      stuffedAfterSecond_noUnreadBytes h y

theorem readStuffed_noUnreadBytes : NoUnreadBytes (readStuffed s) := by
  unfold readStuffed
  split
  · exact stuffedFast_noUnreadBytes h
  · exact (plainRead_noUnreadBytes h .stuffedFirst).bind fun x _ h => stuffedAfterFirst_noUnreadBytes h x

theorem emitLoop_noUnreadBytes (rem count left t : Nat) : NoUnreadBytes (emitLoop rem count left t s) := by
  induction left generalizing t s with
  | zero => exact h
  | succ left ih =>
    rw [emitLoop_succ]
    refine (memRead_noUnreadBytes h _).bind fun v r h => ?_
    split
    · exact h
    · exact ih (s := delivered v r) h (t + 1)

theorem copyCount_noUnreadBytes (rem avail : Nat) : NoUnreadBytes (copyCount rem avail s) := by
  unfold copyCount
  split
  · exact raise_noUnreadBytes (by decide) _ s
  · exact h

theorem roundEnd_noUnreadBytes (rem : Nat) {onward : State → Res Unit}
    (ho : ∀ r, r.fcode ≠ 1 → NoUnreadBytes (onward r)) : NoUnreadBytes (roundEnd rem onward s) := by
  unfold roundEnd
  split
  · exact h
  · exact ho s h

theorem readFullFrom_noUnreadBytes (fuel rem count t : Nat) : NoUnreadBytes (readFullFrom fuel rem count t s) := by
  induction fuel generalizing rem count t s with
  | zero =>
    exact (emitLoop_noUnreadBytes h rem count _ t).bind fun _ r h =>
      roundEnd_noUnreadBytes (s := advance count r) h (rem - count) fun _ h => h
  | succ fuel ih =>
    exact (emitLoop_noUnreadBytes h rem count _ t).bind fun _ r h =>
      roundEnd_noUnreadBytes (s := advance count r) h (rem - count) fun _ h =>
        (needBytes_noUnreadBytes h (rem - count) (.readFull (rem - count))).bind fun _ q h =>
          (copyCount_noUnreadBytes h (rem - count) (unreadLen q)).bind fun c _ h => ih h (rem - count) c 0

theorem readFullLoop_noUnreadBytes (rem : Nat) : NoUnreadBytes (readFullLoop rem s) :=
  (copyCount_noUnreadBytes h rem _).bind fun _ _ h => readFullFrom_noUnreadBytes h _ rem _ 0

theorem ignoreFrom_noUnreadBytes (fuel rem : Nat) : NoUnreadBytes (ignoreFrom fuel rem s) := by
  induction fuel generalizing rem s with
  | zero => exact roundEnd_noUnreadBytes (s := advance (min (unreadLen s) rem) s) h _ fun _ h => h
  | succ fuel ih =>
    exact roundEnd_noUnreadBytes (s := advance (min (unreadLen s) rem) s) h _ fun _ h =>
      (needBytes_noUnreadBytes h _ _).bind fun _ _ h => ih h _

/-- What a waiting command still has to do raises no UNREAD_BYTES, REFILL's pull included. -/
theorem continueFrom_noUnreadBytes (w : Wait) : NoUnreadBytes (continueFrom w s) := by
  cases w with
  | pull got k =>
    cases k with
    | refill => exact (pull_noUnreadBytes h got _).bind fun _ _ h => h
    | readByte => exact (resumePlainRead_noUnreadBytes h got _).bind fun _ _ h => h
    | stuffedFirst =>
      exact (resumePlainRead_noUnreadBytes h got _).bind fun x _ h => stuffedAfterFirst_noUnreadBytes h x
    | stuffedSecond =>
      exact (resumePlainRead_noUnreadBytes h got _).bind fun y _ h => stuffedAfterSecond_noUnreadBytes h y
    | readFull rem =>
      exact (resumeNeedBytes_noUnreadBytes h rem got _).bind fun _ _ h => readFullLoop_noUnreadBytes h rem
    | ignore rem =>
      exact (resumeNeedBytes_noUnreadBytes h rem got _).bind fun _ _ h => ignoreFrom_noUnreadBytes h _ rem
  | emit rem count t => exact readFullFrom_noUnreadBytes h _ rem count t

/-- Nor does the body of a command other than REFILL. -/
theorem body_noUnreadBytes {i : Instr} (hi : i ≠ .refill) : NoUnreadBytes (body i s) := by
  have hstart : (startTransfer s).fcode ≠ 1 := by rwa [startTransfer_eq, rewound_frame]
  cases i with
  | refill => contradiction
  | readByte => exact (plainRead_noUnreadBytes h _).bind fun _ _ h => h
  | readStuffed => exact readStuffed_noUnreadBytes h
  | unread =>
    suffices (unreadSeq s).fcode ≠ 1 from this
    rwa [unreadSeq_eq]
  | readFull n => exact readFullLoop_noUnreadBytes hstart n
  | ignore n => exact ignoreFrom_noUnreadBytes hstart _ n
  | init => exact (by decide : (0 : BitVec 4) ≠ 1)

end

/-- Ending or parking a command does not write FCODE. -/
theorem NoUnreadBytes.fcode_of_finish {r : Res Unit} {t : State} (h : NoUnreadBytes r) (ht : finish r = .next t) :
    t.fcode ≠ 1 := by
  obtain ⟨q, rfl, rfl⟩ | ⟨q, rfl, rfl⟩ | ⟨w, q, rfl, rfl⟩ := finish_cases ht <;> exact h

/-- Settles O18: REFILL tests the cursors before it does anything; no other pseudocode has this `raise`. -/
theorem onlyRefillRaisesUnreadBytes : Obligations.OnlyRefillRaisesUnreadBytes := by
  refine ⟨fun s h hij => ⟨?_, ?_⟩, fun s t i h0 hi ht => ?_, fun s t h0 ht => ?_⟩
  · have hle := h.i_le_j
    omega
  · rw [exec_eq, body, if_pos hij]
    rfl
  · have h1 : s.fcode ≠ 1 := by simp [h0]
    rw [exec_eq] at ht
    exact (body_noUnreadBytes h1 hi).fcode_of_finish ht
  · have h1 : s.fcode ≠ 1 := by simp [h0]
    obtain ⟨-, rfl⟩ | ⟨w, -, ht⟩ := resume_cases ht
    · exact h1
    · exact (continueFrom_noUnreadBytes h1 w).fcode_of_finish ht

end Sys2Proof.Machine
end

section
/-! PROOFS. The other exceptions (60_exceptions.md): END_OF_STREAM in the readers, what a latched fault keeps, the illegal
word; and the reset input (70_reset_and_hazards.md). -/

namespace Sys2Proof.Machine

/-! ## END_OF_STREAM in the readers -/

/-- A plain read whose refill receives nothing raises END_OF_STREAM(1) where the refill has left the state
(40_refill.md R108, 43_plain_reader.md R162). -/
theorem plainRead_ends {s : State} (h : DataInv s) (hi : s.i = s.j) (ha : PullAnswers s) (h0 : refillCount s = 0)
    (k : PullFor) :
    ∃ m, StoredByRefill s 0 m ∧ plainRead k s = raise .endOfStream 1 (afterRefill s m) := by
  obtain ⟨-, -, -, hjc⟩ := h.cursor
  obtain ⟨m, hm, hr⟩ := refill_answers hjc hi ha k
  refine ⟨m, h0 ▸ hm, ?_⟩
  rw [plainRead, if_pos hi, needBytes, hr, Res.ok_bind, checkReceived, if_pos h0]
  rfl

/-- Settles O23: each reader's first plain read raises the fault, and neither `u` nor RESULT is written before. -/
theorem readsRaiseEndOfStream : Obligations.ReadsRaiseEndOfStream := by
  rintro s c h hi ha h0 (rfl | rfl)
  · obtain ⟨m, hm, hr⟩ := plainRead_ends h hi ha h0 .readByte
    refine ⟨m, hm, ?_⟩
    rw [exec_eq, body, hr]
    rfl
  · obtain ⟨m, hm, hr⟩ := plainRead_ends h hi ha h0 .stuffedFirst
    refine ⟨m, hm, ?_⟩
    rw [exec_readStuffed, readStuffed, if_neg (by omega), hr]
    rfl

/-! ## A latched fault -/

/-- What moves outside the block may change while no command runs: REFUSED, the other agents' state, the reads
answered and the moves pending. -/
def BlockUntouched (s t : State) : Prop :=
  t = { s with
    refused := t.refused, source := t.source, nextSource := t.nextSource, outReady := t.outReady
    accN := t.accN, accF1 := t.accF1, accF2 := t.accF2, reads := t.reads, draws := t.draws, inputs := t.inputs }

/-- With no command in progress there is nothing to go on with (46_session_control.md R232). -/
theorem eq_of_resume_idle {s t : State} (hw : s.waiting = none) (h : resume s = .next t) : t = s := by
  obtain ⟨-, rfl⟩ | ⟨w, hw', -⟩ := resume_cases h
  · rfl
  · simp [hw] at hw'

/-- While FAULT = 1 every word but INIT's is dropped (46_session_control.md R231). -/
theorem eq_of_offer_faulted {s t : State} {w : Word} (hb : s.busy = false) (hf : s.fault = true)
    (hi : isInit w = false) (h : offer w s = .next t) : t = setRefused s := by
  obtain ⟨hb', -⟩ | ⟨-, -, -, rfl⟩ | ⟨-, hi', -⟩ := offer_cases h
  · simp [hb] at hb'
  · rfl
  · simp [hi' hf] at hi

/-- Only an access at CMD's own address reaches offset 0 (10_state.md R34, R35). -/
theorem eq_base_of_busOffset_zero {c : Config} {addr bytes : Nat} (h : busOffset addr bytes c = .ok 0) :
    addr = c.base ∧ bytes = 4 := by
  unfold busOffset at h
  split at h
  case isTrue => contradiction
  case isFalse hin =>
  split at h
  case isTrue hword =>
    injection h with h
    exact ⟨by omega, hword.1⟩
  case isFalse => contradiction

/-- While FAULT = 1 and no command runs, no move but reset and INIT's write reaches the block's data
(60_exceptions.md R254, R262). -/
theorem takeInput_faulted {s t : State} {a : Input} (hb : s.busy = false) (hw : s.waiting = none)
    (hf : s.fault = true) (ha : a ≠ .reset) (hi : ∀ w, a = .busWrite s.cfg.base 4 w → isInit w = false)
    (h : takeInput a s = .next t) : BlockUntouched s t := by
  cases a with
  | busWrite addr bytes w =>
    obtain rfl | ⟨hcmd, hoffer⟩ := busWrite_cases h
    · rfl
    · obtain ⟨rfl, rfl⟩ := eq_base_of_busOffset_zero hcmd
      obtain rfl := eq_of_offer_faulted hb hf (hi w rfl) hoffer
      rfl
  | busRead addr bytes =>
    simp only [takeInput, busRead] at h
    split at h
    · contradiction
    · injection h with h
      rw [readOffset_idle hb] at h
      exact h ▸ rfl
  | hostAccept ready =>
    obtain rfl := eq_of_resume_idle (s := { s with outReady := ready }) hw h
    rfl
  | sourceBytes bs =>
    simp only [takeInput, sourceBytes] at h
    split at h
    · contradiction
    · obtain rfl := eq_of_resume_idle (s := { s with source := s.source.reveal bs }) hw h
      rfl
  | sourceEnd =>
    obtain rfl := eq_of_resume_idle (s := { s with source := { s.source with ended := true } }) hw h
    rfl
  | attach src =>
    injection h with h
    exact h ▸ rfl
  | accSet n f1 f2 =>
    simp only [takeInput, accSet] at h
    split at h
    · injection h with h
      exact h ▸ rfl
    · contradiction
  | reset => contradiction

/-- Settles O52: under the invariant a faulted block has no command in progress, so its data is out of every move's
reach. -/
theorem faultIsSticky : Obligations.FaultIsSticky := by
  intro s t hs hf ht hreset hinit
  have hb : s.busy = false := by
    rw [← Bool.not_eq_true]
    intro hb
    simp [hs.noFault hb] at hf
  have hkept : BlockUntouched s t := by
    obtain ⟨-, rfl⟩ | ⟨a, rest, hi, ha⟩ := step_cases ht
    · rfl
    · refine takeInput_faulted (s := { s with inputs := rest }) hb (hs.waiting_of_idle hb) hf ?_ ?_ ha
      · rintro rfl
        exact hreset rest hi
      · rintro w rfl
        rw [← Bool.not_eq_true, isInit_iff]
        exact hinit w rest hi
  rw [hkept]
  exact ⟨hf, rfl, rfl, hb, rfl, rfl, rfl, rfl, rfl, rfl, rfl⟩

/-! ## The illegal word -/

theorem endCommand_of_idle {s : State} (hb : s.busy = false) (hw : s.waiting = none) : endCommand s = s := by
  rw [endCommand, ← hb, ← hw]

/-- An illegal word offered while FAULT = 0 and no command runs is accepted and raises its fault
(46_session_control.md R231, 60_exceptions.md R256). -/
theorem offer_illegal {s : State} {w : Word} {e : Illegal} (hb : s.busy = false) (hw : s.waiting = none)
    (hf : s.fault = false) (hd : decode w = .error e) : offer w s = .next (latchFault .illegalCommand w s) := by
  rw [offer, if_neg (by simp [hb]), if_neg (by simp [hf]), accept, hd]
  exact congrArg (fun q => Host.Outcome.next (latchFault .illegalCommand w q)) (endCommand_of_idle hb hw)

/-- Settles O10: the word reaches CMD; with FAULT = 1 it is refused as every word but INIT's is. -/
theorem illegalWordRaises : Obligations.IllegalWordRaises := by
  intro s w rest hi hs hb hd
  cases he : decode w with
  | ok i => simp [he, Except.toOption] at hd
  | error e =>
    refine ⟨fun hf => ?_, fun hf => faultRefusesCommands s w rest hs.data.cfg hi hb hf (by simp [he])⟩
    rw [step_cmdWrite hs.data.cfg hi, offer_illegal (s := { s with inputs := rest }) hb (hs.waiting_of_idle hb) hf he]
    rfl

/-! ## The reset input -/

/-- Settles O41: the step asserts reset, which clears the session and drops the command in progress. -/
theorem resetAbandonsCommand : Obligations.ResetAbandonsCommand := fun s rest hi =>
  ⟨assertReset { s with inputs := rest }, step_of_inputs hi, rfl⟩

end Sys2Proof.Machine
end
